-- ==== Sys2Proof/Word.lean ====
section
/-! DEFINITION. The word types of BNE: 32-bit words, 8-bit bytes, the 64-bit constant, wide-register numbers
(spec/00_scope.md R7, spec/10_state.md R21, spec/20_memory.md R50). -/

namespace Sys2Proof

/-- A word: a 32-bit unsigned unit of big-integer representation (R7). -/
abbrev Word := BitVec 32

/-- A byte of the I/O buffer (R36, R50). -/
abbrev Byte := BitVec 8

/-- A 64-bit value: the Montgomery constant `CTX.NINV` (R33). -/
abbrev DWord := BitVec 64

/-- The number of one of the eight wide registers `W0` .. `W7` (R21, R83). -/
abbrev WReg := Fin 8

end Sys2Proof
end

