-- ==== Sys2Proof/Syntax.lean ====
section
/-! DEFINITION. The 19 commands of BNE as syntax, one constructor per row of the opcode table (spec/30_encoding.md R85, R89). -/

namespace Sys2Proof

/-- A command. Register operands are wide-register numbers (R83: only 0 .. 7 exist); `imm` is the unsigned immediate (R84), which a
well-formed command keeps below 2^16 (`Instr.wellFormed`). Operand order is that of R89. -/
inductive Instr where
  /-- `NOP` (R100). -/
  | nop
  /-- `MOV rd, rs1` (R101). -/
  | mov (rd rs1 : WReg)
  /-- `LDB rd, imm`: bytes to integer (R102). -/
  | ldb (rd : WReg) (imm : Nat)
  /-- `STB rs1, rs2`: integer to bytes, the width from `rs2` (R104). -/
  | stb (rs1 rs2 : WReg)
  /-- `CMP rs1, rs2` (R121). -/
  | cmp (rs1 rs2 : WReg)
  /-- `ADD rd, rs1, rs2` (R123). -/
  | add (rd rs1 rs2 : WReg)
  /-- `SUB rd, rs1, rs2` (R124). -/
  | sub (rd rs1 rs2 : WReg)
  /-- `SHL rd, rs1, imm` (R126). -/
  | shl (rd rs1 : WReg) (imm : Nat)
  /-- `SHR rd, rs1, imm` (R128). -/
  | shr (rd rs1 : WReg) (imm : Nat)
  /-- `NORM rd` (R130). -/
  | norm (rd : WReg)
  /-- `MUL rd, rs1, rs2` (R132). -/
  | mul (rd rs1 rs2 : WReg)
  /-- `SQR rd, rs1` (R134). -/
  | sqr (rd rs1 : WReg)
  /-- `REM rd, rs1, rs2`: `rd` gets `rs1 mod rs2` (R150). -/
  | rem (rd rs1 rs2 : WReg)
  /-- `MSETUP rs1`: load the Montgomery context (R172). -/
  | msetup (rs1 : WReg)
  /-- `MTO rd, rs1`: into Montgomery form (R173). -/
  | mto (rd rs1 : WReg)
  /-- `MMUL rd, rs1, rs2`: Montgomery multiply (R177). -/
  | mmul (rd rs1 rs2 : WReg)
  /-- `MSQR rd, rs1`: Montgomery square (R178). -/
  | msqr (rd rs1 : WReg)
  /-- `MRED rd, rs1`: Montgomery reduction (R179). -/
  | mred (rd rs1 : WReg)
  /-- `MODPOW rd, rs1, rs2, rs3`: `rd` gets `rs1 ^ rs2 mod rs3` (R190). -/
  | modpow (rd rs1 rs2 rs3 : WReg)
deriving DecidableEq, Repr

end Sys2Proof
end

