-- ==== Sys2Proof/WellFormed.lean ====
section
/-! DEFINITION. Which commands have an encoding: the immediate of LDB, SHL and SHR is a 16-bit field (spec/30_encoding.md R82, R84).
Register numbers are 0 .. 7 by their type (R83). -/

namespace Sys2Proof

/-- An immediate fits its 16-bit field (R84: 0 .. 65535). -/
def immFits (imm : Nat) : Bool := decide (imm < 2 ^ 16)

/-- The commands that an encoding of R85 exists for. -/
def Instr.wellFormed : Instr → Bool
  | .nop => true
  | .mov _ _ => true
  | .ldb _ imm => immFits imm
  | .stb _ _ => true
  | .cmp _ _ => true
  | .add _ _ _ => true
  | .sub _ _ _ => true
  | .shl _ _ imm => immFits imm
  | .shr _ _ imm => immFits imm
  | .norm _ => true
  | .mul _ _ _ => true
  | .sqr _ _ => true
  | .rem _ _ _ => true
  | .msetup _ => true
  | .mto _ _ => true
  | .mmul _ _ _ => true
  | .msqr _ _ => true
  | .mred _ _ => true
  | .modpow _ _ _ _ => true

end Sys2Proof
end

