-- ==== Sys2Proof/Decode.lean ====
section
/-! DEFINITION. Decoding a 32-bit command word, in the order of spec/30_encoding.md R86, and the encoder written from the same table
(R81, R82, R85). Decoding is total: every word is one command or one decode error. -/

namespace Sys2Proof

/-- `w[hi:lo]`: the field of bits `hi` down to `lo` as an unsigned number (spec/00_scope.md R11). -/
def field (w : Word) (hi lo : Nat) : Nat := w.toNat / 2 ^ lo % 2 ^ (hi - lo + 1)

/-- Why a word is no command (R86 steps 1 to 3). -/
inductive DecodeError where
  /-- Step 1: bits 31:24 are no opcode of R85. -/
  | illegalOpcode
  /-- Step 2: a field the command does not use is nonzero. -/
  | reservedBits
  /-- Step 3: a used register field is 8 .. 15. -/
  | badReg
deriving DecidableEq, Repr

/-- Which fields a command uses (the `uses` column of R85). A command with `imm` is of format I (R82), else of format R (R81). -/
structure Uses where
  rd : Bool
  rs1 : Bool
  rs2 : Bool
  rs3 : Bool
  imm : Bool
deriving DecidableEq, Repr

/-- The operand fields of a word, register numbers by their low three bits (R85 `ddd`, `aaa`, `bbb`, `ccc`, `i`). -/
structure Fields where
  rd : WReg
  rs1 : WReg
  rs2 : WReg
  rs3 : WReg
  imm : Nat
deriving DecidableEq, Repr

/-- The operand fields of a word (R81, R82). -/
def fieldsOf (w : Word) : Fields where
  rd := Fin.ofNat 8 (field w 23 20)
  rs1 := Fin.ofNat 8 (field w 19 16)
  rs2 := Fin.ofNat 8 (field w 15 12)
  rs3 := Fin.ofNat 8 (field w 11 8)
  imm := field w 15 0

/-- R86 step 2: every field the command does not use is zero. In format I bits 15:0 are the immediate. -/
def Uses.unusedZero (u : Uses) (w : Word) : Bool :=
  (u.rd || field w 23 20 == 0) && (u.rs1 || field w 19 16 == 0) &&
    (u.imm || ((u.rs2 || field w 15 12 == 0) && (u.rs3 || field w 11 8 == 0) && field w 7 0 == 0))

/-- R86 step 3: every field the command uses as a register is below 8. -/
def Uses.regsExist (u : Uses) (w : Word) : Bool :=
  (!u.rd || decide (field w 23 20 < 8)) && (!u.rs1 || decide (field w 19 16 < 8)) &&
    (!u.rs2 || decide (field w 15 12 < 8)) && (!u.rs3 || decide (field w 11 8 < 8))

/-- The opcode map of R85: for an opcode, the fields it uses and the command they make. -/
def opcodeRow : Nat → Option (Uses × (Fields → Instr))
  | 0x00 => some (⟨false, false, false, false, false⟩, fun _ => .nop)
  | 0x01 => some (⟨true, true, false, false, false⟩, fun f => .mov f.rd f.rs1)
  | 0x03 => some (⟨true, false, false, false, true⟩, fun f => .ldb f.rd f.imm)
  | 0x04 => some (⟨false, true, true, false, false⟩, fun f => .stb f.rs1 f.rs2)
  | 0x10 => some (⟨false, true, true, false, false⟩, fun f => .cmp f.rs1 f.rs2)
  | 0x11 => some (⟨true, true, true, false, false⟩, fun f => .add f.rd f.rs1 f.rs2)
  | 0x12 => some (⟨true, true, true, false, false⟩, fun f => .sub f.rd f.rs1 f.rs2)
  | 0x13 => some (⟨true, true, false, false, true⟩, fun f => .shl f.rd f.rs1 f.imm)
  | 0x14 => some (⟨true, true, false, false, true⟩, fun f => .shr f.rd f.rs1 f.imm)
  | 0x15 => some (⟨true, false, false, false, false⟩, fun f => .norm f.rd)
  | 0x16 => some (⟨true, true, true, false, false⟩, fun f => .mul f.rd f.rs1 f.rs2)
  | 0x17 => some (⟨true, true, false, false, false⟩, fun f => .sqr f.rd f.rs1)
  | 0x20 => some (⟨true, true, true, false, false⟩, fun f => .rem f.rd f.rs1 f.rs2)
  | 0x30 => some (⟨false, true, false, false, false⟩, fun f => .msetup f.rs1)
  | 0x31 => some (⟨true, true, false, false, false⟩, fun f => .mto f.rd f.rs1)
  | 0x32 => some (⟨true, true, true, false, false⟩, fun f => .mmul f.rd f.rs1 f.rs2)
  | 0x33 => some (⟨true, true, false, false, false⟩, fun f => .msqr f.rd f.rs1)
  | 0x34 => some (⟨true, true, false, false, false⟩, fun f => .mred f.rd f.rs1)
  | 0x38 => some (⟨true, true, true, true, false⟩, fun f => .modpow f.rd f.rs1 f.rs2 f.rs3)
  | _ => none

/-- Decode a command word: the first decode error of R86 that applies, or the command. -/
def decode (w : Word) : Except DecodeError Instr :=
  match opcodeRow (field w 31 24) with
  | none => .error .illegalOpcode
  | some (u, mk) =>
    if u.unusedZero w then
      if u.regsExist w then .ok (mk (fieldsOf w)) else .error .badReg
    else .error .reservedBits

/-! ### The encoder -/

/-- A word of format R (R81). -/
def formatR (op rd rs1 rs2 rs3 : Nat) : Word :=
  BitVec.ofNat 32 (op * 2 ^ 24 + rd * 2 ^ 20 + rs1 * 2 ^ 16 + rs2 * 2 ^ 12 + rs3 * 2 ^ 8)

/-- A word of format I (R82). -/
def formatI (op rd rs1 imm : Nat) : Word :=
  BitVec.ofNat 32 (op * 2 ^ 24 + rd * 2 ^ 20 + rs1 * 2 ^ 16 + imm)

/-- The word of a well-formed command (R85). -/
def encode : Instr → Word
  | .nop => formatR 0x00 0 0 0 0
  | .mov rd rs1 => formatR 0x01 rd rs1 0 0
  | .ldb rd imm => formatI 0x03 rd 0 imm
  | .stb rs1 rs2 => formatR 0x04 0 rs1 rs2 0
  | .cmp rs1 rs2 => formatR 0x10 0 rs1 rs2 0
  | .add rd rs1 rs2 => formatR 0x11 rd rs1 rs2 0
  | .sub rd rs1 rs2 => formatR 0x12 rd rs1 rs2 0
  | .shl rd rs1 imm => formatI 0x13 rd rs1 imm
  | .shr rd rs1 imm => formatI 0x14 rd rs1 imm
  | .norm rd => formatR 0x15 rd 0 0 0
  | .mul rd rs1 rs2 => formatR 0x16 rd rs1 rs2 0
  | .sqr rd rs1 => formatR 0x17 rd rs1 0 0
  | .rem rd rs1 rs2 => formatR 0x20 rd rs1 rs2 0
  | .msetup rs1 => formatR 0x30 0 rs1 0 0
  | .mto rd rs1 => formatR 0x31 rd rs1 0 0
  | .mmul rd rs1 rs2 => formatR 0x32 rd rs1 rs2 0
  | .msqr rd rs1 => formatR 0x33 rd rs1 0 0
  | .mred rd rs1 => formatR 0x34 rd rs1 0 0
  | .modpow rd rs1 rs2 rs3 => formatR 0x38 rd rs1 rs2 rs3

/-! ### The match and mask columns of the table -/

/-- One row of R85: its mnemonic, its match and its mask. -/
structure EncodingRow where
  mnemonic : String
  matchBits : Word
  maskBits : Word
deriving DecidableEq, Repr

/-- The match and mask columns of R85. -/
def encodingTable : List EncodingRow :=
  [⟨"NOP", 0x00000000, 0xFFFFFFFF⟩, ⟨"MOV", 0x01000000, 0xFF88FFFF⟩, ⟨"LDB", 0x03000000, 0xFF8F0000⟩,
   ⟨"STB", 0x04000000, 0xFFF88FFF⟩, ⟨"CMP", 0x10000000, 0xFFF88FFF⟩, ⟨"ADD", 0x11000000, 0xFF888FFF⟩,
   ⟨"SUB", 0x12000000, 0xFF888FFF⟩, ⟨"SHL", 0x13000000, 0xFF880000⟩, ⟨"SHR", 0x14000000, 0xFF880000⟩,
   ⟨"NORM", 0x15000000, 0xFF8FFFFF⟩, ⟨"MUL", 0x16000000, 0xFF888FFF⟩, ⟨"SQR", 0x17000000, 0xFF88FFFF⟩,
   ⟨"REM", 0x20000000, 0xFF888FFF⟩, ⟨"MSETUP", 0x30000000, 0xFFF8FFFF⟩, ⟨"MTO", 0x31000000, 0xFF88FFFF⟩,
   ⟨"MMUL", 0x32000000, 0xFF888FFF⟩, ⟨"MSQR", 0x33000000, 0xFF88FFFF⟩, ⟨"MRED", 0x34000000, 0xFF88FFFF⟩,
   ⟨"MODPOW", 0x38000000, 0xFF8888FF⟩]

/-- `(word AND mask) = match` (R85). -/
def EncodingRow.accepts (r : EncodingRow) (w : Word) : Bool := w &&& r.maskBits == r.matchBits

/-- The mnemonic of a command (R85, R89). -/
def Instr.mnemonic : Instr → String
  | .nop => "NOP"
  | .mov _ _ => "MOV"
  | .ldb _ _ => "LDB"
  | .stb _ _ => "STB"
  | .cmp _ _ => "CMP"
  | .add _ _ _ => "ADD"
  | .sub _ _ _ => "SUB"
  | .shl _ _ _ => "SHL"
  | .shr _ _ _ => "SHR"
  | .norm _ => "NORM"
  | .mul _ _ _ => "MUL"
  | .sqr _ _ => "SQR"
  | .rem _ _ _ => "REM"
  | .msetup _ => "MSETUP"
  | .mto _ _ => "MTO"
  | .mmul _ _ _ => "MMUL"
  | .msqr _ _ => "MSQR"
  | .mred _ _ => "MRED"
  | .modpow _ _ _ _ => "MODPOW"

/-! ### Pseudo-commands -/

/-- The assembler conveniences of R90. -/
inductive Pseudo where
  /-- `CLR rd`: load the empty string. -/
  | clr (rd : WReg)
  /-- `NORMV rd, rs1`: the normalized copy. -/
  | normv (rd rs1 : WReg)
  /-- `MFROM rd, rs1`: leave Montgomery form. -/
  | mfrom (rd rs1 : WReg)
deriving DecidableEq, Repr

/-- The commands a pseudo-command expands to (R90), issued one after the other. -/
def Pseudo.expand : Pseudo → List Instr
  | .clr rd => [.ldb rd 0]
  | .normv rd rs1 => [.mov rd rs1, .norm rd]
  | .mfrom rd rs1 => [.mred rd rs1]

/-- The command read from the word `w` of `nbits` bits. A command is one 32-bit number, written whole to `CMD` (R80); every bit above
`nbits` is zero. -/
def decodeTableWord (nbits w : Nat) : Option Instr :=
  match decode (BitVec.ofNat 32 (w % 2 ^ nbits)) with
  | .ok i => some i
  | .error _ => none

end Sys2Proof
end

