-- ==== Sys2Proof/Config.lean ====
section
/-! DEFINITION. What is fixed for this hardware (spec/00_scope.md R2, R8) and the free values: constants without a body, for what
the spec leaves unspecified (spec/93_implementation_defined.md U1 to U4). Nothing can be proved of a free value. -/

namespace Sys2Proof.Config

/-- The identity string a model uses where it needs one (R2). -/
def identity : String := "BNE/EasyCipher-EC-v7"

/-- Bits in a word (R7). -/
abbrev wordBits : Nat := 32
/-- The largest modulus, in words (R8 `MAXW`). -/
abbrev maxW : Nat := 64
/-- The modulus lengths MODPOW accepts (R8 `KEY_WORDS`). -/
abbrev keyWords : List Nat := [32, 64]
/-- EC's scratch capacity; no rule depends on it (R8 `SCRATCHW`). -/
abbrev scratchW : Nat := 68
/-- Words in each wide register (R8 `CAP`). -/
abbrev cap : Nat := 136
/-- The number of wide registers (R8 `NREG`). -/
abbrev nreg : Nat := 8
/-- The largest window width (R8 `WMAX`). -/
abbrev wMax : Nat := 7
/-- Power-table entries the hardware's engine can hold (R8 `TBL_SLOTS`). MODPOW's operation takes the number as an argument, so that
the out-of-memory path can be reached with a smaller one (R195). -/
abbrev tblSlots : Nat := 64
/-- Words in one power-table entry for a modulus of `mlen` words: `2 × MLEN` (R8 `TBL_WIDTH`, R195). -/
abbrev tblWidth (mlen : Nat) : Nat := 2 * mlen
/-- Words in each buffer of the accumulator pair: `2 × MAXW` (R37 b). -/
abbrev accWords : Nat := 2 * maxW
/-- Words in the divider's remainder buffer: `CAP + 1` (R160). -/
abbrev remWords : Nat := cap + 1
/-- Bytes in the I/O buffer (R8 `IOB_BYTES`). -/
abbrev iobBytes : Nat := 544
/-- Rounds of the inverse iteration (R8 `NEWTON_ROUNDS`). -/
abbrev newtonRounds : Nat := 5
/-- Divide step 4: the least length of both operands (R8 `POW2_MIN_WORDS`). -/
abbrev pow2MinWords : Nat := 6
/-- Divide step 4: the least number of shared trailing zero bits (R8 `POW2_MIN_ZEROS`). -/
abbrev pow2MinZeros : Nat := 96
/-- The finite window thresholds on the exponent's bit length (R8 `THRESH`, R193). -/
abbrev thresholds : List Nat := [7, 25, 81, 241, 673, 1793]

/-! ### Free values

Each takes the counter `State.freeCtr`, which every engine step advances, so that two steps draw values that nothing relates. -/

/-- FREE VALUE (U1, log 3): word `k` of the destination of a faulted command. -/
opaque freeRegWord (ctr k : Nat) : Word
/-- FREE VALUE (U1, log 3): the offset of the destination of a faulted command, before it is cut to the capacity. -/
opaque freeRegOff (ctr : Nat) : Nat
/-- FREE VALUE (U1, log 3): the length of the destination of a faulted command, before it is cut to the capacity. -/
opaque freeRegLen (ctr : Nat) : Nat
/-- FREE VALUE (U2, log 4): byte `j` of the I/O buffer after STB raised WIDTH. -/
opaque freeIobByte (ctr j : Nat) : Byte
/-- FREE VALUE (log 7): word `k` of `CTX.MODN` at or above `CTX.MLEN`. -/
opaque freeModnWord (ctr k : Nat) : Word
/-- FREE VALUE (U3, log 5): word `k` of power-table slot `i` after a command or a reset. -/
opaque freeTableWord (ctr i k : Nat) : Word
/-- FREE VALUE (U3, log 5): word `k` of an accumulator buffer after a command or a reset. -/
opaque freeAccWord (ctr : Nat) (slot : Bool) (k : Nat) : Word
/-- FREE VALUE (U3, log 5): the accumulator slot index after a command or a reset. -/
opaque freeAccIndex (ctr : Nat) : Bool
/-- FREE VALUE (U3, log 5): word `k` of the divider's remainder buffer after a command or a reset. -/
opaque freeRemWord (ctr k : Nat) : Word
/-- FREE VALUE (U3, log 5): how many scratch integers there are (R37 c does not say). -/
opaque freeScratchCount (ctr : Nat) : Nat
/-- FREE VALUE (U3, log 5): word `k` of scratch integer `i` after a command or a reset. -/
opaque freeScratchWord (ctr i k : Nat) : Word
/-- FREE VALUE (U3, log 5): the position register of the sequencer after a command or a reset. -/
opaque freePosition (ctr : Nat) : Nat

end Sys2Proof.Config
end

