-- ==== Sys2Proof/Machine/WordArray.lean ====
section
/-! DEFINITION. Word arrays: lists of words, most-significant word first, with the notation of spec/00_scope.md R10 and R11 and the
byte/word conversions of spec/40_convert.md R103 and R105. -/

namespace Sys2Proof.Machine

open Sys2Proof

/-- `2^32`, the base of a word array. -/
abbrev base : Nat := 2 ^ 32

/-- `val(a)`: the value of a word array, most-significant word first (R10). -/
def val (a : List Word) : Nat := a.foldl (fun acc x => acc * base + x.toNat) 0

/-- `words(v, L)`: the array of exactly `L` words with value `v`, for `v < 2^(32 L)` (R10); a larger `v` is taken modulo that. -/
def words (v : Nat) : Nat → List Word
  | 0 => []
  | l + 1 => BitVec.ofNat 32 (v / base ^ l) :: words v l

/-- `norm(a)`: leading zero words dropped (R10). -/
def norm (a : List Word) : List Word := a.dropWhile (· == 0)

/-- `siglen(a)` (R10). -/
def siglen (a : List Word) : Nat := (norm a).length

/-- An array is normalized when it is empty or its first word is nonzero (R10). -/
def isNormalized : List Word → Bool
  | [] => true
  | x :: _ => x != 0

/-- `bitlen(v)` (R11). -/
def bitlen (v : Nat) : Nat := if v = 0 then 0 else Nat.log2 v + 1

/-- `clz32(x)` (R11). -/
def clz32 (x : Word) : Nat := 32 - bitlen x.toNat

/-- Trailing zero bits of `v`, looking at `fuel` bits at most. -/
def ctzFuel : Nat → Nat → Nat
  | 0, _ => 0
  | fuel + 1, v => if v % 2 = 1 then 0 else ctzFuel fuel (v / 2) + 1

/-- `ctz(v)` of a nonzero number (R11). -/
def ctz (v : Nat) : Nat := ctzFuel (bitlen v) v

/-- The least-significant word of an array, zero for the empty array. -/
def lowWord (a : List Word) : Word := a.getLast?.getD 0

/-- The most-significant word of an array, zero for the empty array. -/
def topWord (a : List Word) : Word := a.head?.getD 0

/-- The lexicographic comparison from the most-significant word, for arrays of equal length (R121). -/
def compareEqualLength : List Word → List Word → Ordering
  | x :: xs, y :: ys =>
    if x = y then compareEqualLength xs ys else if y.toNat < x.toNat then .gt else .lt
  | _, _ => .eq

/-- The comparison of R121: a difference in length resolves it, else it is lexicographic. `.gt` is `c = +1`, `.lt` is `c = -1`. -/
def compareArrays (a b : List Word) : Ordering :=
  if b.length < a.length then .gt
  else if a.length < b.length then .lt
  else compareEqualLength a b

/-- The result length of SHL by `n` bits (R126 `L'`). -/
def shlLength (a : List Word) (n : Nat) : Nat :=
  if a.length = 0 then 0
  else
    let r := n % 32
    a.length + n / 32 + (if 0 < r ∧ (topWord a).toNat / 2 ^ (32 - r) ≠ 0 then 1 else 0)

/-- The result of SHL by `n` bits (R126). -/
def shlArray (a : List Word) (n : Nat) : List Word := words (val a * 2 ^ n) (shlLength a n)

/-- The result length of SHR by `n` bits (R128 `L'`). -/
def shrLength (a : List Word) (n : Nat) : Nat :=
  if a.length ≤ n / 32 then 0
  else
    let r := n % 32
    a.length - n / 32 - (if 0 < r ∧ (topWord a).toNat / 2 ^ r = 0 then 1 else 0)

/-- The result of SHR by `n` bits (R128). -/
def shrArray (a : List Word) (n : Nat) : List Word := words (val a / 2 ^ n) (shrLength a n)

/-- The value of a big-endian byte string (R103 `v`). -/
def bytesVal (s : List Byte) : Nat := s.foldl (fun acc b => acc * 2 ^ 8 + b.toNat) 0

/-- The `n` big-endian bytes of a number below `2^(8 n)` (R105 `b_j`). -/
def bytesOf (v : Nat) : Nat → List Byte
  | 0 => []
  | n + 1 => BitVec.ofNat 8 (v / (2 ^ 8) ^ n) :: bytesOf v n

/-- `BytesToWords(s)`: leading zero bytes stripped, four bytes to a word (R103). -/
def bytesToWords (s : List Byte) : List Word :=
  let t := s.dropWhile (· == 0)
  words (bytesVal t) ((t.length + 3) / 4)

/-- `WordsToBytes(a, M)`: the `4 M` big-endian bytes of the value (R105). -/
def wordsToBytes (a : List Word) (m : Nat) : List Byte := bytesOf (val a) (4 * m)

/-- Square and multiply from the most-significant bit, on `fuel` bits at most: `b ^ e mod n`. -/
def powModFuel : Nat → Nat → Nat → Nat → Nat
  | 0, _, _, n => 1 % n
  | fuel + 1, b, e, n =>
    if e = 0 then 1 % n
    else
      let h := powModFuel fuel b (e / 2) n
      (h * h % n) * (if e % 2 = 1 then b % n else 1) % n

/-- `b ^ e mod n`, the value R199 gives MODPOW, computed so that it can be evaluated. -/
def powMod (b e n : Nat) : Nat := powModFuel (bitlen e) b e n

end Sys2Proof.Machine
end

