-- ==== Sys2Proof/Machine/MontArith.lean ====
section
/-! DEFINITION. The arithmetic of the Montgomery unit on values: the reduction constant by five Newton rounds
(spec/43_montgomery.md R171) and the reduction MontRed, one word position at a time (R174 to R176). The word-serial form is in
`Machine/Reduction.lean`. -/

namespace Sys2Proof.Machine

open Sys2Proof

/-- One Newton round: `t (2 - n0 t) mod 2^64` (R171). -/
def newtonRound (n0 t : DWord) : DWord := t * (2 - n0 * t)

/-- `k` Newton rounds from the start `t = n0` (R171). -/
def newton (n0 : DWord) : Nat → DWord
  | 0 => n0
  | k + 1 => newtonRound n0 (newton n0 k)

/-- The low 64 bits of the modulus (R171 `n0`). -/
def low64 (n : List Word) : DWord := BitVec.ofNat 64 (val n)

/-- `NINV`: the inverse of the modulus's low 64 bits modulo `2^64`, negated (R171). -/
def montConst (n : List Word) : DWord := -(newton (low64 n) Config.newtonRounds)

/-- One word position of R174 on the running value `t`: the reduction multiplier `q` from word `j`, then the multiply-accumulate of
`q` against the modulus at that position, all carries included. -/
def montPosition (n : Nat) (ninv : DWord) (t j : Nat) : Nat :=
  t + ((t / base ^ j % base) * (ninv.toNat % base) % base) * n * base ^ j

/-- The running value after the first `j` word positions of R174. -/
def montPositions (n : Nat) (ninv : DWord) (t : Nat) : Nat → Nat
  | 0 => t
  | j + 1 => montPosition n ninv (montPositions n ninv t j) j

/-- `MontRed(T)` for a modulus array `n` of `m` words (R174). The final repeated subtraction is the remainder it ends in (R176,
log 16). -/
def montRed (n : List Word) (ninv : DWord) (t : Nat) : List Word :=
  let m := n.length
  words (montPositions (val n) ninv t m / base ^ m % val n) m

/-- Into Montgomery form: `val(a) × R mod N`, in `m` words (R173). -/
def montForm (n : List Word) (x : Nat) : List Word :=
  words (x * base ^ n.length % val n) n.length

end Sys2Proof.Machine
end

