-- ==== Sys2Proof/Machine/State.lean ====
section
/-! DEFINITION. The state of BNE (spec/10_state.md R20 to R39) as plain data, the reasons a step can stop, and the state after reset
(R39, spec/70_reset_and_hazards.md R240). -/

namespace Sys2Proof.Machine

open Sys2Proof

/-- One wide register: a word array with an offset, a length and a valid bit (R21, R22, R24). -/
structure WideReg where
  /-- `DATA[0 .. CAP-1]`. -/
  data : Vector Word Config.cap
  /-- `OFF`, a word index. -/
  off : BitVec 8
  /-- `LEN`, a word count. -/
  len : BitVec 8
  /-- `VALID`. -/
  valid : Bool
deriving DecidableEq, Repr

/-- The `FLAGS` register's fields (R28). -/
structure FlagBits where
  /-- `FLAGS.CMP`: 00 equal, 01 greater, 11 less. -/
  cmp : BitVec 2
  /-- `FLAGS.C`: carry or borrow. -/
  c : Bool
deriving DecidableEq, Repr

/-- The Montgomery context `CTX` (R33). -/
structure MontCtx where
  /-- `CTX.MODN[0 .. 63]`, most-significant word first. -/
  modn : Vector Word Config.maxW
  /-- `CTX.MLEN`. -/
  mlen : BitVec 8
  /-- `CTX.NINV`. -/
  ninv : DWord
  /-- `CTX.MVALID`. -/
  mvalid : Bool
deriving DecidableEq, Repr

/-- `STATE` (R29). -/
inductive EngineState where
  /-- No command in progress. -/
  | idle
  /-- `CMDREG` holds a command the engine has not finished. -/
  | busy
  /-- The last command faulted and is not acknowledged. -/
  | faulted
deriving DecidableEq, Repr

/-- The storage of the I/O buffer: (byte index, byte) pairs, indices strictly rising, no entry equal to the byte an unlisted index
reads as (log 12). -/
abbrev Memory := List Host.Cell

/-- The hidden working storage the spec names (R37). No rule reads it across commands. -/
structure Hidden where
  /-- The Montgomery power table: `TBL_SLOTS` slots of `TBL_WIDTH` = `2 × MLEN` words (R8, R37 a; `Hidden.Fits`). -/
  powerTable : List (List Word)
  /-- How many table entries are claimed at this moment (R37 a, R195). -/
  tableClaimed : Nat
  /-- The first accumulator buffer (R37 b). -/
  accA : Vector Word Config.accWords
  /-- The second accumulator buffer (R37 b). -/
  accB : Vector Word Config.accWords
  /-- The slot index of the accumulator pair (R37 b). -/
  accIndex : Bool
  /-- The divider's remainder buffer (R37 c, R160). -/
  remainder : Vector Word Config.remWords
  /-- The other scratch integers of the divider and the Montgomery unit, of `CAP` words each (R37 c; `Hidden.Fits`). -/
  scratch : List (List Word)
  /-- The position inside a running command (R37 d). -/
  position : Nat
deriving DecidableEq, Repr

/-- The width of a host access (spec/20_memory.md R63). -/
inductive AccessWidth where
  | w8
  | w16
  | w32
deriving DecidableEq, Repr

/-- One turn of the total order of R70: a host access, a turn of the engine, or the platform's reset (R240). -/
inductive Event where
  /-- The host reads (`HostRead32`, `HostRead8`, or a width no register takes; R61, R63, R64). -/
  | read (width : AccessWidth) (addr : BitVec 16)
  /-- The host writes (R62, R63, R64); an 8-bit access carries bits 7:0 of `v`. -/
  | write (width : AccessWidth) (addr : BitVec 16) (v : Word)
  /-- The engine moves if it is BUSY (R29). -/
  | engine
  /-- The platform applies `Reset` (R240). -/
  | reset
deriving DecidableEq, Repr

/-- The whole state of BNE (R20), then three fields of the model's own. -/
structure State where
  /-- Wide registers `W0` .. `W7` (R21). -/
  w : Vector WideReg Config.nreg
  /-- `FLAGS` (R28). -/
  flags : FlagBits
  /-- `CTX` (R33). -/
  ctx : MontCtx
  /-- The I/O buffer `IOB[0 .. 543]` (R36). -/
  iob : Memory
  /-- `CMDREG`, the latched command word (R27). -/
  cmdreg : Word
  /-- `STATE` (R29). -/
  engine : EngineState
  /-- `STATUS.DONE` (R30). -/
  done : Bool
  /-- `STATUS.BUSERR` (R30). -/
  buserr : Bool
  /-- `ERRCODE` bits 2:0 (R31). -/
  errcode : BitVec 3
  /-- `ERRINFO` bits 7:0 (R31). -/
  errinfo : BitVec 8
  /-- Hidden working storage (R37). -/
  hidden : Hidden
  /-- The model's own (log 2): the word the last host read returned. -/
  readData : Word
  /-- The model's own (log 1): what is still to happen, in order (R70). -/
  events : List Event
  /-- The model's own (log 6): the counter the free values are drawn with. -/
  freeCtr : Nat
deriving DecidableEq, Repr

/-- Why a step stops with a fault. BNE's own faults are no such stop: they are next states in which `STATE` = FAULTED (R214). -/
inductive Fault where
  /-- Raised by STB only, where it would store at or past `IOB[544]`, a byte that does not exist (R36, R50). It needs a register with
  `LEN` > 136, which no rule of the spec produces (R22). Safe: BNE cannot be in such a state (log 11). -/
  | iobOutOfRange
deriving DecidableEq, Repr

/-- Why a step is refused. -/
inductive Refusal where
  /-- Raised by `exec` alone, for a command with no meaning yet; none is left. Safe: nothing can be proved of it. -/
  | notModelled (mnemonic : String)
deriving DecidableEq, Repr

/-- A wide register after reset: zero and invalid (R39). -/
def WideReg.reset : WideReg where
  data := Vector.replicate Config.cap 0
  off := 0
  len := 0
  valid := false

/-- The Montgomery context after reset: zero and invalid (R33, R39). -/
def MontCtx.reset : MontCtx where
  modn := Vector.replicate Config.maxW 0
  mlen := 0
  ninv := 0
  mvalid := false

/-- Hidden storage in `State.reset`: its slots have `TBL_WIDTH` words for `MLEN` = 0. The spec leaves the contents unspecified (R39);
DESIGN CHOICE, unsafe: zero, and no scratch integer (log 5). -/
def Hidden.reset : Hidden where
  powerTable := List.replicate Config.tblSlots (List.replicate (Config.tblWidth 0) 0)
  tableClaimed := 0
  accA := Vector.replicate Config.accWords 0
  accB := Vector.replicate Config.accWords 0
  accIndex := false
  remainder := Vector.replicate Config.remWords 0
  scratch := []
  position := 0

/-- BNE right after reset (R39, R240). The three fields of the model's own are empty, zero and zero (DESIGN CHOICE, log 1, 2, 6). -/
def State.reset : State where
  w := Vector.replicate Config.nreg WideReg.reset
  flags := ⟨0, false⟩
  ctx := MontCtx.reset
  iob := []
  cmdreg := 0
  engine := .idle
  done := false
  buserr := false
  errcode := 0
  errinfo := 0
  hidden := Hidden.reset
  readData := 0
  events := []
  freeCtr := 0

end Sys2Proof.Machine
end

