-- ==== Sys2Proof/Machine/Ops.lean ====
section
/-! DEFINITION. The named operations over the state: reading and writing a wide register, loading the context, ending a command,
TAKING A FAULT (spec/60_exceptions.md R214) as one shared operation and leaving the faulted state (R215) beside it. -/

namespace Sys2Proof.Machine

open Sys2Proof

/-! ### Error classes and causes -/

/-- The error classes, in the order of `ERRCODE` (R211). -/
inductive ErrClass where
  | success
  | unknown
  | outOfMemory
  | invalidKey
  /-- Reserved for host software; BNE never produces it (R211). -/
  | inputTooLarge
  | invalidInput
deriving DecidableEq, Repr

/-- The value of `ERRCODE` for a class (R31, R211). -/
def ErrClass.number : ErrClass → BitVec 3
  | .success => 0
  | .unknown => 1
  | .outOfMemory => 2
  | .invalidKey => 3
  | .inputTooLarge => 4
  | .invalidInput => 5

/-- The causes of a fault (R212, rows 1 to 17). -/
inductive Cause where
  | illegalOpcode
  | reservedBits
  | badReg
  | srcInvalid
  | divisorEmpty
  | capacity
  | tableAlloc
  | modLen
  | modEven
  | expZero
  | expGeMod
  | lenMismatch
  | ctxInvalid
  | operandTooLong
  | notNormalized
  | width
  | iobRange
deriving DecidableEq, Repr

/-- The value of `ERRINFO` for a cause (R212 column `#`). -/
def Cause.number : Cause → BitVec 8
  | .illegalOpcode => 1
  | .reservedBits => 2
  | .badReg => 3
  | .srcInvalid => 4
  | .divisorEmpty => 5
  | .capacity => 6
  | .tableAlloc => 7
  | .modLen => 8
  | .modEven => 9
  | .expZero => 10
  | .expGeMod => 11
  | .lenMismatch => 12
  | .ctxInvalid => 13
  | .operandTooLong => 14
  | .notNormalized => 15
  | .width => 16
  | .iobRange => 17

/-- The class of a cause (R212 column `class`). -/
def Cause.errClass : Cause → ErrClass
  | .illegalOpcode => .unknown
  | .reservedBits => .unknown
  | .badReg => .unknown
  | .srcInvalid => .invalidInput
  | .divisorEmpty => .unknown
  | .capacity => .outOfMemory
  | .tableAlloc => .outOfMemory
  | .modLen => .invalidKey
  | .modEven => .invalidKey
  | .expZero => .invalidKey
  | .expGeMod => .invalidKey
  | .lenMismatch => .invalidInput
  | .ctxInvalid => .invalidInput
  | .operandTooLong => .invalidInput
  | .notNormalized => .invalidInput
  | .width => .invalidInput
  | .iobRange => .invalidInput

/-- The cause of an undecodable word (R86). -/
def decodeCause : DecodeError → Cause
  | .illegalOpcode => .illegalOpcode
  | .reservedBits => .reservedBits
  | .badReg => .badReg

/-! ### Filling an array of fixed size -/

/-- The `n` elements from index `k` on: those of the list, then those of `tail`. -/
def fillFrom (tail : Nat → Word) : Nat → Nat → List Word → List Word
  | 0, _, _ => []
  | n + 1, k, [] => tail k :: fillFrom tail n (k + 1) []
  | n + 1, k, x :: xs => x :: fillFrom tail n (k + 1) xs

theorem fillFrom_length (tail : Nat → Word) (n k : Nat) (a : List Word) : (fillFrom tail n k a).length = n := by
  induction n generalizing k a with
  | zero => rfl
  | succ n ih => cases a <;> simp [fillFrom, ih]

/-- A word array at the start of `n` words of storage, the words behind it those of `tail`. -/
def fillVector (tail : Nat → Word) (n : Nat) (a : List Word) : Vector Word n :=
  ⟨⟨fillFrom tail n 0 a⟩, fillFrom_length tail n 0 a⟩

/-! ### Wide registers -/

/-- `view`: `[DATA[OFF], ..., DATA[OFF+LEN-1]]` (R22). In a state with `OFF + LEN > CAP`, which no rule produces, it ends at the
storage's end (log 11). -/
def WideReg.view (r : WideReg) : List Word := (r.data.toList.drop r.off.toNat).take r.len.toNat

/-- What `W[rd] <- a` leaves in the register: the array at offset 0, zeros behind it, valid (R12, R24). -/
def WideReg.ofArray (a : List Word) : WideReg where
  data := fillVector (fun _ => 0) Config.cap a
  off := 0
  len := BitVec.ofNat 8 a.length
  valid := true

/-- Wide register `r` (R12 `W[i]`). -/
def State.reg (s : State) (r : WReg) : WideReg := s.w[r]

/-- `view(i)` of R12. -/
def State.view (s : State) (r : WReg) : List Word := (s.reg r).view

/-- Replace wide register `r`. -/
def State.setReg (s : State) (r : WReg) (x : WideReg) : State := { s with w := s.w.set r x }

/-- `W[rd] <- a` (R12, R24). -/
def State.writeReg (s : State) (rd : WReg) (a : List Word) : State := s.setReg rd (WideReg.ofArray a)

/-! ### Flags, context, I/O buffer -/

/-- Write `FLAGS.CMP`. -/
def State.setCmp (s : State) (c : BitVec 2) : State := { s with flags := { s.flags with cmp := c } }

/-- Write `FLAGS.C`. -/
def State.setCarry (s : State) (c : Bool) : State := { s with flags := { s.flags with c := c } }

/-- The context for the modulus `n`: its private copy, its length, its constant, valid (R33, R172, R192). The words of `MODN` behind the
copy are not stated: free values (log 7). -/
def MontCtx.ofModulus (ctr : Nat) (n : List Word) : MontCtx where
  modn := fillVector (Config.freeModnWord ctr) Config.maxW n
  mlen := BitVec.ofNat 8 n.length
  ninv := montConst n
  mvalid := true

/-- `CTX <- n` (R172, R192). -/
def State.loadCtx (s : State) (n : List Word) : State := { s with ctx := MontCtx.ofModulus s.freeCtr n }

/-- The modulus array of the context: `MODN[0 .. MLEN-1]` (R33). -/
def MontCtx.modulus (c : MontCtx) : List Word := c.modn.toList.take c.mlen.toNat

/-- Replace the I/O buffer. -/
def State.setIob (s : State) (m : Memory) : State := { s with iob := m }

/-! ### Ending a command -/

/-- Hidden storage after a command or a reset, for a context of `mlen` words: every buffer of its size, its words free, no table entry
claimed (R8, R37, R160, R195; U3, log 5). -/
def freeHidden (ctr mlen : Nat) : Hidden where
  powerTable := (List.range Config.tblSlots).map fun i => (List.range (Config.tblWidth mlen)).map (Config.freeTableWord ctr i)
  tableClaimed := 0
  accA := fillVector (Config.freeAccWord ctr false) Config.accWords []
  accB := fillVector (Config.freeAccWord ctr true) Config.accWords []
  accIndex := Config.freeAccIndex ctr
  remainder := fillVector (Config.freeRemWord ctr) Config.remWords []
  scratch := (List.range (Config.freeScratchCount ctr)).map fun i => (List.range Config.cap).map (Config.freeScratchWord ctr i)
  position := Config.freePosition ctr

/-- Release the hidden storage and advance the free-value counter: every engine step ends so. -/
def State.releaseHidden (s : State) : State := { s with hidden := freeHidden s.freeCtr s.ctx.mlen.toNat, freeCtr := s.freeCtr + 1 }

/-- Success: `STATE <- IDLE`, `DONE <- 1`, `ERRCODE <- 0`, `ERRINFO <- 0` (R29). -/
def State.complete (s : State) : State :=
  { s.releaseHidden with engine := .idle, done := true, errcode := 0, errinfo := 0 }

/-- The offset of a faulted destination: any value up to the capacity (U1). -/
def freeOff (ctr : Nat) : Nat := Config.freeRegOff ctr % (Config.cap + 1)

/-- The length of a faulted destination: any value with `OFF + LEN ≤ CAP` (U1). -/
def freeLen (ctr : Nat) : Nat := Config.freeRegLen ctr % (Config.cap + 1 - freeOff ctr)

/-- The destination register of a faulted command: `VALID <- 0`; `DATA`, `OFF`, `LEN` unspecified but for `OFF + LEN ≤ CAP`
(R24, R214, U1, log 3). -/
def WideReg.faulted (ctr : Nat) : WideReg where
  data := fillVector (Config.freeRegWord ctr) Config.cap []
  off := BitVec.ofNat 8 (freeOff ctr)
  len := BitVec.ofNat 8 (freeLen ctr)
  valid := false

/-- Invalidate the destination of a faulted command, if it has one (R214). -/
def State.invalidate (s : State) : Option WReg → State
  | none => s
  | some rd => s.setReg rd (WideReg.faulted s.freeCtr)

/-- TAKING A FAULT (R214): `STATE <- FAULTED`, `DONE <- 0`, `ERRINFO` and `ERRCODE` from the cause, the destination invalidated.
`rd` is the command's destination in use, `none` where decode failed or the command has none. -/
def State.raiseFault (s : State) (cause : Cause) (rd : Option WReg) : State :=
  { (s.invalidate rd).releaseHidden with
    engine := .faulted, done := false, errcode := cause.errClass.number, errinfo := cause.number }

/-- LEAVING THE FAULTED STATE (R32, R215): in FAULTED, `STATE <- IDLE`, `ERRCODE <- 0`, `ERRINFO <- 0`; else no effect. -/
def State.acknowledge (s : State) : State :=
  match s.engine with
  | .faulted => { s with engine := .idle, errcode := 0, errinfo := 0 }
  | .idle => s
  | .busy => s

/-! ### Running a command -/

/-- The first check that applies (R218). -/
def firstFault : List (Bool × Cause) → Option Cause
  | [] => none
  | (applies, c) :: rest => if applies then some c else firstFault rest

/-- A command whose checks are made in order before anything is written (R218): the first that applies faults, else the effect takes
place and the command completes. -/
def State.command (s : State) (rd : Option WReg) (checks : List (Bool × Cause)) (effect : State) : State :=
  match firstFault checks with
  | some c => s.raiseFault c rd
  | none => effect.complete

/-- A write of `CMD` in IDLE: `CMDREG <- value`, `STATE <- BUSY`, `DONE <- 0` (R27). -/
def State.startCommand (s : State) (v : Word) : State := { s with cmdreg := v, engine := .busy, done := false }

/-- `Reset` (R240, R241): every piece of state at its reset value, in any state. Hidden storage is not promised to be cleared (R241,
U3): free. The model's own event list and last read word are not BNE's and stay. -/
def State.applyReset (s : State) : State :=
  { State.reset with
    hidden := freeHidden s.freeCtr 0, freeCtr := s.freeCtr + 1, readData := s.readData, events := s.events }

end Sys2Proof.Machine
end

