-- ==== Sys2Proof/Machine/Flags.lean ====
section
/-! DEFINITION. Every flag computation of the spec: `FLAGS.CMP` from a comparison (spec/41_wordarray.md R121), `FLAGS.C` from a sum
(R123) and from a difference (R124), and the `FLAGS` register's value (spec/10_state.md R28). -/

namespace Sys2Proof.Machine

open Sys2Proof

/-- `FLAGS.CMP` for a comparison: 00 equal, 01 greater, 11 less (R28, R121). -/
def cmpFlag : Ordering → BitVec 2
  | .eq => 0b00
  | .gt => 0b01
  | .lt => 0b11

/-- The carry out of the most-significant word of `val(a) + val(b)` in `l` words (R123). -/
def carryOut (a b : List Word) (l : Nat) : Bool := decide ((val a + val b) / base ^ l = 1)

/-- The sum in `l` words (R123). -/
def sumArray (a b : List Word) (l : Nat) : List Word := words ((val a + val b) % base ^ l) l

/-- The borrow out of the most-significant word of `val(a) - val(b)` (R124). -/
def borrowOut (a b : List Word) : Bool := decide (val a < val b)

/-- The difference in `l` words, wrapped when it borrows (R124). -/
def differenceArray (a b : List Word) (l : Nat) : List Word :=
  if val b ≤ val a then words (val a - val b) l else words (val a + base ^ l - val b) l

/-- The `FLAGS` register as the host reads it: CMP in bits 1:0, C in bit 2 (R28). -/
def FlagBits.value (f : FlagBits) : Word := BitVec.ofNat 32 (f.cmp.toNat + if f.c then 4 else 0)

end Sys2Proof.Machine
end

