-- ==== Sys2Proof/Machine/Memory.lean ====
section
/-! DEFINITION. The I/O buffer as a canonical list of cells: reading and writing one byte, a run of bytes, and a big-endian 32-bit
word (spec/10_state.md R36, spec/20_memory.md R52, R64, R65). -/

namespace Sys2Proof.Machine

open Sys2Proof

/-- What an unlisted index reads as: the I/O buffer resets to zero (R36, R39). -/
def blankByte : Byte := 0

/-- The byte at index `j`. -/
def Memory.read : Memory → Nat → Byte
  | [], _ => blankByte
  | (k, b) :: rest, j => if k = j then b else if j < k then blankByte else Memory.read rest j

/-- Store byte `b` at index `j`, keeping the canonical form: storing the blank byte removes the entry. -/
def Memory.write : Memory → Nat → Byte → Memory
  | [], j, b => if b = blankByte then [] else [(j, b)]
  | (k, c) :: rest, j, b =>
    if j < k then (if b = blankByte then (k, c) :: rest else (j, b) :: (k, c) :: rest)
    else if j = k then (if b = blankByte then rest else (j, b) :: rest)
    else (k, c) :: Memory.write rest j b

/-- Store a run of bytes from index `j` up. -/
def Memory.writeBytes : Memory → Nat → List Byte → Memory
  | m, _, [] => m
  | m, j, b :: bs => Memory.writeBytes (m.write j b) (j + 1) bs

/-- The `n` bytes from index `j` up. -/
def Memory.readBytes (m : Memory) (j : Nat) : Nat → List Byte
  | 0 => []
  | n + 1 => m.read j :: m.readBytes (j + 1) n

/-- `MemRead(IOB, j, 4)`: the byte at the lower index is the more significant (R65). -/
def Memory.readWord (m : Memory) (j : Nat) : Word :=
  m.read j ++ m.read (j + 1) ++ m.read (j + 2) ++ m.read (j + 3)

/-- `MemWrite(IOB, j, 4, v)` (R65). -/
def Memory.writeWord (m : Memory) (j : Nat) (v : Word) : Memory :=
  m.writeBytes j [v.extractLsb' 24 8, v.extractLsb' 16 8, v.extractLsb' 8 8, v.extractLsb' 0 8]

/-- Every index is at least `lo` and below the buffer's size, indices rise strictly, and no entry holds the blank byte. -/
def Memory.wfFrom : Nat → Memory → Bool
  | _, [] => true
  | lo, (k, b) :: rest =>
    decide (lo ≤ k) && decide (k < Config.iobBytes) && (b != blankByte) && Memory.wfFrom (k + 1) rest

/-- The canonical form of the I/O buffer's list. -/
def Memory.wf (m : Memory) : Bool := Memory.wfFrom 0 m

end Sys2Proof.Machine
end

