-- ==== Sys2Proof/Machine/Operands.lean ====
section
/-! DEFINITION. The operand forms of the commands: a source view with its validity check (spec/60_exceptions.md R213), the immediate as
a shift amount or a byte count (spec/30_encoding.md R84), the context's modulus (spec/43_montgomery.md R170), the conditions the
commands' own checks test. -/

namespace Sys2Proof.Machine

open Sys2Proof

/-- R213: some register the command reads as a source is invalid. -/
def State.someInvalid (s : State) (sources : List WReg) : Bool := sources.any fun r => !(s.reg r).valid

/-- The source-validity check, the first check of every command with a source (R213, R218 stage 4). -/
def State.sourceCheck (s : State) (sources : List WReg) : Bool × Cause := (s.someInvalid sources, .srcInvalid)

/-- The byte string `IOB[0 .. n-1]` that LDB reads (R102). -/
def State.byteString (s : State) (n : Nat) : List Byte := Memory.readBytes s.iob 0 n

/-- `W[rs2].LEN` as STB's width in words (R104). -/
def State.widthWords (s : State) (r : WReg) : Nat := (s.reg r).len.toNat

/-- The context's modulus array `N` (R170). -/
def State.modulus (s : State) : List Word := s.ctx.modulus

/-- `CTX.MLEN` (R170 `m`). -/
def State.mlen (s : State) : Nat := s.ctx.mlen.toNat

/-- The context check of MTO, MMUL, MSQR, MRED (R33, R173, R177 to R179). -/
def State.ctxCheck (s : State) : Bool × Cause := (!s.ctx.mvalid, .ctxInvalid)

/-- The context length does not bound the operand's length: an operand of MMUL or MSQR longer than `m` words, of MRED longer than
`2 m` (R170, R177 to R179). -/
def tooLong (a : List Word) (limit : Nat) : Bool × Cause := (decide (limit < a.length), .operandTooLong)

/-- The shifted base does not fit the divider's buffer: `siglen(a) + m + 1 > CAP` (R173, R192). -/
def baseTooLong (a : List Word) (m : Nat) : Bool × Cause := (decide (Config.cap < siglen a + m + 1), .capacity)

/-- A result of `l` words does not fit a wide register (R126, R132, R134). -/
def overCapacity (l : Nat) : Bool × Cause := (decide (Config.cap < l), .capacity)

end Sys2Proof.Machine
end

