-- ==== Sys2Proof/Machine/Arrays.lean ====
section
/-! DEFINITION. The word-array commands CMP, ADD, SUB, SHL, SHR, NORM, MUL, SQR (spec/41_wordarray.md R120 to R135). -/

namespace Sys2Proof.Machine

open Sys2Proof

/-- CMP: the comparison of two views to `FLAGS.CMP` (R121). -/
def execCmp (rs1 rs2 : WReg) (s : State) : Host.Outcome State Fault Refusal :=
  .next (s.command none [s.sourceCheck [rs1, rs2]] (s.setCmp (cmpFlag (compareArrays (s.view rs1) (s.view rs2)))))

/-- ADD: the sum of two views of equal length in that length, its carry to `FLAGS.C` (R123). -/
def execAdd (rd rs1 rs2 : WReg) (s : State) : Host.Outcome State Fault Refusal :=
  let a := s.view rs1
  let b := s.view rs2
  .next (s.command (some rd) [s.sourceCheck [rs1, rs2], (a.length != b.length, .lenMismatch)]
    ((s.writeReg rd (sumArray a b a.length)).setCarry (carryOut a b a.length)))

/-- SUB: the difference of two views of equal length in that length, its borrow to `FLAGS.C` (R124). -/
def execSub (rd rs1 rs2 : WReg) (s : State) : Host.Outcome State Fault Refusal :=
  let a := s.view rs1
  let b := s.view rs2
  .next (s.command (some rd) [s.sourceCheck [rs1, rs2], (a.length != b.length, .lenMismatch)]
    ((s.writeReg rd (differenceArray a b a.length)).setCarry (borrowOut a b)))

/-- SHL: the value times `2^n`, in the length R126 gives. -/
def execShl (rd rs1 : WReg) (n : Nat) (s : State) : Host.Outcome State Fault Refusal :=
  let a := s.view rs1
  .next (s.command (some rd) [s.sourceCheck [rs1], overCapacity (shlLength a n)] (s.writeReg rd (shlArray a n)))

/-- SHR: the value divided by `2^n`, in the length R128 gives. -/
def execShr (rd rs1 : WReg) (n : Nat) (s : State) : Host.Outcome State Fault Refusal :=
  .next (s.command (some rd) [s.sourceCheck [rs1]] (s.writeReg rd (shrArray (s.view rs1) n)))

/-- A register whose view has lost its leading zero words, in place; an all-zero view goes to offset 0 (R130). -/
def WideReg.dropLeadingZeros (r : WideReg) : WideReg :=
  let k := r.view.length - siglen r.view
  if r.len.toNat - k = 0 then { r with off := 0, len := 0 }
  else { r with off := BitVec.ofNat 8 (r.off.toNat + k), len := BitVec.ofNat 8 (r.len.toNat - k) }

/-- NORM: leading zero words dropped by moving `OFF` and `LEN`; `DATA` and `VALID` stay (R130). -/
def execNorm (rd : WReg) (s : State) : Host.Outcome State Fault Refusal :=
  .next (s.command (some rd) [s.sourceCheck [rd]] (s.setReg rd (s.reg rd).dropLeadingZeros))

/-- MUL: the product in `La + Lb` words, empty where an operand is empty (R132). -/
def execMul (rd rs1 rs2 : WReg) (s : State) : Host.Outcome State Fault Refusal :=
  let a := s.view rs1
  let b := s.view rs2
  let l := if a.length = 0 ∨ b.length = 0 then 0 else a.length + b.length
  .next (s.command (some rd) [s.sourceCheck [rs1, rs2], overCapacity l] (s.writeReg rd (words (val a * val b) l)))

/-- SQR: the square in `2 La` words (R134). -/
def execSqr (rd rs1 : WReg) (s : State) : Host.Outcome State Fault Refusal :=
  let a := s.view rs1
  .next (s.command (some rd) [s.sourceCheck [rs1], overCapacity (2 * a.length)]
    (s.writeReg rd (words (val a ^ 2) (2 * a.length))))

end Sys2Proof.Machine
end

