-- ==== Sys2Proof/Machine/Divide.lean ====
section
/-! DEFINITION. REM (spec/42_divide.md R150), by the value R159 gives the divide policy. The policy itself, Algorithm D included, is
in `Machine/Divider.lean`. -/

namespace Sys2Proof.Machine

open Sys2Proof

/-- `Rem(a, b)` by its value: `a mod b`, normalized (R150, R159). -/
def remArray (a b : List Word) : List Word := norm (words (val a % val b) b.length)

/-- REM: the remainder of two normalized views, no quotient (R150). An empty divisor is tested before the operands' form (R151). -/
def execRem (rd rs1 rs2 : WReg) (s : State) : Host.Outcome State Fault Refusal :=
  let a := s.view rs1
  let b := s.view rs2
  .next (s.command (some rd)
    [s.sourceCheck [rs1, rs2], (decide (b.length = 0), .divisorEmpty),
     (!isNormalized a || !isNormalized b, .notNormalized)]
    (s.writeReg rd (remArray a b)))

end Sys2Proof.Machine
end

