-- ==== Sys2Proof/Machine/Montgomery.lean ====
section
/-! DEFINITION. The Montgomery commands MSETUP, MTO, MMUL, MSQR, MRED (spec/43_montgomery.md R170 to R179). -/

namespace Sys2Proof.Machine

open Sys2Proof

/-- The least-significant word of a modulus is even (R172, R191). -/
def lowWordEven (n : List Word) : Bool := decide ((lowWord n).toNat % 2 = 0)

/-- MSETUP: load the context with a modulus of 1 to 64 words, normalized and odd (R172). There is no destination register. -/
def execMsetup (rs1 : WReg) (s : State) : Host.Outcome State Fault Refusal :=
  let n := s.view rs1
  .next (s.command none
    [s.sourceCheck [rs1], (!isNormalized n, .notNormalized),
     (decide (n.length = 0) || decide (Config.maxW < n.length), .modLen), (lowWordEven n, .modEven)]
    (s.loadCtx n))

/-- MTO: `val(a) × R mod N` in `m` words (R173). -/
def execMto (rd rs1 : WReg) (s : State) : Host.Outcome State Fault Refusal :=
  let a := s.view rs1
  .next (s.command (some rd) [s.sourceCheck [rs1], s.ctxCheck, baseTooLong a s.mlen]
    (s.writeReg rd (montForm s.modulus (val a))))

/-- MMUL: `MontRed` of the product (R177). -/
def execMmul (rd rs1 rs2 : WReg) (s : State) : Host.Outcome State Fault Refusal :=
  let a := s.view rs1
  let b := s.view rs2
  .next (s.command (some rd) [s.sourceCheck [rs1, rs2], s.ctxCheck, tooLong a s.mlen, tooLong b s.mlen]
    (s.writeReg rd (montRed s.modulus s.ctx.ninv (val a * val b))))

/-- MSQR: `MontRed` of the square (R178). -/
def execMsqr (rd rs1 : WReg) (s : State) : Host.Outcome State Fault Refusal :=
  let a := s.view rs1
  .next (s.command (some rd) [s.sourceCheck [rs1], s.ctxCheck, tooLong a s.mlen]
    (s.writeReg rd (montRed s.modulus s.ctx.ninv (val a ^ 2))))

/-- MRED: `MontRed` of a view of at most `2 m` words (R179). -/
def execMred (rd rs1 : WReg) (s : State) : Host.Outcome State Fault Refusal :=
  let a := s.view rs1
  .next (s.command (some rd) [s.sourceCheck [rs1], s.ctxCheck, tooLong a (2 * s.mlen)]
    (s.writeReg rd (montRed s.modulus s.ctx.ninv (val a))))

end Sys2Proof.Machine
end

