-- ==== Sys2Proof/Machine/Exponent.lean ====
section
/-! DEFINITION. MODPOW (spec/44_modpow.md R190 to R199), by the value R199 gives the windowed exponentiation; the checks, the
exponent-1 copy, the context write and the capacity and table checks stand in the order of R190. The scan itself is in
`Machine/Window.lean`. -/

namespace Sys2Proof.Machine

open Sys2Proof

/-- The key guard, in the order of R191; the source check comes first (R190). -/
def State.keyGuard (s : State) (rs1 rs2 rs3 : WReg) : List (Bool × Cause) :=
  let e := s.view rs2
  let n := s.view rs3
  [s.sourceCheck [rs1, rs2, rs3],
   (!Config.keyWords.contains n.length || !isNormalized n, .modLen),
   (lowWordEven n, .modEven),
   (decide (siglen e = 0), .expZero),
   (!isNormalized e, .notNormalized),
   (decide (compareArrays e n ≠ .lt), .expGeMod)]

/-- The window width for an exponent of `ebits` bits: one more than the number of thresholds below it (R193). -/
def windowOfBits (ebits : Nat) : Nat := 1 + (Config.thresholds.filter fun th => decide (th < ebits)).length

/-- The window width for an exponent (R193), with the exception of 65537 (R194). -/
def windowWidth (e : Nat) : Nat := if e = 65537 then 1 else windowOfBits (bitlen e)

/-- The number of power-table entries for a window of `w` bits: the odd powers below `2^w` (R195). -/
def tableEntries (w : Nat) : Nat := 2 ^ (w - 1)

/-- The claim of the power table fails (R195). -/
def tableCheck (slots : Nat) (e : List Word) : Bool × Cause :=
  (decide (slots < tableEntries (windowWidth (val e))), .tableAlloc)

/-- MODPOW's value: `b^e mod n`, normalized (R190, R199). -/
def powArray (b e n : List Word) : List Word := norm (words (powMod (val b) (val e) (val n)) n.length)

/-- MODPOW on an engine with `slots` power-table entries (R190). The context is written after the key guard and the exponent-1 exit
and before the capacity and table checks (R192). -/
def State.modpowWith (slots : Nat) (rd rs1 rs2 rs3 : WReg) (s : State) : State :=
  let b := s.view rs1
  let e := s.view rs2
  let n := s.view rs3
  match firstFault (s.keyGuard rs1 rs2 rs3) with
  | some c => s.raiseFault c (some rd)
  | none =>
    if e = [1] then (s.writeReg rd b).complete
    else
      (s.loadCtx n).command (some rd) [baseTooLong b n.length, tableCheck slots e]
        ((s.loadCtx n).writeReg rd (powArray b e n))

/-- MODPOW on the hardware's engine (R8, R190, log 9). -/
def execModpow (rd rs1 rs2 rs3 : WReg) (s : State) : Host.Outcome State Fault Refusal :=
  .next (s.modpowWith Config.tblSlots rd rs1 rs2 rs3)

end Sys2Proof.Machine
end

