-- ==== Sys2Proof/Machine/Moves.lean ====
section
/-! DEFINITION. NOP, MOV, LDB, STB (spec/40_convert.md R100 to R105). -/

namespace Sys2Proof.Machine

open Sys2Proof

/-- NOP: no effect but the engine's step (R100). -/
def execNop (s : State) : Host.Outcome State Fault Refusal := .next s.complete

/-- MOV: the exact copy of a view to offset 0 (R101). -/
def execMov (rd rs1 : WReg) (s : State) : Host.Outcome State Fault Refusal :=
  .next (s.command (some rd) [s.sourceCheck [rs1]] (s.writeReg rd (s.view rs1)))

/-- LDB: the first `n` bytes of `IOB` as a normalized word array (R102). -/
def execLdb (rd : WReg) (n : Nat) (s : State) : Host.Outcome State Fault Refusal :=
  .next (s.command (some rd) [(decide (Config.iobBytes < n), .iobRange)]
    (s.writeReg rd (bytesToWords (s.byteString n))))

/-- What STB leaves in `IOB` after WIDTH: bytes `0 .. 4 wd - 1` unspecified (R104, U2, log 4). -/
def State.scrambleIob (s : State) (wd : Nat) : State :=
  s.setIob (Memory.writeBytes s.iob 0 ((List.range (4 * wd)).map (Config.freeIobByte s.freeCtr)))

/-- STB: the value of `rs1` as `4 × LEN(rs2)` big-endian bytes from `IOB[0]` (R104). WIDTH leaves those bytes unspecified and there is
no destination register. The stop is for a width past the buffer's end, which needs `LEN > 136` (log 11). -/
def execStb (rs1 rs2 : WReg) (s : State) : Host.Outcome State Fault Refusal :=
  let a := s.view rs1
  let wd := s.widthWords rs2
  if s.someInvalid [rs1, rs2] then .next (s.raiseFault .srcInvalid none)
  else if wd < siglen a then .next ((s.scrambleIob wd).raiseFault .width none)
  else if Config.iobBytes < 4 * wd then .fault .iobOutOfRange
  else .next (s.setIob (Memory.writeBytes s.iob 0 (wordsToBytes a wd))).complete

end Sys2Proof.Machine
end

