-- ==== Sys2Proof/Machine/Dispatch.lean ====
section
/-! DEFINITION. The dispatch of the 19 commands to their meanings, one arm per row of the opcode table (spec/30_encoding.md R85). -/

namespace Sys2Proof.Machine

open Sys2Proof

def exec (i : Instr) (s : State) : Host.Outcome State Fault Refusal :=
  match i with
  | .nop => Sys2Proof.Machine.execNop s
  | .mov rd rs1 => Sys2Proof.Machine.execMov rd rs1 s
  | .ldb rd imm => Sys2Proof.Machine.execLdb rd imm s
  | .stb rs1 rs2 => Sys2Proof.Machine.execStb rs1 rs2 s
  | .cmp rs1 rs2 => Sys2Proof.Machine.execCmp rs1 rs2 s
  | .add rd rs1 rs2 => Sys2Proof.Machine.execAdd rd rs1 rs2 s
  | .sub rd rs1 rs2 => Sys2Proof.Machine.execSub rd rs1 rs2 s
  | .shl rd rs1 imm => Sys2Proof.Machine.execShl rd rs1 imm s
  | .shr rd rs1 imm => Sys2Proof.Machine.execShr rd rs1 imm s
  | .norm rd => Sys2Proof.Machine.execNorm rd s
  | .mul rd rs1 rs2 => Sys2Proof.Machine.execMul rd rs1 rs2 s
  | .sqr rd rs1 => Sys2Proof.Machine.execSqr rd rs1 s
  | .rem rd rs1 rs2 => Sys2Proof.Machine.execRem rd rs1 rs2 s
  | .msetup rs1 => Sys2Proof.Machine.execMsetup rs1 s
  | .mto rd rs1 => Sys2Proof.Machine.execMto rd rs1 s
  | .mmul rd rs1 rs2 => Sys2Proof.Machine.execMmul rd rs1 rs2 s
  | .msqr rd rs1 => Sys2Proof.Machine.execMsqr rd rs1 s
  | .mred rd rs1 => Sys2Proof.Machine.execMred rd rs1 s
  | .modpow rd rs1 rs2 rs3 => Sys2Proof.Machine.execModpow rd rs1 rs2 rs3 s

end Sys2Proof.Machine
end

