-- ==== Sys2Proof/Machine/HostPort.lean ====
section
/-! DEFINITION. The host's side of BNE: the register map (spec/20_memory.md R60), the access rules (R61 to R67) and what the host reads
and writes (spec/10_state.md R27, R30 to R36). -/

namespace Sys2Proof.Machine

open Sys2Proof

/-- What a host address names (R60). -/
inductive HostReg where
  | cmd
  | status
  | errcode
  | errinfo
  | ctrl
  | flags
  | ctxStat
  | ctxNinvLo
  | ctxNinvHi
  | desc (i : WReg)
  | data (i : WReg) (k : Fin Config.cap)
  | iob (j : Nat)
deriving DecidableEq, Repr

/-- The control registers at 0x0000 .. 0x0020 (R60). -/
def controlReg : Nat → Option HostReg
  | 0x00 => some .cmd
  | 0x04 => some .status
  | 0x08 => some .errcode
  | 0x0C => some .errinfo
  | 0x10 => some .ctrl
  | 0x14 => some .flags
  | 0x18 => some .ctxStat
  | 0x1C => some .ctxNinvLo
  | 0x20 => some .ctxNinvHi
  | _ => none

/-- The descriptor registers at `0x0040 + 4 i` (R60). -/
def descReg (a : Nat) : Option HostReg :=
  if 0x40 ≤ a ∧ a < 0x60 ∧ a % 4 = 0 then some (.desc (Fin.ofNat 8 ((a - 0x40) / 4))) else none

/-- The data windows at `0x1000 (i + 1) + 4 k`, `k` in 0 .. 135 (R60). -/
def dataReg (a : Nat) : Option HostReg :=
  if 0x1000 ≤ a ∧ a < 0x9000 ∧ a % 4 = 0 ∧ a % 0x1000 / 4 < Config.cap then
    some (.data (Fin.ofNat 8 (a / 0x1000 - 1)) (Fin.ofNat Config.cap (a % 0x1000 / 4)))
  else none

/-- The I/O buffer window at `0x9000 + j`, `j` in 0 .. 543 (R60). -/
def iobReg (a : Nat) : Option HostReg :=
  if 0x9000 ≤ a ∧ a < 0x9000 + Config.iobBytes then some (.iob (a - 0x9000)) else none

/-- What a byte address names, if anything: 32-bit registers at multiples of 4 only (R60, R63, R67). -/
def hostReg (addr : BitVec 16) : Option HostReg :=
  (controlReg addr.toNat).or ((descReg addr.toNat).or ((dataReg addr.toNat).or (iobReg addr.toNat)))

/-- What an access of a width at an address reaches, if R63 allows the width and the alignment there. -/
def reach (width : AccessWidth) (addr : BitVec 16) : Option HostReg :=
  match width, hostReg addr with
  | .w32, some (.iob j) => if j % 4 = 0 then some (.iob j) else none
  | .w32, r => r
  | .w8, some (.iob j) => some (.iob j)
  | .w8, _ => none
  | .w16, _ => none

/-- A bit as a number. -/
def bitNat (b : Bool) : Nat := if b then 1 else 0

/-- The `STATUS` register: BUSY 0, FAULT 1, DONE 2, BUSERR 3 (R30). -/
def State.status (s : State) : Word :=
  BitVec.ofNat 32 (bitNat (s.engine == .busy) + 2 * bitNat (s.engine == .faulted) + 4 * bitNat s.done + 8 * bitNat s.buserr)

/-- `W_DESC[i]`: LEN 7:0, OFF 15:8, VALID 31 (R35). -/
def WideReg.desc (r : WideReg) : Word :=
  BitVec.ofNat 32 (r.len.toNat + 2 ^ 8 * r.off.toNat + 2 ^ 31 * bitNat r.valid)

/-- `CTX_STAT`: MLEN 7:0, MVALID 31 (R34). -/
def MontCtx.stat (c : MontCtx) : Word := BitVec.ofNat 32 (c.mlen.toNat + 2 ^ 31 * bitNat c.mvalid)

/-- The value of a register as the host reads it; `CMD` and `CTRL` read as zero (R27, R30 to R36, R61, R64, R65). -/
def State.readValue (s : State) (width : AccessWidth) : HostReg → Word
  | .cmd => 0
  | .status => s.status
  | .errcode => s.errcode.setWidth 32
  | .errinfo => s.errinfo.setWidth 32
  | .ctrl => 0
  | .flags => s.flags.value
  | .ctxStat => s.ctx.stat
  | .ctxNinvLo => s.ctx.ninv.extractLsb' 0 32
  | .ctxNinvHi => s.ctx.ninv.extractLsb' 32 32
  | .desc i => (s.reg i).desc
  | .data i k => (s.reg i).data[k]
  | .iob j =>
    match width with
    | .w8 => (Memory.read s.iob j).setWidth 32
    | .w16 => 0
    | .w32 => Memory.readWord s.iob j

/-- A host read: the value, or `none` where it is refused (R66: while BUSY only `STATUS` can be read). -/
def State.hostRead (s : State) (width : AccessWidth) (addr : BitVec 16) : Option Word :=
  match reach width addr with
  | none => none
  | some r => if s.engine = .busy ∧ r ≠ .status then none else some (s.readValue width r)

/-- A write of `CTRL`: bit 0 acknowledges a fault, bit 1 clears `BUSERR` (R32). -/
def State.writeCtrl (s : State) (v : Word) : State :=
  let s := if v.getLsbD 0 then s.acknowledge else s
  if v.getLsbD 1 then { s with buserr := false } else s

/-- A write of `W_DESC[i]` with `OFF + LEN ≤ CAP` sets the view and `VALID`; any other is refused (R35, R66). -/
def State.writeDesc (s : State) (i : WReg) (v : Word) : Option State :=
  let len := v.extractLsb' 0 8
  let off := v.extractLsb' 8 8
  if off.toNat + len.toNat ≤ Config.cap then some (s.setReg i { s.reg i with off := off, len := len, valid := true })
  else none

/-- A write of `W_DATA[i][k]` changes that word only (R35). -/
def State.writeData (s : State) (i : WReg) (k : Fin Config.cap) (v : Word) : State :=
  s.setReg i { s.reg i with data := (s.reg i).data.set k v }

/-- A write of the I/O buffer window, of one byte or of four (R64, R65). -/
def State.writeIob (s : State) (width : AccessWidth) (j : Nat) (v : Word) : State :=
  match width with
  | .w8 => s.setIob (Memory.write s.iob j (v.extractLsb' 0 8))
  | .w16 => s
  | .w32 => s.setIob (Memory.writeWord s.iob j v)

/-- An accepted write of a register, or `none` where the register is read-only or its state refuses the write (R62, R66). -/
def State.writeReached (s : State) (width : AccessWidth) (v : Word) : HostReg → Option State
  | .cmd => if s.engine = .idle then some (s.startCommand v) else none
  | .status => none
  | .errcode => none
  | .errinfo => none
  | .ctrl => some (s.writeCtrl v)
  | .flags => none
  | .ctxStat => none
  | .ctxNinvLo => none
  | .ctxNinvHi => none
  | .desc i => s.writeDesc i v
  | .data i k => some (s.writeData i k v)
  | .iob j => some (s.writeIob width j v)

/-- A host write: the state after it, or `none` where it is refused (R66: while BUSY every write is). -/
def State.hostWrite (s : State) (width : AccessWidth) (addr : BitVec 16) (v : Word) : Option State :=
  match reach width addr with
  | none => none
  | some r => if s.engine = .busy then none else s.writeReached width v r

/-- A read as the host sees it: a refused one returns 0 and sets `BUSERR` (R66). -/
def State.readTurn (s : State) (width : AccessWidth) (addr : BitVec 16) : State :=
  match s.hostRead width addr with
  | some x => { s with readData := x }
  | none => { s with readData := 0, buserr := true }

/-- A write as the host sees it: a refused one sets `BUSERR` and nothing else (R66). -/
def State.writeTurn (s : State) (width : AccessWidth) (addr : BitVec 16) (v : Word) : State :=
  match s.hostWrite width addr v with
  | some t => t
  | none => { s with buserr := true }

end Sys2Proof.Machine
end

