-- ==== Sys2Proof/Machine/Engine.lean ====
section
/-! DEFINITION. The engine's one step (spec/10_state.md R29): decode `CMDREG`, run the command or take the decode fault
(spec/30_encoding.md R86); and one turn of the order of host accesses, engine steps and resets (spec/20_memory.md R70). -/

namespace Sys2Proof.Machine

open Sys2Proof

/-- The command word the engine runs next (R27). -/
def State.fetchWord (s : State) : Word := s.cmdreg

/-- The engine's step on a latched command (R29, R86): an undecodable word faults and has no destination (R214). -/
def State.runCommand (s : State) : Host.Outcome State Fault Refusal :=
  match decode s.fetchWord with
  | .ok i => exec i s
  | .error e => .next (s.raiseFault (decodeCause e) none)

/-- The engine's turn: it has a step exactly when `STATE` = BUSY (R29); else it does nothing (R230). -/
def State.engineTurn (s : State) : Host.Outcome State Fault Refusal :=
  match s.engine with
  | .busy => s.runCommand
  | .idle => .next s
  | .faulted => .next s

/-- One turn of the total order (R70): the head of the event list moves, and when the list is empty the engine does. -/
def State.turn (s : State) : Host.Outcome State Fault Refusal :=
  match s.events with
  | [] => s.engineTurn
  | .engine :: rest => State.engineTurn { s with events := rest }
  | .read width addr :: rest => .next (State.readTurn { s with events := rest } width addr)
  | .write width addr v :: rest => .next (State.writeTurn { s with events := rest } width addr v)
  | .reset :: rest => .next (State.applyReset { s with events := rest })

end Sys2Proof.Machine
end

