-- ==== Sys2Proof/Machine/Step.lean ====
section
/-! DEFINITION. One step of BNE: one turn of the total order of host accesses, engine steps and resets (spec/20_memory.md R70), and the
state in which the next step runs a given command word. -/

namespace Sys2Proof.Machine

open Sys2Proof

/-- One step (R29, R70). -/
def step (s : State) : Host.Outcome State Fault Refusal := s.turn

/-- `s` with the word `w` of `nbits` bits latched in `CMDREG` and the engine BUSY, as an accepted write of `CMD` leaves it (R27), and
nothing due before the engine's step (log 1). -/
def State.withFetchWord (s : State) (nbits w : Nat) : State :=
  { s.startCommand (BitVec.ofNat 32 (w % 2 ^ nbits)) with events := [] }

end Sys2Proof.Machine
end

