-- ==== Sys2Proof/Machine/Units.lean ====
section
/-! DEFINITION. The word-level units below the commands: the adder and the subtractor (spec/41_wordarray.md R123, R124, word by word),
the shift primitives (R127, R129), the schoolbook multiplier (R133) and the squarer (R135). A command's meaning writes the value the
spec states; these are the algorithms the hardware reaches it by (spec/00_scope.md R16). Word-serial loops run on arrays reversed to
least-significant word first. -/

namespace Sys2Proof.Machine

open Sys2Proof

/-- A word from a number, modulo `2^32`. -/
abbrev toWord (v : Nat) : Word := BitVec.ofNat 32 v

/-! ### Adder and subtractor -/

/-- The adder's loop, least-significant word first: `t = a⟨k⟩ + b⟨k⟩ + carry` (R123). -/
def addLoop : List Word → List Word → Nat → List Word × Nat
  | x :: xs, y :: ys, carry =>
    let t := x.toNat + y.toNat + carry
    let r := addLoop xs ys (t / base)
    (toWord t :: r.1, r.2)
  | _, _, carry => ([], carry)

/-- The adder on two arrays of equal length: the sum's words and the carry out (R123). -/
def adder (a b : List Word) : List Word × Nat :=
  let r := addLoop a.reverse b.reverse 0
  (r.1.reverse, r.2)

/-- The subtractor's loop, least-significant word first: `t = a⟨k⟩ - b⟨k⟩ - borrow` (R124). -/
def subLoop : List Word → List Word → Nat → List Word × Nat
  | x :: xs, y :: ys, borrow =>
    let t : Int := x.toNat - y.toNat - borrow
    let r := subLoop xs ys (if t < 0 then 1 else 0)
    (toWord (t % base).toNat :: r.1, r.2)
  | _, _, borrow => ([], borrow)

/-- The subtractor on two arrays of equal length: the difference's words and the borrow out (R124). -/
def subtractor (a b : List Word) : List Word × Nat :=
  let r := subLoop a.reverse b.reverse 0
  (r.1.reverse, r.2)

/-! ### Shifter -/

/-- The left primitive step by `r` bits within the length of the array (R127): output word `i` from words `i` and `i + 1`. -/
def shlStep (r : Nat) : List Word → List Word
  | [] => []
  | [x] => [toWord (x.toNat * 2 ^ r)]
  | x :: y :: rest => toWord (x.toNat * 2 ^ r % base + y.toNat / 2 ^ (32 - r)) :: shlStep r (y :: rest)

/-- The left primitive step with the word pushed out of the top put in front when it is nonzero (R127). -/
def shlPrimitive (r : Nat) (a : List Word) : List Word :=
  if r = 0 then a
  else
    let out := (topWord a).toNat / 2 ^ (32 - r)
    if out = 0 then shlStep r a else toWord out :: shlStep r a

/-- SHL as R125 composes it: the primitive step, then `q` zero words at the least-significant end (R127). -/
def shifterLeft (a : List Word) (n : Nat) : List Word :=
  if a = [] then [] else shlPrimitive (n % 32) a ++ List.replicate (n / 32) 0

/-- The right primitive step by `r` bits, `prev` being the word before the array (R129): output word `i` from words `i - 1` and `i`. -/
def shrStep (r : Nat) (prev : Word) : List Word → List Word
  | [] => []
  | x :: rest => toWord (x.toNat / 2 ^ r + prev.toNat * 2 ^ (32 - r) % base) :: shrStep r x rest

/-- The right primitive step with an emptied top word removed (R129). -/
def shrPrimitive (r : Nat) (a : List Word) : List Word :=
  if r = 0 then a
  else if (topWord a).toNat / 2 ^ r = 0 then (shrStep r 0 a).drop 1 else shrStep r 0 a

/-- SHR as R125 composes it: the `q` least-significant words removed, then the primitive step (R129). -/
def shifterRight (a : List Word) (n : Nat) : List Word :=
  shrPrimitive (n % 32) (a.take (a.length - n / 32))

/-! ### Multiplier and squarer -/

/-- The inner loop of R133 on the words of `z` from `i` on: `s = z⟨i+j⟩ + a⟨i⟩ b⟨j⟩ + carry`, and the last carry stored at
`z⟨i+Lb⟩`. -/
def mulRow (x : Word) : List Word → List Word → Nat → List Word
  | y :: ys, z :: zs, carry =>
    let s := z.toNat + x.toNat * y.toNat + carry
    toWord s :: mulRow x ys zs (s / base)
  | _, _ :: zs, carry => toWord carry :: zs
  | _, [], _ => []

/-- The outer loop of R133: one row for each word of `a`, each starting one word further up. -/
def mulRows : List Word → List Word → List Word → List Word
  | x :: xs, b, z =>
    match mulRow x b z 0 with
    | z0 :: zs => z0 :: mulRows xs b zs
    | [] => []
  | [], _, z => z

/-- The schoolbook multiplier: the product in `La + Lb` words (R133). -/
def multiplier (a b : List Word) : List Word :=
  (mulRows a.reverse b.reverse (List.replicate (a.length + b.length) 0)).reverse

/-- The upper triangle of cross-products of an array, least-significant word first (R135, first sum). -/
def crossProducts : List Word → Nat
  | [] => 0
  | x :: xs => x.toNat * (val xs.reverse * base) + crossProducts xs * base ^ 2

/-- The diagonal of squares of an array, least-significant word first (R135, second sum). -/
def diagonal : List Word → Nat
  | [] => 0
  | x :: xs => x.toNat ^ 2 + diagonal xs * base ^ 2

/-- The squarer: the upper triangle doubled, plus the diagonal, in `2 La` words (R135). -/
def squarer (a : List Word) : List Word := words (2 * crossProducts a.reverse + diagonal a.reverse) (2 * a.length)

end Sys2Proof.Machine
end

