-- ==== Sys2Proof/Machine/Divider.lean ====
section
/-! DEFINITION. The divider's policy and Algorithm D, word by word (spec/42_divide.md R151 to R158). REM's meaning writes the value R159
gives it; this is how the hardware reaches that value. -/

namespace Sys2Proof.Machine

open Sys2Proof

/-! ### Step 3: a single-word divisor -/

/-- Word-by-word long division by one word, most-significant word first: the running remainder (R153). -/
def shortRemainder (d : Nat) : Nat → List Word → Nat
  | rem, [] => rem
  | rem, x :: xs => shortRemainder d ((rem * base + x.toNat) % d) xs

/-- The remainder by a single-word divisor, as at most one word (R153). -/
def remBySingle (a : List Word) (d : Word) : List Word :=
  let r := shortRemainder d.toNat 0 a
  if r = 0 then [] else [toWord r]

/-! ### Step 5: Algorithm D -/

/-- The downward corrections of the digit estimate: while the trial multiply against the next divisor word is too large and the
estimate's remainder fits a word (R156). Two rounds are enough, since the divisor's top bit is set (R156, log 21). -/
def correctDigit (vh vl nl : Nat) : Nat → Nat → Nat → Nat
  | 0, qhat, _ => qhat
  | fuel + 1, qhat, rhat =>
    if rhat < base ∧ rhat * base + nl < qhat * vl then correctDigit vh vl nl fuel (qhat - 1) (rhat + vh)
    else qhat

/-- The digit estimate from the top three remainder words and the top two divisor words, with the overflow sentinel (R156). -/
def estimateDigit (vh vl nh nm nl : Nat) : Nat :=
  if nh = vh then correctDigit vh vl nl 2 (base - 1) (nh + nm)
  else
    let q := (nh * base + nm) / vh
    if q = 0 then 0 else correctDigit vh vl nl 2 q ((nh * base + nm) % vh)

/-- Multiply-and-subtract, least-significant word first: the new window words and the borrow still to be taken from the window's top
word (R157). -/
def mulSubLoop (qhat : Nat) : List Word → List Word → Nat → List Word × Nat
  | v :: vs, r :: rs, borrow =>
    let p := qhat * v.toNat + borrow
    let t : Int := r.toNat - (p % base : Nat)
    let rest := mulSubLoop qhat vs rs (p / base + if t < 0 then 1 else 0)
    (toWord (t % base).toNat :: rest.1, rest.2)
  | _, _, borrow => ([], borrow)

/-- One quotient digit position on the remainder words from `r_j` on (R156, R157): the digit is estimated, subtracted, added back
once if it was one too large, and not kept; the window's top word is used up and dropped. -/
def divideRound (v : List Word) (r : List Word) : List Word :=
  match r with
  | [] => []
  | nh :: rest =>
    let qhat := estimateDigit (topWord v).toNat ((v.drop 1).headD 0).toNat nh.toNat (rest.headD 0).toNat ((rest.drop 1).headD 0).toNat
    if qhat = 0 then rest
    else
      let window := rest.take v.length
      let below := rest.drop v.length
      let m := mulSubLoop qhat v.reverse window.reverse 0
      let kept := if nh.toNat < m.2 then (adder m.1.reverse v).1 else m.1.reverse
      kept ++ below

/-- The rounds for `k` quotient digit positions, most-significant first (R156). -/
def divideRounds (v : List Word) : Nat → List Word → List Word
  | 0, r => r
  | k + 1, r => divideRounds v k (divideRound v r)

/-- Algorithm D: normalise, one round for each digit position, undo the normalisation (R155 to R158). -/
def algorithmD (a b : List Word) : List Word :=
  let s := clz32 (topWord b)
  let v := words (val b * 2 ^ s) b.length
  let r := words (val a * 2 ^ s) (a.length + 1)
  let left := divideRounds v (a.length - b.length + 1) r
  norm (words (val left / 2 ^ s) b.length)

/-! ### The policy -/

/-- The divide policy, steps 2 to 5 in EC's order, for a non-empty divisor (R152 to R155). Step 4 runs the whole policy again, one
level deep at most (R154), so `depth` 2 is enough. -/
def dividePolicyAt : Nat → List Word → List Word → List Word
  | 0, _, _ => []
  | depth + 1, a, b =>
    match compareArrays a b with
    | .lt => a
    | .eq => []
    | .gt =>
      if b.length = 1 then remBySingle a (topWord b)
      else
        let tz := min (ctz (val a)) (ctz (val b))
        if Config.pow2MinWords ≤ a.length ∧ Config.pow2MinWords ≤ b.length ∧ Config.pow2MinZeros ≤ tz then
          shlArray (dividePolicyAt depth (norm (words (val a / 2 ^ tz) a.length)) (norm (words (val b / 2 ^ tz) b.length))) tz
        else algorithmD a b

/-- `Rem(a, b)` as the divider computes it; `none` is step 1, the empty divisor (R151). -/
def dividePolicy (a b : List Word) : Option (List Word) :=
  if b.length = 0 then none else some (dividePolicyAt 2 a b)

end Sys2Proof.Machine
end

