-- ==== Sys2Proof/Machine/Reduction.lean ====
section
/-! DEFINITION. The Montgomery reduction word by word (spec/43_montgomery.md R174), on arrays least-significant word first. -/

namespace Sys2Proof.Machine

open Sys2Proof

/-- Carry propagation up the running value (R174). -/
def propagate : List Word → Nat → List Word
  | [], _ => []
  | t :: ts, carry =>
    if carry = 0 then t :: ts
    else
      let s := t.toNat + carry
      toWord s :: propagate ts (s / base)

/-- Multiply-accumulate of `q` against the modulus into the running value, then the carry propagated (R174). -/
def reduceRow (q : Nat) : List Word → List Word → Nat → List Word
  | n :: ns, t :: ts, carry =>
    let s := t.toNat + q * n.toNat + carry
    toWord s :: reduceRow q ns ts (s / base)
  | _, ts, carry => propagate ts carry

/-- One word position for each round: the multiplier from the current low word, the row, and the low word, now zero, left behind
(R174). -/
def reduceRounds (n : List Word) (ninv32 : Nat) : Nat → List Word → List Word
  | 0, t => t
  | k + 1, t =>
    let q := (t.headD 0).toNat * ninv32 % base
    reduceRounds n ninv32 k ((reduceRow q n t 0).drop 1)

/-- `MontRed(T)` word-serially, for a `2m`-word `T` (R174): `m` rounds over `T` with one carry word above it; the words left are `U`,
brought below the modulus. The repeated subtraction is the remainder it ends in (R176, log 16). -/
def montRedSerial (n : List Word) (ninv : DWord) (t : List Word) : List Word :=
  let m := n.length
  let left := reduceRounds n.reverse (ninv.toNat % base) m (t.reverse ++ [0])
  words (val left.reverse % val n) m

end Sys2Proof.Machine
end

