-- ==== Sys2Proof/Machine/Window.lean ====
section
/-! DEFINITION. The sliding-window exponentiation (spec/44_modpow.md R192, R195 to R197). MODPOW's meaning writes the value R199 gives
it; this is how the engine reaches that value. -/

namespace Sys2Proof.Machine

open Sys2Proof

/-- `MMul(x, y)` modulo `n` (R177). -/
def montMul (n : List Word) (ninv : DWord) (x y : List Word) : List Word := montRed n ninv (val x * val y)

/-- `MSqr(x)` (R178). -/
def montSqr (n : List Word) (ninv : DWord) (x : List Word) : List Word := montMul n ninv x x

/-- An odd power as it stands in its slot of `TBL_WIDTH` = `2 m` words: its `m` significant words, zeros above them (R195, R196,
log 23). -/
def tableSlot (m : Nat) (g : List Word) : List Word := words (val g) (Config.tblWidth m)

/-- The table entries from a first odd power on, each the one before times `g^2` (R196). -/
def fillTable (n : List Word) (ninv : DWord) (g2 : List Word) : Nat → List Word → List (List Word)
  | 0, _ => []
  | k + 1, g => tableSlot n.length g :: fillTable n ninv g2 k (montMul n ninv g g2)

/-- The power table of `entries` odd powers of `g`, each in its slot (R196). -/
def powerTable (n : List Word) (ninv : DWord) (g : List Word) (entries : Nat) : List (List Word) :=
  fillTable n ninv (montSqr n ninv g) entries g

/-- `k` squarings of the accumulator (R197). -/
def squareTimes (n : List Word) (ninv : DWord) : Nat → List Word → List Word
  | 0, acc => acc
  | k + 1, acc => squareTimes n ninv k (montSqr n ninv acc)

/-- The low end of a window from bit `l` up: trailing zero bits of the window dropped (R197). -/
def trimWindow (e : Nat) : Nat → Nat → Nat
  | 0, l => l
  | fuel + 1, l => if e.testBit l then l else trimWindow e fuel (l + 1)

/-- The scan of R197 with `i` bits of the exponent still to consume, most-significant first: a zero bit squares; a set bit starts a
window of at most `w` bits, trimmed to end at a set bit, squares once for each of its bits and multiplies once. -/
def scanFuel (n : List Word) (ninv : DWord) (table : List (List Word)) (e w : Nat) : Nat → Nat → List Word → List Word
  | 0, _, acc => acc
  | _ + 1, 0, acc => acc
  | fuel + 1, i + 1, acc =>
    if e.testBit i then
      let l := trimWindow e w (i + 1 - w)
      let k := e / 2 ^ l % 2 ^ (i - l + 1)
      let sq := squareTimes n ninv (i - l + 1) acc
      scanFuel n ninv table e w fuel l (montMul n ninv sq (table.getD ((k - 1) / 2) []))
    else scanFuel n ninv table e w fuel i (montSqr n ninv acc)

/-- The exponentiation of R192, R195 to R197 for a modulus array `n` with windows of `w` bits: the constant, the base into Montgomery
form, the table, the scan from the Montgomery form of 1, the final reduction, normalized. -/
def windowedPowWith (w : Nat) (b e n : List Word) : List Word :=
  let ninv := montConst n
  let table := powerTable n ninv (montForm n (val b)) (tableEntries w)
  let ebits := bitlen (val e)
  norm (montRed n ninv (val (scanFuel n ninv table (val e) w ebits ebits (montForm n 1))))

/-- The exponentiation with the window the engine picks (R193, R194). -/
def windowedPow (b e n : List Word) : List Word := windowedPowWith (windowWidth (val e)) b e n

end Sys2Proof.Machine
end

