-- ==== Sys2Proof/Safety.lean ====
section
/-! DEFINITION. The terms the statements use: the invariant of the machine, what a completed and what a faulted command leaves, which
registers a command reads and writes (spec/10_state.md R26), and the host's map (spec/20_memory.md R60, R63). -/

namespace Sys2Proof.Machine

open Sys2Proof

/-! ### The invariant -/

/-- `OFF + LEN ≤ CAP` (R22). -/
abbrev WideReg.Inside (r : WideReg) : Prop := r.off.toNat + r.len.toNat ≤ Config.cap

/-- The context holds the modulus `n`: its length, its words, and a constant with `n0 × NINV = -1 mod 2^64` (R33, R171). -/
abbrev MontCtx.HoldsModulus (c : MontCtx) (n : List Word) : Prop :=
  c.mvalid = true ∧ c.mlen.toNat = n.length ∧ c.modulus = n ∧ low64 n * c.ninv = -1

/-- An array MSETUP accepts as a modulus: 1 to 64 words, normalized, odd (R33, R172). -/
abbrev ModulusOk (n : List Word) : Prop :=
  1 ≤ n.length ∧ n.length ≤ Config.maxW ∧ isNormalized n = true ∧ (lowWord n).toNat % 2 = 1

/-- An exponent `e` and a modulus `n` that pass MODPOW's key guard (R191): 32 or 64 words, normalized, odd; the exponent nonzero,
normalized and below the modulus. -/
abbrev KeyOk (e n : List Word) : Prop :=
  (n.length = 32 ∨ n.length = 64) ∧ isNormalized n = true ∧ (lowWord n).toNat % 2 = 1 ∧ siglen e ≠ 0 ∧
    isNormalized e = true ∧ val e < val n

/-- A valid context holds an acceptable modulus; an invalid one is as reset left it (R33). -/
def MontCtx.Sound (c : MontCtx) : Prop :=
  (c.mvalid = true → ModulusOk c.modulus ∧ c.HoldsModulus c.modulus) ∧ (c.mvalid = false → c = MontCtx.reset)

/-- The error registers agree with `STATE`: a cause and its class in FAULTED, zero in IDLE and BUSY (R29, R31, R32, R214). -/
def State.ErrorsAgree (s : State) : Prop :=
  (s.engine = .faulted → ∃ c : Cause, s.errinfo = c.number ∧ s.errcode = c.errClass.number) ∧
    (s.engine ≠ .faulted → s.errinfo = 0 ∧ s.errcode = 0)

/-- Hidden storage has the spec's sizes for a context of `mlen` words: `TBL_SLOTS` table slots of `TBL_WIDTH` words, scratch integers of
`CAP` words (R8, R37). The other buffers have their sizes by type. -/
structure Hidden.Fits (h : Hidden) (mlen : Nat) : Prop where
  slots : h.powerTable.length = Config.tblSlots
  widths : ∀ e ∈ h.powerTable, e.length = Config.tblWidth mlen
  scratch : ∀ a ∈ h.scratch, a.length = Config.cap

/-- The engine moves next, and `rest` is then still due (log 1): nothing is due at all, or its turn heads the event list. -/
def State.EngineNext (s : State) (rest : List Event) : Prop :=
  (s.events = [] ∧ rest = []) ∨ s.events = .engine :: rest

/-- What holds of BNE after reset and after every step. -/
structure State.Inv (s : State) : Prop where
  /-- Every view lies inside its register (R22). -/
  views : ∀ r, (s.reg r).Inside
  /-- `FLAGS.CMP` is never `10` (R28). -/
  cmp : s.flags.cmp ≠ 0b10
  /-- The context is sound (R33). -/
  ctx : s.ctx.Sound
  /-- The I/O buffer's list is canonical and inside the buffer (R36). -/
  iob : Memory.wf s.iob = true
  /-- The error registers agree with `STATE` (R31). -/
  errors : s.ErrorsAgree
  /-- `DONE` is set only in IDLE (R27, R30). -/
  done : s.done = true → s.engine = .idle
  /-- No power-table entry is claimed between commands (R37, R195). -/
  table : s.hidden.tableClaimed = 0
  /-- Hidden storage has the spec's sizes (R8, R37). -/
  hidden : s.hidden.Fits s.ctx.mlen.toNat

/-- The table of R39, hidden storage apart. -/
def State.AtReset (t : State) : Prop :=
  (∀ r : WReg, (t.reg r).valid = false ∧ (t.reg r).off = 0 ∧ (t.reg r).len = 0 ∧ ∀ k : Fin Config.cap, (t.reg r).data[k] = 0) ∧
    t.flags.cmp = 0 ∧ t.flags.c = false ∧
    t.ctx.mvalid = false ∧ t.ctx.mlen = 0 ∧ t.ctx.ninv = 0 ∧ (∀ k : Fin Config.maxW, t.ctx.modn[k] = 0) ∧
    (∀ j, Memory.read t.iob j = 0) ∧ t.cmdreg = 0 ∧ t.engine = .idle ∧ t.done = false ∧ t.buserr = false ∧ t.errcode = 0 ∧
    t.errinfo = 0

/-! ### What a command leaves -/

/-- The status a command leaves that completes (R29). -/
def State.EndedWell (t : State) : Prop := t.engine = .idle ∧ t.done = true ∧ t.errcode = 0 ∧ t.errinfo = 0

/-- The wide registers outside a list are unchanged: DATA, OFF, LEN and VALID. -/
def SameRegsBut (except : List WReg) (s t : State) : Prop := ∀ r, r ∉ except → t.reg r = s.reg r

/-- Every byte of the I/O buffer reads as before. -/
def SameIob (s t : State) : Prop := ∀ j, Memory.read t.iob j = Memory.read s.iob j

/-- What no command writes: `CMDREG`, `BUSERR`, and the model's event list and last read word. -/
def SamePort (s t : State) : Prop :=
  t.cmdreg = s.cmdreg ∧ t.buserr = s.buserr ∧ t.readData = s.readData ∧ t.events = s.events

/-- A register holds an array as `W[rd] <- a` leaves it: offset 0, its length, its words, zeros behind them, valid (R12, R24). -/
def State.Holds (t : State) (rd : WReg) (a : List Word) : Prop :=
  (t.reg rd).valid = true ∧ (t.reg rd).off = 0 ∧ (t.reg rd).len.toNat = a.length ∧ t.view rd = a ∧
    ∀ k : Fin Config.cap, (t.reg rd).data[k] = a.getD k 0

/-- A command completed and wrote the array `a` to `rd` and nothing else but the flags, which are spoken of apart. -/
def WroteOnly (s t : State) (rd : WReg) (a : List Word) : Prop :=
  t.EndedWell ∧ t.Holds rd a ∧ SameRegsBut [rd] s t ∧ t.ctx = s.ctx ∧ SameIob s t ∧ SamePort s t

/-- A command faulted (R214): the status registers say the cause, a destination is invalid and inside its register, and every other
register, the flags and the port are as before. The context and the I/O buffer are spoken of apart. -/
def FaultTaken (s t : State) (cause : Cause) (rd : Option WReg) : Prop :=
  t.engine = .faulted ∧ t.done = false ∧ t.errinfo = cause.number ∧ t.errcode = cause.errClass.number ∧
    t.flags = s.flags ∧ SamePort s t ∧ (∀ r, rd ≠ some r → t.reg r = s.reg r) ∧
    (∀ r, rd = some r → (t.reg r).valid = false ∧ (t.reg r).Inside)

/-- A fault that leaves the context and the I/O buffer as they were. -/
def PlainFault (s t : State) (cause : Cause) (rd : Option WReg) : Prop :=
  FaultTaken s t cause rd ∧ t.ctx = s.ctx ∧ SameIob s t

/-- All of these registers are valid (R213). -/
abbrev State.AllValid (s : State) (rs : List WReg) : Prop := ∀ r ∈ rs, (s.reg r).valid = true

end Sys2Proof.Machine

namespace Sys2Proof

/-- The destination a command names and a fault invalidates (R26 columns `w` and `rw`, R214). -/
def Instr.destination : Instr → Option WReg
  | .nop => none
  | .mov rd _ => some rd
  | .ldb rd _ => some rd
  | .stb _ _ => none
  | .cmp _ _ => none
  | .add rd _ _ => some rd
  | .sub rd _ _ => some rd
  | .shl rd _ _ => some rd
  | .shr rd _ _ => some rd
  | .norm rd => some rd
  | .mul rd _ _ => some rd
  | .sqr rd _ => some rd
  | .rem rd _ _ => some rd
  | .msetup _ => none
  | .mto rd _ => some rd
  | .mmul rd _ _ => some rd
  | .msqr rd _ => some rd
  | .mred rd _ => some rd
  | .modpow rd _ _ _ => some rd

/-- The registers a command reads as sources (R26 columns `r`; for NORM, `rd`: R213). -/
def Instr.sources : Instr → List WReg
  | .nop => []
  | .mov _ rs1 => [rs1]
  | .ldb _ _ => []
  | .stb rs1 rs2 => [rs1, rs2]
  | .cmp rs1 rs2 => [rs1, rs2]
  | .add _ rs1 rs2 => [rs1, rs2]
  | .sub _ rs1 rs2 => [rs1, rs2]
  | .shl _ rs1 _ => [rs1]
  | .shr _ rs1 _ => [rs1]
  | .norm rd => [rd]
  | .mul _ rs1 rs2 => [rs1, rs2]
  | .sqr _ rs1 => [rs1]
  | .rem _ rs1 rs2 => [rs1, rs2]
  | .msetup rs1 => [rs1]
  | .mto _ rs1 => [rs1]
  | .mmul _ rs1 rs2 => [rs1, rs2]
  | .msqr _ rs1 => [rs1]
  | .mred _ rs1 => [rs1]
  | .modpow _ rs1 rs2 rs3 => [rs1, rs2, rs3]

/-- The used register fields of a command's word: the lowest bit of the field and the register it names (R81, R82, R85 column `uses`,
R89). -/
def Instr.registerFields : Instr → List (Nat × WReg)
  | .nop => []
  | .mov rd rs1 => [(20, rd), (16, rs1)]
  | .ldb rd _ => [(20, rd)]
  | .stb rs1 rs2 => [(16, rs1), (12, rs2)]
  | .cmp rs1 rs2 => [(16, rs1), (12, rs2)]
  | .add rd rs1 rs2 => [(20, rd), (16, rs1), (12, rs2)]
  | .sub rd rs1 rs2 => [(20, rd), (16, rs1), (12, rs2)]
  | .shl rd rs1 _ => [(20, rd), (16, rs1)]
  | .shr rd rs1 _ => [(20, rd), (16, rs1)]
  | .norm rd => [(20, rd)]
  | .mul rd rs1 rs2 => [(20, rd), (16, rs1), (12, rs2)]
  | .sqr rd rs1 => [(20, rd), (16, rs1)]
  | .rem rd rs1 rs2 => [(20, rd), (16, rs1), (12, rs2)]
  | .msetup rs1 => [(16, rs1)]
  | .mto rd rs1 => [(20, rd), (16, rs1)]
  | .mmul rd rs1 rs2 => [(20, rd), (16, rs1), (12, rs2)]
  | .msqr rd rs1 => [(20, rd), (16, rs1)]
  | .mred rd rs1 => [(20, rd), (16, rs1)]
  | .modpow rd rs1 rs2 rs3 => [(20, rd), (16, rs1), (12, rs2), (8, rs3)]

/-- The immediate of a command of format I (R82, R84). -/
def Instr.immediate : Instr → Option Nat
  | .nop => none
  | .mov _ _ => none
  | .ldb _ imm => some imm
  | .stb _ _ => none
  | .cmp _ _ => none
  | .add _ _ _ => none
  | .sub _ _ _ => none
  | .shl _ _ imm => some imm
  | .shr _ _ imm => some imm
  | .norm _ => none
  | .mul _ _ _ => none
  | .sqr _ _ => none
  | .rem _ _ _ => none
  | .msetup _ => none
  | .mto _ _ => none
  | .mmul _ _ _ => none
  | .msqr _ _ => none
  | .mred _ _ => none
  | .modpow _ _ _ _ => none

end Sys2Proof

namespace Sys2Proof.Machine

open Sys2Proof

/-! ### Decode faults by masks -/

/-- For each opcode of R85: the bits of the fields its command does not use, and bit 3 of each register field it uses (R81 to R83,
R86 steps 2 and 3). -/
def decodeFaultMasks : List (Nat × Word × Word) :=
  [(0x00, 0x00FFFFFF, 0x00000000), (0x01, 0x0000FFFF, 0x00880000), (0x03, 0x000F0000, 0x00800000),
   (0x04, 0x00F00FFF, 0x00088000), (0x10, 0x00F00FFF, 0x00088000), (0x11, 0x00000FFF, 0x00888000),
   (0x12, 0x00000FFF, 0x00888000), (0x13, 0x00000000, 0x00880000), (0x14, 0x00000000, 0x00880000),
   (0x15, 0x000FFFFF, 0x00800000), (0x16, 0x00000FFF, 0x00888000), (0x17, 0x0000FFFF, 0x00880000),
   (0x20, 0x00000FFF, 0x00888000), (0x30, 0x00F0FFFF, 0x00080000), (0x31, 0x0000FFFF, 0x00880000),
   (0x32, 0x00000FFF, 0x00888000), (0x33, 0x0000FFFF, 0x00880000), (0x34, 0x0000FFFF, 0x00880000),
   (0x38, 0x000000FF, 0x00888800)]

/-- The opcodes R87 lists as illegal. -/
abbrev IllegalOpcode (op : Nat) : Prop :=
  op = 0x02 ∨ (0x05 ≤ op ∧ op ≤ 0x0F) ∨ (0x18 ≤ op ∧ op ≤ 0x1F) ∨ (0x21 ≤ op ∧ op ≤ 0x2F) ∨ (0x35 ≤ op ∧ op ≤ 0x37) ∨
    (0x39 ≤ op ∧ op ≤ 0xFF)

/-! ### The host's map -/

/-- A byte address that names a 32-bit register of the map, or an aligned word of the I/O window (R60, R63). -/
def Mapped32 (a : Nat) : Prop :=
  (a ≤ 0x20 ∧ a % 4 = 0) ∨ (∃ i < 8, a = 0x40 + 4 * i) ∨ (∃ i < 8, ∃ k < 136, a = 0x1000 * (i + 1) + 4 * k) ∨
    (∃ j ≤ 540, j % 4 = 0 ∧ a = 0x9000 + j)

/-- An access of this width at this address names something (R60, R63). -/
def Mapped : AccessWidth → BitVec 16 → Prop
  | .w32, addr => Mapped32 addr.toNat
  | .w8, addr => 0x9000 ≤ addr.toNat ∧ addr.toNat ≤ 0x9000 + 543
  | .w16, _ => False


/-- A bit of a register value. -/
abbrev placed (b : Bool) (bit : Nat) : Nat := if b then 2 ^ bit else 0

/-- What a 32-bit read of a register of the map returns while the engine is not BUSY (R27, R30 to R35, R60, R61). -/
def HostValue (s : State) (addr : BitVec 16) (v : Word) : Prop :=
  (addr = 0x0000 ∧ v = 0) ∨
  (addr = 0x0004 ∧ v = BitVec.ofNat 32
    (placed (s.engine = .busy) 0 + placed (s.engine = .faulted) 1 + placed s.done 2 + placed s.buserr 3)) ∨
  (addr = 0x0008 ∧ v = BitVec.ofNat 32 s.errcode.toNat) ∨
  (addr = 0x000C ∧ v = BitVec.ofNat 32 s.errinfo.toNat) ∨
  (addr = 0x0010 ∧ v = 0) ∨
  (addr = 0x0014 ∧ v = BitVec.ofNat 32 (s.flags.cmp.toNat + placed s.flags.c 2)) ∨
  (addr = 0x0018 ∧ v = BitVec.ofNat 32 (s.ctx.mlen.toNat + placed s.ctx.mvalid 31)) ∨
  (addr = 0x001C ∧ v = BitVec.ofNat 32 (s.ctx.ninv.toNat % 2 ^ 32)) ∨
  (addr = 0x0020 ∧ v = BitVec.ofNat 32 (s.ctx.ninv.toNat / 2 ^ 32)) ∨
  (∃ i : WReg, addr.toNat = 0x40 + 4 * i.val ∧
    v = BitVec.ofNat 32 ((s.reg i).len.toNat + 2 ^ 8 * (s.reg i).off.toNat + placed (s.reg i).valid 31)) ∨
  (∃ (i : WReg) (k : Fin Config.cap), addr.toNat = 0x1000 * (i.val + 1) + 4 * k.val ∧ v = (s.reg i).data[k])

/-- A host access is refused (R66): a read returns 0, a write is lost, `BUSERR` is set, nothing else changes. -/
def RefusedRead (s : State) (rest : List Event) : Prop :=
  step s = .next { s with events := rest, readData := 0, buserr := true }

/-- A refused write (R66). -/
def RefusedWrite (s : State) (rest : List Event) : Prop := step s = .next { s with events := rest, buserr := true }

end Sys2Proof.Machine
end

