-- ==== Sys2Proof/Certificates/Slice0/Obligations.lean ====
section
/-! DEFINITION. The statements for the provers. Each docstring names the rule of spec/ it formalises; the terms it uses are defined in
`Sys2Proof/Safety.lean`. A conclusion `∃ t, exec i s = .next t ∧ …` says that the command completes (or faults) under the hypotheses. -/

open Sys2Proof Sys2Proof.Machine

/-! ### Encoding -/

/-- Decoding the encoding of a well-formed command gives the command, every operand at every value (R81, R82, R85). -/
def Obligations.DecodeEncodeRoundTrip : Prop :=
  ∀ i : Instr, i.wellFormed = true → decode (encode i) = .ok i

/-- A word that decodes is the encoding of the well-formed command it decodes to: no bit of the word is dropped (R80 to R86). -/
def Obligations.EncodeDecodeRoundTrip : Prop :=
  ∀ (w : Word) (i : Instr), decode w = .ok i → i.wellFormed = true ∧ encode i = w

/-- R85: a word is a legal encoding of a command exactly when `(word AND mask) = match` for that command's row, and the command's
operands are then the numbers in its fields, where R81 and R82 put them. -/
def Obligations.LegalWordsMatchTable : Prop :=
  (∀ (w : Word) (row : EncodingRow), row ∈ encodingTable →
    (row.accepts w = true ↔ ∃ i, decode w = .ok i ∧ i.mnemonic = row.mnemonic)) ∧
  (∀ (w : Word) (i : Instr), decode w = .ok i →
    (∃ row ∈ encodingTable, row.accepts w = true) ∧
    (∀ f ∈ i.registerFields, f.2.val = w.toNat / 2 ^ f.1 % 2 ^ 4) ∧
    (∀ v, i.immediate = some v → v = w.toNat % 2 ^ 16))

/-- R86, R87: the opcode is tested first, and is illegal exactly on the opcodes R87 lists; then the unused fields; then the numbers of
the used register fields. -/
def Obligations.DecodeErrorsInOrder : Prop :=
  ∀ w : Word,
    (decode w = .error .illegalOpcode ↔ IllegalOpcode (w.toNat / 2 ^ 24)) ∧
    (decode w = .error .reservedBits ↔ ∃ row ∈ decodeFaultMasks, row.1 = w.toNat / 2 ^ 24 ∧ w &&& row.2.1 ≠ 0) ∧
    (decode w = .error .badReg ↔
      ∃ row ∈ decodeFaultMasks, row.1 = w.toNat / 2 ^ 24 ∧ w &&& row.2.1 = 0 ∧ w &&& row.2.2 ≠ 0)

/-- One word of each format and family, written out from R85, decodes to its command. -/
def Obligations.TableWordsDecode : Prop :=
  decode 0x01770000 = .ok (.mov 7 7) ∧ decode 0x0370FFFF = .ok (.ldb 7 65535) ∧ decode 0x11012000 = .ok (.add 0 1 2) ∧
    decode 0x13010021 = .ok (.shl 0 1 33) ∧ decode 0x20012000 = .ok (.rem 0 1 2) ∧ decode 0x30030000 = .ok (.msetup 3) ∧
    decode 0x38012300 = .ok (.modpow 0 1 2 3)

/-! ### The step -/

/-- A step runs the decoded command (R29): when the engine is BUSY and it is its turn, the step is `exec` of the command in `CMDREG`, on
the state itself, or on the state with the used-up engine turn taken from the event list. -/
def Obligations.StepRunsDecodedCommand : Prop :=
  ∀ (s : State) (i : Instr), s.engine = .busy → decode s.cmdreg = .ok i →
    (s.events = [] → step s = exec i s) ∧
    (∀ rest, s.events = .engine :: rest → step s = exec i { s with events := rest })

/-- R86, R212, R214: when the engine moves, a word that does not decode faults with cause 1, 2 or 3 by its decode error, of class UNKNOWN,
and invalidates no register. -/
def Obligations.UndecodableWordFaults : Prop :=
  ∀ (s : State) (rest : List Event) (e : DecodeError), s.engine = .busy → s.EngineNext rest → decode s.cmdreg = .error e →
    ∃ t, step s = .next t ∧ FaultTaken { s with events := rest } t (decodeCause e) none ∧
      t.errinfo = (match e with
        | .illegalOpcode => 1
        | .reservedBits => 2
        | .badReg => 3) ∧
      t.errcode = 1 ∧ t.ctx = s.ctx ∧ SameIob s t

/-- R29, R230, R251: the engine has a step only in BUSY, and its turn outside BUSY changes nothing but the event list (log 1); from a state
that meets the invariant its step leaves BUSY, either completed or faulted with a cause of R212. -/
def Obligations.EngineMovesOnlyInBusyAndEnds : Prop :=
  (∀ (s : State) (rest : List Event), s.EngineNext rest → s.engine ≠ .busy → step s = .next { s with events := rest }) ∧
  (∀ (s : State) (rest : List Event), s.Inv → s.EngineNext rest → s.engine = .busy →
    ∃ t, step s = .next t ∧ t.events = rest ∧
      (t.EndedWell ∨ (t.engine = .faulted ∧ t.done = false ∧
        ∃ c : Cause, t.errinfo = c.number ∧ t.errcode = c.errClass.number)))

/-! ### Reset and the invariant -/

/-- R39: the values after reset. (Hidden storage is unspecified there and not spoken of.) -/
def Obligations.ResetValues : Prop := State.reset.AtReset

/-- R240, R241: `Reset` in any state, BUSY included, gives every piece of state but hidden storage its value of R39, and `STATUS` then reads
zero. R39 and R241 leave hidden storage unspecified; that no table entry is claimed after `Reset` is the model's (DEDUCED from R37 (a) and
R195, log 5), and so are the kept event list and last read word (DESIGN CHOICE, log 1, 2). -/
def Obligations.ResetEventFromAnyState : Prop :=
  ∀ (s : State) (rest : List Event), s.events = .reset :: rest →
    ∃ t, step s = .next t ∧ t.AtReset ∧ t.status = 0 ∧ t.hidden.tableClaimed = 0 ∧ t.events = rest ∧ t.readData = s.readData

/-- The state after reset meets the invariant (R22, R28, R31, R33, R36, R37). Its clauses on hidden storage (claimed
entries, sizes) rest on the model's choice of hidden storage at reset (log 5). -/
def Obligations.ResetSatisfiesInv : Prop := State.reset.Inv

/-- Every step, whether of the engine, of the host or a reset, keeps the invariant: views stay inside their registers (R22), `FLAGS.CMP` is
never 10 (R28), a valid context holds an odd normalized modulus of 1 to 64 words with the right constant (R33, R171), the I/O buffer's list
stays canonical, the error registers agree with `STATE` (R31), `DONE` is set only in IDLE (R30), no table entry stays claimed (R195), hidden
storage has `TBL_SLOTS` slots of `TBL_WIDTH` words and scratch integers of `CAP` words (R8, R37; hidden storage as in log 5). -/
def Obligations.StepKeepsInv : Prop := ∀ s t : State, s.Inv → step s = .next t → t.Inv

/-- From every state that meets the invariant every step answers a next state: no command, host access or reset stops the machine
(R210, R251). -/
def Obligations.StepNeverStops : Prop := ∀ s : State, s.Inv → ∃ t, step s = .next t

/-! ### The host port -/

/-- R66, R30: while BUSY a 32-bit read of `STATUS` is accepted and every other access is refused. -/
def Obligations.WhileBusyOnlyStatusIsRead : Prop :=
  ∀ (s : State) (rest : List Event), s.engine = .busy →
    (s.events = .read .w32 0x0004 :: rest →
      ∃ v : Word, step s = .next { s with events := rest, readData := v } ∧ v.getLsbD 0 = true ∧ v.getLsbD 1 = false ∧
        v.getLsbD 2 = s.done ∧ v.getLsbD 3 = s.buserr ∧ ∀ i, 4 ≤ i → v.getLsbD i = false) ∧
    (∀ width addr, s.events = .read width addr :: rest → ¬ (width = .w32 ∧ addr = 0x0004) → RefusedRead s rest) ∧
    (∀ width addr v, s.events = .write width addr v :: rest → RefusedWrite s rest)

/-- R27, R66, R216: a write of `CMD` in IDLE latches the word, makes the engine BUSY and clears `DONE`; in BUSY and in FAULTED it is
refused, so a fault stays as it was reported. -/
def Obligations.CmdWriteStartsOnlyInIdle : Prop :=
  ∀ (s : State) (rest : List Event) (v : Word), s.events = .write .w32 0x0000 v :: rest →
    (s.engine = .idle → step s = .next { s with events := rest, cmdreg := v, engine := .busy, done := false }) ∧
    (s.engine ≠ .idle → RefusedWrite s rest)

/-- R32, R215: a write of `CTRL` with bit 0 set acknowledges a fault and has no effect through that bit in IDLE; bit 1 clears `BUSERR`; the
other bits are ignored; in BUSY the write is refused; `CTRL` reads as zero. -/
def Obligations.CtrlWriteAcknowledges : Prop :=
  ∀ (s : State) (rest : List Event),
    (∀ v, s.events = .write .w32 0x0010 v :: rest →
      (s.engine = .busy → RefusedWrite s rest) ∧
      (s.engine ≠ .busy →
        ∃ t, step s = .next t ∧ t.buserr = (if v.getLsbD 1 then false else s.buserr) ∧
          (s.engine = .faulted → v.getLsbD 0 = true → t.engine = .idle ∧ t.errcode = 0 ∧ t.errinfo = 0) ∧
          (¬ (s.engine = .faulted ∧ v.getLsbD 0 = true) →
            t.engine = s.engine ∧ t.errcode = s.errcode ∧ t.errinfo = s.errinfo) ∧
          t.w = s.w ∧ t.flags = s.flags ∧ t.ctx = s.ctx ∧ t.iob = s.iob ∧ t.cmdreg = s.cmdreg ∧ t.done = s.done ∧
          t.readData = s.readData ∧ t.events = rest)) ∧
    (s.events = .read .w32 0x0010 :: rest → s.engine ≠ .busy → step s = .next { s with events := rest, readData := 0 })

/-- R35: outside BUSY, a write of `W_DESC[i]` with `OFF + LEN ≤ CAP` sets `OFF`, `LEN` and `VALID` of that register and is refused
otherwise; a write of `W_DATA[i][k]` sets that word and no `VALID`. Bits 30:16 of a written `W_DESC` are ignored (DEDUCED, log 18). -/
def Obligations.WideRegisterHostWrites : Prop :=
  ∀ (s : State) (rest : List Event) (i : WReg) (addr : BitVec 16) (v : Word), s.engine ≠ .busy →
    s.events = .write .w32 addr v :: rest →
    (addr.toNat = 0x40 + 4 * i.val →
      (v.toNat / 2 ^ 8 % 2 ^ 8 + v.toNat % 2 ^ 8 ≤ 136 →
        ∃ t, step s = .next t ∧ (t.reg i).off.toNat = v.toNat / 2 ^ 8 % 2 ^ 8 ∧ (t.reg i).len.toNat = v.toNat % 2 ^ 8 ∧
          (t.reg i).valid = true ∧ (t.reg i).data = (s.reg i).data ∧ SameRegsBut [i] s t ∧ t.flags = s.flags ∧
          t.ctx = s.ctx ∧ SameIob s t ∧ t.engine = s.engine ∧ t.done = s.done ∧ t.buserr = s.buserr ∧
          t.errcode = s.errcode ∧ t.errinfo = s.errinfo ∧ t.cmdreg = s.cmdreg ∧ t.readData = s.readData ∧ t.events = rest) ∧
      (136 < v.toNat / 2 ^ 8 % 2 ^ 8 + v.toNat % 2 ^ 8 → RefusedWrite s rest)) ∧
    (∀ k : Fin Config.cap, addr.toNat = 0x1000 * (i.val + 1) + 4 * k.val →
      ∃ t, step s = .next t ∧ (t.reg i).data[k] = v ∧ (∀ k' : Fin Config.cap, k' ≠ k → (t.reg i).data[k'] = (s.reg i).data[k']) ∧
        (t.reg i).off = (s.reg i).off ∧ (t.reg i).len = (s.reg i).len ∧ (t.reg i).valid = (s.reg i).valid ∧
        SameRegsBut [i] s t ∧ t.flags = s.flags ∧ t.ctx = s.ctx ∧ SameIob s t ∧ t.engine = s.engine ∧ t.done = s.done ∧
        t.buserr = s.buserr ∧ t.errcode = s.errcode ∧ t.errinfo = s.errinfo ∧ t.cmdreg = s.cmdreg ∧ t.readData = s.readData ∧
        t.events = rest)

/-- R60, R61, with R27 and R30 to R35: outside BUSY a 32-bit read of a register returns its value and changes nothing. -/
def Obligations.HostReadsShowRegisters : Prop :=
  ∀ (s : State) (rest : List Event) (addr : BitVec 16) (v : Word), s.engine ≠ .busy →
    s.events = .read .w32 addr :: rest → HostValue s addr v → step s = .next { s with events := rest, readData := v }

/-- R63, R66, R67: an access whose address is unmapped, or whose width or alignment R63 does not allow, is refused in every state; so is a
write of a read-only register. -/
def Obligations.UnmappedAccessesRefused : Prop :=
  ∀ (s : State) (rest : List Event) (width : AccessWidth) (addr : BitVec 16),
    (¬ Mapped width addr → s.events = .read width addr :: rest → RefusedRead s rest) ∧
    (∀ v, ¬ Mapped width addr → s.events = .write width addr v :: rest → RefusedWrite s rest) ∧
    (∀ v, addr ∈ [0x0004#16, 0x0008#16, 0x000C#16, 0x0014#16, 0x0018#16, 0x001C#16, 0x0020#16] →
      s.events = .write width addr v :: rest → RefusedWrite s rest)

/-- R64, R65: the I/O buffer window outside BUSY. An 8-bit access moves one byte; a 32-bit access at a multiple of 4 moves four, the byte at
the lower index the more significant. -/
def Obligations.IobWindowIsBigEndian : Prop :=
  ∀ (s : State) (rest : List Event) (addr : BitVec 16) (j : Nat), s.engine ≠ .busy → Memory.wf s.iob = true →
    addr.toNat = 0x9000 + j → j ≤ 543 →
    (s.events = .read .w8 addr :: rest →
      step s = .next { s with events := rest, readData := BitVec.ofNat 32 (Memory.read s.iob j).toNat }) ∧
    (∀ v, s.events = .write .w8 addr v :: rest →
      ∃ m, step s = .next { s with events := rest, iob := m } ∧
        ∀ k, Memory.read m k = if k = j then BitVec.ofNat 8 v.toNat else Memory.read s.iob k) ∧
    (j % 4 = 0 → s.events = .read .w32 addr :: rest →
      step s = .next { s with
        events := rest
        readData := BitVec.ofNat 32 ((Memory.read s.iob j).toNat * 2 ^ 24 + (Memory.read s.iob (j + 1)).toNat * 2 ^ 16 +
          (Memory.read s.iob (j + 2)).toNat * 2 ^ 8 + (Memory.read s.iob (j + 3)).toNat) }) ∧
    (∀ v, j % 4 = 0 → s.events = .write .w32 addr v :: rest →
      ∃ m, step s = .next { s with events := rest, iob := m } ∧
        ∀ k, Memory.read m k =
          if k = j then BitVec.ofNat 8 (v.toNat / 2 ^ 24) else if k = j + 1 then BitVec.ofNat 8 (v.toNat / 2 ^ 16)
          else if k = j + 2 then BitVec.ofNat 8 (v.toNat / 2 ^ 8) else if k = j + 3 then BitVec.ofNat 8 v.toNat
          else Memory.read s.iob k)

/-! ### Faults -/

/-- R212: the number and the class number of each cause; class 4 is never produced (R211). -/
def Obligations.CauseNumbersAndClasses : Prop :=
  [Cause.illegalOpcode, .reservedBits, .badReg, .srcInvalid, .divisorEmpty, .capacity, .tableAlloc, .modLen, .modEven, .expZero,
    .expGeMod, .lenMismatch, .ctxInvalid, .operandTooLong, .notNormalized, .width, .iobRange].map
      (fun c => (c.number.toNat, c.errClass.number.toNat)) =
    [(1, 1), (2, 1), (3, 1), (4, 5), (5, 1), (6, 2), (7, 2), (8, 3), (9, 3), (10, 3), (11, 3), (12, 5), (13, 5), (14, 5), (15, 5),
      (16, 5), (17, 5)] ∧
  ∀ c : Cause, c.errClass.number ≠ 4

/-- R213, R214: a command with an invalid source faults with SRC_INVALID before any other check of its own, invalidating its destination. -/
def Obligations.InvalidSourceFaults : Prop :=
  ∀ (i : Instr) (s : State), (∃ r ∈ i.sources, (s.reg r).valid = false) →
    ∃ t, exec i s = .next t ∧ PlainFault s t .srcInvalid i.destination

/-- R102, R104: LDB of more than 544 bytes faults with IOB_RANGE; STB of a value with more significant words than the width faults with
WIDTH, leaving the bytes at the width and above as they were (those below are unspecified and not spoken of). -/
def Obligations.ByteCommandFaults : Prop :=
  (∀ (rd : WReg) (n : Nat) (s : State), 544 < n →
    ∃ t, exec (.ldb rd n) s = .next t ∧ PlainFault s t .iobRange (some rd)) ∧
  (∀ (rs1 rs2 : WReg) (s : State), s.AllValid [rs1, rs2] → Memory.wf s.iob = true →
    (s.reg rs2).len.toNat < siglen (s.view rs1) →
    ∃ t, exec (.stb rs1 rs2) s = .next t ∧ FaultTaken s t .width none ∧ t.ctx = s.ctx ∧
      ∀ j, 4 * (s.reg rs2).len.toNat ≤ j → Memory.read t.iob j = Memory.read s.iob j)

/-- R123, R124, R126, R132, R134: ADD and SUB of views of different length fault with LEN_MISMATCH; SHL, MUL and SQR fault with CAPACITY where
the result would need more than 136 words. -/
def Obligations.ArrayCommandFaults : Prop :=
  ∀ (rd rs1 rs2 : WReg) (s : State), s.AllValid [rs1, rs2] →
    ((s.view rs1).length ≠ (s.view rs2).length →
      (∃ t, exec (.add rd rs1 rs2) s = .next t ∧ PlainFault s t .lenMismatch (some rd)) ∧
      (∃ t, exec (.sub rd rs1 rs2) s = .next t ∧ PlainFault s t .lenMismatch (some rd))) ∧
    (∀ n, 136 < shlLength (s.view rs1) n →
      ∃ t, exec (.shl rd rs1 n) s = .next t ∧ PlainFault s t .capacity (some rd)) ∧
    (0 < (s.view rs1).length → 0 < (s.view rs2).length → 136 < (s.view rs1).length + (s.view rs2).length →
      ∃ t, exec (.mul rd rs1 rs2) s = .next t ∧ PlainFault s t .capacity (some rd)) ∧
    (136 < 2 * (s.view rs1).length →
      ∃ t, exec (.sqr rd rs1) s = .next t ∧ PlainFault s t .capacity (some rd))

/-- R150, R151: an empty divisor faults with DIVISOR_EMPTY, whatever the dividend's form; a non-empty divisor with an operand that is not
normalized faults with NOT_NORMALIZED. -/
def Obligations.RemFaults : Prop :=
  ∀ (rd rs1 rs2 : WReg) (s : State), s.AllValid [rs1, rs2] →
    (s.view rs2 = [] → ∃ t, exec (.rem rd rs1 rs2) s = .next t ∧ PlainFault s t .divisorEmpty (some rd)) ∧
    (s.view rs2 ≠ [] → (isNormalized (s.view rs1) = false ∨ isNormalized (s.view rs2) = false) →
      ∃ t, exec (.rem rd rs1 rs2) s = .next t ∧ PlainFault s t .notNormalized (some rd))

/-- R172, R173, R177 to R179: the faults of the Montgomery commands in the order of R218. MSETUP: NOT_NORMALIZED, MOD_LEN, MOD_EVEN, the
context kept; the others: CTX_INVALID, then CAPACITY (MTO) or OPERAND_TOO_LONG. -/
def Obligations.MontgomeryFaults : Prop :=
  ∀ (rd rs1 rs2 : WReg) (s : State), s.AllValid [rs1, rs2] →
    (isNormalized (s.view rs1) = false →
      ∃ t, exec (.msetup rs1) s = .next t ∧ PlainFault s t .notNormalized none) ∧
    (isNormalized (s.view rs1) = true → ((s.view rs1).length = 0 ∨ 64 < (s.view rs1).length) →
      ∃ t, exec (.msetup rs1) s = .next t ∧ PlainFault s t .modLen none) ∧
    (isNormalized (s.view rs1) = true → 1 ≤ (s.view rs1).length → (s.view rs1).length ≤ 64 →
      (lowWord (s.view rs1)).toNat % 2 = 0 → ∃ t, exec (.msetup rs1) s = .next t ∧ PlainFault s t .modEven none) ∧
    (s.ctx.mvalid = false →
      (∃ t, exec (.mto rd rs1) s = .next t ∧ PlainFault s t .ctxInvalid (some rd)) ∧
      (∃ t, exec (.mmul rd rs1 rs2) s = .next t ∧ PlainFault s t .ctxInvalid (some rd)) ∧
      (∃ t, exec (.msqr rd rs1) s = .next t ∧ PlainFault s t .ctxInvalid (some rd)) ∧
      (∃ t, exec (.mred rd rs1) s = .next t ∧ PlainFault s t .ctxInvalid (some rd))) ∧
    (s.ctx.mvalid = true →
      (136 < siglen (s.view rs1) + s.ctx.mlen.toNat + 1 →
        ∃ t, exec (.mto rd rs1) s = .next t ∧ PlainFault s t .capacity (some rd)) ∧
      (s.ctx.mlen.toNat < (s.view rs1).length ∨ s.ctx.mlen.toNat < (s.view rs2).length →
        ∃ t, exec (.mmul rd rs1 rs2) s = .next t ∧ PlainFault s t .operandTooLong (some rd)) ∧
      (s.ctx.mlen.toNat < (s.view rs1).length →
        ∃ t, exec (.msqr rd rs1) s = .next t ∧ PlainFault s t .operandTooLong (some rd)) ∧
      (2 * s.ctx.mlen.toNat < (s.view rs1).length →
        ∃ t, exec (.mred rd rs1) s = .next t ∧ PlainFault s t .operandTooLong (some rd)))

/-- R191: the key guard of MODPOW, first failure wins, the context kept. -/
def Obligations.ModpowGuardFaults : Prop :=
  ∀ (rd rs1 rs2 rs3 : WReg) (s : State), s.AllValid [rs1, rs2, rs3] →
    let e := s.view rs2
    let n := s.view rs3
    let faults (c : Cause) : Prop := ∃ t, exec (.modpow rd rs1 rs2 rs3) s = .next t ∧ PlainFault s t c (some rd)
    let lenOk := (n.length = 32 ∨ n.length = 64) ∧ isNormalized n = true
    let odd := (lowWord n).toNat % 2 = 1
    (¬ lenOk → faults .modLen) ∧
    (lenOk → ¬ odd → faults .modEven) ∧
    (lenOk → odd → val e = 0 → faults .expZero) ∧
    (lenOk → odd → val e ≠ 0 → isNormalized e = false → faults .notNormalized) ∧
    (lenOk → odd → val e ≠ 0 → isNormalized e = true → val n ≤ val e → faults .expGeMod)

/-- R192: past the guard and the exponent-1 exit, a base that does not fit the divider's buffer faults with CAPACITY after the context was
written. -/
def Obligations.ModpowCapacityFault : Prop :=
  ∀ (rd rs1 rs2 rs3 : WReg) (s : State), s.AllValid [rs1, rs2, rs3] → KeyOk (s.view rs2) (s.view rs3) → s.view rs2 ≠ [1] →
    136 < siglen (s.view rs1) + (s.view rs3).length + 1 →
    ∃ t, exec (.modpow rd rs1 rs2 rs3) s = .next t ∧ FaultTaken s t .capacity (some rd) ∧
      t.ctx.HoldsModulus (s.view rs3) ∧ SameIob s t

/-- R195: on an engine with `slots` table entries, a window that needs more faults with TABLE_ALLOC after the context was written; with the
hardware's 64 entries the claim never fails. -/
def Obligations.TableAllocFault : Prop :=
  (∀ (slots : Nat) (rd rs1 rs2 rs3 : WReg) (s : State), s.AllValid [rs1, rs2, rs3] → KeyOk (s.view rs2) (s.view rs3) →
    s.view rs2 ≠ [1] → siglen (s.view rs1) + (s.view rs3).length + 1 ≤ 136 →
    slots < 2 ^ (windowWidth (val (s.view rs2)) - 1) →
    FaultTaken s (s.modpowWith slots rd rs1 rs2 rs3) .tableAlloc (some rd) ∧
      (s.modpowWith slots rd rs1 rs2 rs3).ctx.HoldsModulus (s.view rs3) ∧ SameIob s (s.modpowWith slots rd rs1 rs2 rs3)) ∧
  (∀ e, 2 ^ (windowWidth e - 1) ≤ Config.tblSlots)

/-- R26, R28, R33: whichever way a command ends, `FLAGS.CMP` is written by CMP only, `FLAGS.C` by ADD and SUB only, the context by MSETUP and
MODPOW only, the I/O buffer by STB only, and no wide register but the destination by any. That no table entry stays claimed is DEDUCED from
R37 (a) and R195 (log 5). -/
def Obligations.CommandsWriteOnlyTheirState : Prop :=
  ∀ (i : Instr) (s t : State), exec i s = .next t →
    ((∀ rs1 rs2, i ≠ .cmp rs1 rs2) → t.flags.cmp = s.flags.cmp) ∧
    ((∀ rd rs1 rs2, i ≠ .add rd rs1 rs2 ∧ i ≠ .sub rd rs1 rs2) → t.flags.c = s.flags.c) ∧
    ((∀ rd rs1 rs2 rs3, i ≠ .msetup rs1 ∧ i ≠ .modpow rd rs1 rs2 rs3) → t.ctx = s.ctx) ∧
    ((∀ rs1 rs2, i ≠ .stb rs1 rs2) → SameIob s t) ∧
    (∀ r, i.destination ≠ some r → t.reg r = s.reg r) ∧
    SamePort s t ∧ t.hidden.tableClaimed = 0

/-! ### Results -/

/-- R100: NOP completes and changes nothing but the status. -/
def Obligations.NopResult : Prop :=
  ∀ s : State, ∃ t, exec .nop s = .next t ∧ t.EndedWell ∧ SameRegsBut [] s t ∧ t.flags = s.flags ∧ t.ctx = s.ctx ∧
    SameIob s t ∧ SamePort s t

/-- R101: MOV copies the source's view, leading zero words kept, to offset 0. -/
def Obligations.MovResult : Prop :=
  ∀ (rd rs1 : WReg) (s : State), s.AllValid [rs1] →
    ∃ t, exec (.mov rd rs1) s = .next t ∧ WroteOnly s t rd (s.view rs1) ∧ t.flags = s.flags

/-- R102: LDB writes the word array of the first `n` bytes of the I/O buffer; the buffer is unchanged. -/
def Obligations.LdbResult : Prop :=
  ∀ (rd : WReg) (n : Nat) (s : State), n ≤ 544 →
    ∃ t, exec (.ldb rd n) s = .next t ∧
      WroteOnly s t rd (bytesToWords ((List.range n).map (Memory.read s.iob))) ∧ t.flags = s.flags

/-- R104, R105: STB writes the value as `4 × LEN(rs2)` big-endian bytes from `IOB[0]`; every byte above, every register, the flags and the
context are unchanged. -/
def Obligations.StbResult : Prop :=
  ∀ (rs1 rs2 : WReg) (s : State), s.AllValid [rs1, rs2] → Memory.wf s.iob = true → (s.reg rs2).len.toNat ≤ 136 →
    siglen (s.view rs1) ≤ (s.reg rs2).len.toNat →
    let width := 4 * (s.reg rs2).len.toNat
    ∃ t, exec (.stb rs1 rs2) s = .next t ∧ t.EndedWell ∧
      (∀ j, j < width →
        (Memory.read t.iob j).toNat = val (s.view rs1) / 2 ^ (8 * (width - 1 - j)) % 256) ∧
      (∀ j, width ≤ j → Memory.read t.iob j = Memory.read s.iob j) ∧
      SameRegsBut [] s t ∧ t.flags = s.flags ∧ t.ctx = s.ctx ∧ SamePort s t

/-- R121: CMP. A difference in length decides; else the first word that differs, as unsigned numbers; `FLAGS.C` is unchanged. -/
def Obligations.CmpResult : Prop :=
  ∀ (rs1 rs2 : WReg) (s : State), s.AllValid [rs1, rs2] →
    let a := s.view rs1
    let b := s.view rs2
    ∃ t, exec (.cmp rs1 rs2) s = .next t ∧ t.EndedWell ∧
      (b.length < a.length → t.flags.cmp = 0b01) ∧
      (a.length < b.length → t.flags.cmp = 0b11) ∧
      (a = b → t.flags.cmp = 0b00) ∧
      (∀ (p u v : List Word) (x y : Word), a = p ++ x :: u → b = p ++ y :: v → u.length = v.length →
        (y.toNat < x.toNat → t.flags.cmp = 0b01) ∧ (x.toNat < y.toNat → t.flags.cmp = 0b11)) ∧
      t.flags.c = s.flags.c ∧ SameRegsBut [] s t ∧ t.ctx = s.ctx ∧ SameIob s t ∧ SamePort s t

/-- R123: ADD of equal lengths writes the sum modulo `2^(32 L)` in `L` words and its carry to `FLAGS.C`. -/
def Obligations.AddResult : Prop :=
  ∀ (rd rs1 rs2 : WReg) (s : State), s.AllValid [rs1, rs2] → (s.view rs1).length = (s.view rs2).length →
    let l := (s.view rs1).length
    let sum := val (s.view rs1) + val (s.view rs2)
    ∃ t, exec (.add rd rs1 rs2) s = .next t ∧ WroteOnly s t rd (words (sum % 2 ^ (32 * l)) l) ∧
      (if t.flags.c then 1 else 0) = sum / 2 ^ (32 * l) ∧ t.flags.cmp = s.flags.cmp

/-- R124: SUB of equal lengths writes the difference modulo `2^(32 L)` in `L` words and its borrow to `FLAGS.C`. -/
def Obligations.SubResult : Prop :=
  ∀ (rd rs1 rs2 : WReg) (s : State), s.AllValid [rs1, rs2] → (s.view rs1).length = (s.view rs2).length →
    let l := (s.view rs1).length
    let a := val (s.view rs1)
    let b := val (s.view rs2)
    ∃ t, exec (.sub rd rs1 rs2) s = .next t ∧
      (b ≤ a → WroteOnly s t rd (words (a - b) l) ∧ t.flags.c = false) ∧
      (a < b → WroteOnly s t rd (words (a + 2 ^ (32 * l) - b) l) ∧ t.flags.c = true) ∧ t.flags.cmp = s.flags.cmp

/-- R126: SHL by `n` bits writes the value times `2^n`, which fits the length the rule gives: nothing is lost. -/
def Obligations.ShlResult : Prop :=
  ∀ (rd rs1 : WReg) (n : Nat) (s : State), s.AllValid [rs1] →
    let a := s.view rs1
    let extra := if 0 < n % 32 ∧ (a.headD 0).toNat / 2 ^ (32 - n % 32) ≠ 0 then 1 else 0
    let l := if a = [] then 0 else a.length + n / 32 + extra
    l ≤ 136 →
    val a * 2 ^ n < 2 ^ (32 * l) ∧
      ∃ t, exec (.shl rd rs1 n) s = .next t ∧ WroteOnly s t rd (words (val a * 2 ^ n) l) ∧ t.flags = s.flags

/-- R128: SHR by `n` bits writes the floor quotient by `2^n`, which fits the length the rule gives. -/
def Obligations.ShrResult : Prop :=
  ∀ (rd rs1 : WReg) (n : Nat) (s : State), s.AllValid [rs1] →
    let a := s.view rs1
    let drop := if 0 < n % 32 ∧ (a.headD 0).toNat / 2 ^ (n % 32) = 0 then 1 else 0
    let l := if a.length ≤ n / 32 then 0 else a.length - n / 32 - drop
    val a / 2 ^ n < 2 ^ (32 * l) ∧
      ∃ t, exec (.shr rd rs1 n) s = .next t ∧ WroteOnly s t rd (words (val a / 2 ^ n) l) ∧ t.flags = s.flags

/-- R130: NORM drops the leading zero words of the view in place, DATA unchanged; an all-zero view goes to offset 0. -/
def Obligations.NormResult : Prop :=
  ∀ (rd : WReg) (s : State), s.AllValid [rd] → (s.reg rd).Inside →
    let k := (s.view rd).length - siglen (s.view rd)
    ∃ t, exec (.norm rd) s = .next t ∧ t.EndedWell ∧ t.view rd = norm (s.view rd) ∧ (t.reg rd).data = (s.reg rd).data ∧
      (t.reg rd).valid = true ∧ (t.reg rd).len.toNat = (s.reg rd).len.toNat - k ∧
      (t.reg rd).off.toNat = (if norm (s.view rd) = [] then 0 else (s.reg rd).off.toNat + k) ∧
      SameRegsBut [rd] s t ∧ t.flags = s.flags ∧ t.ctx = s.ctx ∧ SameIob s t ∧ SamePort s t

/-- R132, R134: MUL and SQR write the exact product in `La + Lb` (SQR: `2 La`) words, the empty array where an operand is empty. -/
def Obligations.MulSqrResult : Prop :=
  ∀ (rd rs1 rs2 : WReg) (s : State), s.AllValid [rs1, rs2] →
    let a := s.view rs1
    let b := s.view rs2
    ((a = [] ∨ b = []) → ∃ t, exec (.mul rd rs1 rs2) s = .next t ∧ WroteOnly s t rd [] ∧ t.flags = s.flags) ∧
    (a ≠ [] → b ≠ [] → a.length + b.length ≤ 136 →
      ∃ t r, exec (.mul rd rs1 rs2) s = .next t ∧ WroteOnly s t rd r ∧ r.length = a.length + b.length ∧
        val r = val a * val b ∧ t.flags = s.flags) ∧
    (2 * a.length ≤ 136 →
      ∃ t r, exec (.sqr rd rs1) s = .next t ∧ WroteOnly s t rd r ∧ r.length = 2 * a.length ∧ val r = val a ^ 2 ∧
        t.flags = s.flags)

/-- R150: REM of normalized views writes the remainder, normalized. -/
def Obligations.RemResult : Prop :=
  ∀ (rd rs1 rs2 : WReg) (s : State), s.AllValid [rs1, rs2] → s.view rs2 ≠ [] → isNormalized (s.view rs1) = true →
    isNormalized (s.view rs2) = true →
    ∃ t r, exec (.rem rd rs1 rs2) s = .next t ∧ WroteOnly s t rd r ∧ val r = val (s.view rs1) % val (s.view rs2) ∧
      isNormalized r = true ∧ t.flags = s.flags

/-- R171, R172: MSETUP of an acceptable modulus loads the context, with the constant `NINV` for which `n0 × NINV = -1 mod 2^64`. -/
def Obligations.MsetupResult : Prop :=
  ∀ (rs1 : WReg) (s : State), s.AllValid [rs1] → ModulusOk (s.view rs1) →
    ∃ t, exec (.msetup rs1) s = .next t ∧ t.EndedWell ∧ t.ctx.HoldsModulus (s.view rs1) ∧ SameRegsBut [] s t ∧
      t.flags = s.flags ∧ SameIob s t ∧ SamePort s t

/-- R173: MTO writes the Montgomery form `val(a) × R mod N` in exactly `m` words. -/
def Obligations.MtoResult : Prop :=
  ∀ (rd rs1 : WReg) (s : State), s.AllValid [rs1] → s.ctx.Sound → s.ctx.mvalid = true →
    let m := s.ctx.mlen.toNat
    siglen (s.view rs1) + m + 1 ≤ 136 →
    ∃ t, exec (.mto rd rs1) s = .next t ∧
      WroteOnly s t rd (words (val (s.view rs1) * 2 ^ (32 * m) % val s.ctx.modulus) m) ∧ t.flags = s.flags

/-- R177 to R179, with R175: MMUL, MSQR and MRED write, in exactly `m` words, the residue `r` below `N` with `r × R` congruent to the product,
the square or the operand modulo `N`. -/
def Obligations.MontgomeryResults : Prop :=
  ∀ (rd rs1 rs2 : WReg) (s : State), s.AllValid [rs1, rs2] → s.ctx.Sound → s.ctx.mvalid = true →
    let m := s.ctx.mlen.toNat
    let nv := val s.ctx.modulus
    let a := s.view rs1
    let b := s.view rs2
    (a.length ≤ m → b.length ≤ m →
      ∃ t r, exec (.mmul rd rs1 rs2) s = .next t ∧ WroteOnly s t rd r ∧ r.length = m ∧ val r < nv ∧
        val r * 2 ^ (32 * m) % nv = val a * val b % nv ∧ t.flags = s.flags) ∧
    (a.length ≤ m →
      ∃ t r, exec (.msqr rd rs1) s = .next t ∧ WroteOnly s t rd r ∧ r.length = m ∧ val r < nv ∧
        val r * 2 ^ (32 * m) % nv = val a * val a % nv ∧ t.flags = s.flags) ∧
    (a.length ≤ 2 * m →
      ∃ t r, exec (.mred rd rs1) s = .next t ∧ WroteOnly s t rd r ∧ r.length = m ∧ val r < nv ∧
        val r * 2 ^ (32 * m) % nv = val a % nv ∧ t.flags = s.flags)

/-- R190, R199: MODPOW past its checks writes `b^e mod n`, normalized, and leaves the context holding `n`. -/
def Obligations.ModpowResult : Prop :=
  ∀ (rd rs1 rs2 rs3 : WReg) (s : State), s.AllValid [rs1, rs2, rs3] → KeyOk (s.view rs2) (s.view rs3) → s.view rs2 ≠ [1] →
    siglen (s.view rs1) + (s.view rs3).length + 1 ≤ 136 →
    ∃ t r, exec (.modpow rd rs1 rs2 rs3) s = .next t ∧ t.EndedWell ∧ t.Holds rd r ∧ isNormalized r = true ∧
      val r = val (s.view rs1) ^ val (s.view rs2) % val (s.view rs3) ∧ t.ctx.HoldsModulus (s.view rs3) ∧
      SameRegsBut [rd] s t ∧ t.flags = s.flags ∧ SameIob s t ∧ SamePort s t

/-- R198: MODPOW with the exponent `[1]` copies the base's view, neither reduced nor normalized, and does not write the context. -/
def Obligations.ModpowExponentOne : Prop :=
  ∀ (rd rs1 rs2 rs3 : WReg) (s : State), s.AllValid [rs1, rs2, rs3] → KeyOk (s.view rs2) (s.view rs3) → s.view rs2 = [1] →
    ∃ t, exec (.modpow rd rs1 rs2 rs3) s = .next t ∧ WroteOnly s t rd (s.view rs1) ∧ t.flags = s.flags

/-! ### The units and their values -/

/-- R122: for normalized arrays the comparison of R121 is that of the values. -/
def Obligations.CompareIsNumeric : Prop :=
  ∀ a b : List Word, isNormalized a = true → isNormalized b = true → compareArrays a b = compare (val a) (val b)

/-- R103, R105, R106: the byte string's value, stripped of leading zero bytes, in normalized words; and the two round trips. -/
def Obligations.ByteConversionRoundTrip : Prop :=
  (∀ s : List Byte, val (bytesToWords s) = bytesVal s ∧ isNormalized (bytesToWords s) = true ∧
    (bytesToWords s).length = ((s.dropWhile (· == 0)).length + 3) / 4) ∧
  (∀ (s : List Byte) (m : Nat), (bytesToWords s).length ≤ m →
    wordsToBytes (bytesToWords s) m =
      List.replicate (4 * m - (s.dropWhile (· == 0)).length) 0 ++ s.dropWhile (· == 0)) ∧
  (∀ (s : List Byte) (m : Nat), s.length = 4 * m → wordsToBytes (bytesToWords s) m = s) ∧
  (∀ (a : List Word) (m : Nat), siglen a ≤ m → bytesToWords (wordsToBytes a m) = norm a)

/-- R123, R124, word by word: on equal lengths the adder gives the sum modulo `2^(32 L)` and its carry, the subtractor the difference modulo
`2^(32 L)` and its borrow. -/
def Obligations.AdderSubtractorValues : Prop :=
  ∀ a b : List Word, a.length = b.length →
    adder a b = (words (val a + val b) a.length, (val a + val b) / base ^ a.length) ∧
    subtractor a b = (words (val a + base ^ a.length - val b) a.length, if val a < val b then 1 else 0)

/-- R127, R129: the word-level shifter, primitive step and whole-word shift composed, gives the words of R126 and R128, and none of the left
shift is lost. -/
def Obligations.ShifterValues : Prop :=
  ∀ (a : List Word) (n : Nat),
    shifterLeft a n = words (val a * 2 ^ n) (shlLength a n) ∧ val a * 2 ^ n < base ^ shlLength a n ∧
    shifterRight a n = words (val a / 2 ^ n) (shrLength a n) ∧ val a / 2 ^ n < base ^ shrLength a n

/-- R133, R135: the schoolbook multiplier and the squarer give the product and the square; squaring equals multiplying by itself in every
word. -/
def Obligations.MultiplierSquarerValues : Prop :=
  (∀ a b : List Word, (multiplier a b).length = a.length + b.length ∧ val (multiplier a b) = val a * val b) ∧
  (∀ a : List Word, 2 * crossProducts a.reverse + diagonal a.reverse = val a ^ 2) ∧
  (∀ a : List Word, squarer a = multiplier a a)

/-- R159: for every normalized dividend and every normalized non-empty divisor the divide policy, Algorithm D included, gives the normalized
remainder; an empty divisor gives nothing (R151). -/
def Obligations.DividePolicyIsRemainder : Prop :=
  (∀ a b : List Word, isNormalized a = true → isNormalized b = true → b ≠ [] →
    ∃ r, dividePolicy a b = some r ∧ val r = val a % val b ∧ isNormalized r = true) ∧
  (∀ a : List Word, dividePolicy a [] = none)

/-- R174: the word-serial reduction of a `2m`-word array equals the reduction by word positions on its value, for any constant. -/
def Obligations.SerialReductionAgrees : Prop :=
  ∀ (n : List Word) (ninv : DWord) (t : List Word), t.length = 2 * n.length → montRedSerial n ninv t = montRed n ninv (val t)

/-- R175: with the constant of the modulus, MontRed of a `2m`-word array has exactly `m` words and the value
`val(T) × R^(-1) mod val(N)`, for every inverse of `R` modulo the modulus; and there is one. -/
def Obligations.MontRedIsCanonicalResidue : Prop :=
  ∀ (n : List Word) (ninv : DWord) (t : List Word), low64 n * ninv = -1 → t.length = 2 * n.length →
    (montRed n ninv (val t)).length = n.length ∧
    (∃ rinv, rinv * base ^ n.length % val n = 1 % val n) ∧
    ∀ rinv, rinv * base ^ n.length % val n = 1 % val n → val (montRed n ninv (val t)) = val t * rinv % val n

/-- R180: the laws of Montgomery arithmetic for a valid context, `mto x` being the Montgomery form of `x`. -/
def Obligations.MontgomeryLaws : Prop :=
  ∀ (n : List Word) (ninv : DWord) (x y : Nat), n ≠ [] → low64 n * ninv = -1 →
    let m := n.length
    let mto (x : Nat) : List Word := montForm n x
    let mmul (x y : Nat) : List Word := montRed n ninv (x * y)
    mmul (val (mto x)) (val (mto y)) = mto (x * y) ∧
    mmul (val (mto x)) (val (mto x)) = mto (x * x) ∧
    montRed n ninv (val (mto x)) = words (x % val n) m ∧
    mmul (val (mto x)) y = words (x * y % val n) m ∧
    mmul x (val (mto 1)) = words (x % val n) m ∧
    val (mto x) < val n ∧ val (mmul x y) < val n ∧ val (montRed n ninv x) < val n

/-- R199: the windowed exponentiation, with windows of any width, gives `b^e mod n`, normalized, for every odd normalized modulus and
every nonzero exponent; so does the width the engine picks. -/
def Obligations.WindowedPowIsPower : Prop :=
  ∀ b e n : List Word, isNormalized n = true → n ≠ [] → (lowWord n).toNat % 2 = 1 → 0 < val e →
    (∀ w, 1 ≤ w → windowedPowWith w b e n = norm (words (val b ^ val e % val n) n.length)) ∧
    windowedPow b e n = norm (words (val b ^ val e % val n) n.length)

/-- R193, R194: the window width for each range of the exponent's bit length, and the exception. -/
def Obligations.WindowWidths : Prop :=
  windowWidth 65537 = 1 ∧
  ∀ e, e ≠ 65537 → 2 ≤ bitlen e →
    (bitlen e ≤ 7 → windowWidth e = 1) ∧ (8 ≤ bitlen e → bitlen e ≤ 25 → windowWidth e = 2) ∧
    (26 ≤ bitlen e → bitlen e ≤ 81 → windowWidth e = 3) ∧ (82 ≤ bitlen e → bitlen e ≤ 241 → windowWidth e = 4) ∧
    (242 ≤ bitlen e → bitlen e ≤ 673 → windowWidth e = 5) ∧ (674 ≤ bitlen e → bitlen e ≤ 1793 → windowWidth e = 6) ∧
    (1794 ≤ bitlen e → windowWidth e = 7)

/-- R8, R195, R196: the power table for the Montgomery form of `b` has the entries asked for, each a slot of `TBL_WIDTH` = `2 m` words that
holds, in its `m` low words, the Montgomery form of the odd power `b^(2 i + 1)`; that the significant words are the low ones is the
model's reading (log 23). -/
def Obligations.PowerTableSlots : Prop :=
  ∀ (b n : List Word) (ninv : DWord) (entries : Nat), n ≠ [] → low64 n * ninv = -1 →
    let m := n.length
    let table := powerTable n ninv (montForm n (val b)) entries
    table.length = entries ∧
    ∀ (i : Nat) (h : i < table.length),
      table[i].length = Config.tblWidth m ∧ Config.tblWidth m = 2 * m ∧
      val table[i] = val b ^ (2 * i + 1) * base ^ m % val n ∧ table[i] = List.replicate m 0 ++ montForm n (val b ^ (2 * i + 1))
end

