-- ==== Sys2Proof/Laws/Arrays.lean ====
section
/-! SUPPORT. Word arrays: the value and the length of what `words`, `norm`, `words` of a value and the byte conversions give
(spec/00_scope.md R10, spec/40_convert.md R103, R105). -/

namespace Sys2Proof.Machine

open Sys2Proof

@[simp] theorem words_length (v l : Nat) : (words v l).length = l := by
  induction l with
  | zero => rfl
  | succ l ih => simp [words, ih]

theorem foldl_val (a : List Word) (acc : Nat) :
    a.foldl (fun acc x => acc * base + x.toNat) acc = acc * base ^ a.length + val a := by
  induction a generalizing acc with
  | nil => simp [val]
  | cons x xs ih =>
    simp only [List.foldl_cons, List.length_cons, val]
    rw [ih, ih (0 * base + x.toNat)]
    ring

@[simp] theorem val_nil : val [] = 0 := rfl

/-- The value of an array is its first word's place plus the value of the rest. -/
theorem val_cons (x : Word) (xs : List Word) : val (x :: xs) = x.toNat * base ^ xs.length + val xs := by
  have := foldl_val xs (0 * base + x.toNat)
  simpa [val] using this

theorem val_append (a b : List Word) : val (a ++ b) = val a * base ^ b.length + val b := by
  simp only [val, List.foldl_append]
  exact foldl_val b _

/-- An array of `L` words has a value below `2^(32 L)`. -/
theorem val_lt (a : List Word) : val a < base ^ a.length := by
  induction a with
  | nil => simp
  | cons x xs ih =>
    have hx : x.toNat + 1 ≤ base := x.isLt
    rw [val_cons, List.length_cons, pow_succ]
    calc x.toNat * base ^ xs.length + val xs < x.toNat * base ^ xs.length + base ^ xs.length := by omega
      _ = (x.toNat + 1) * base ^ xs.length := by ring
      _ ≤ base * base ^ xs.length := Nat.mul_le_mul_right _ hx
      _ = base ^ xs.length * base := by ring

/-- `words` gives back the value, modulo `2^(32 L)`. -/
theorem val_words (v l : Nat) : val (words v l) = v % base ^ l := by
  induction l with
  | zero => simp [words, Nat.mod_one]
  | succ l ih =>
    rw [words, val_cons, ih, words_length, BitVec.toNat_ofNat, show base ^ (l + 1) = base ^ l * base from pow_succ _ _,
      Nat.mod_mul, Nat.add_comm, Nat.mul_comm]

/-- `words` of an array's own value and length is the array. -/
theorem words_val (a : List Word) : words (val a) a.length = a := by
  induction a with
  | nil => rfl
  | cons x xs ih =>
    have hlt := val_lt xs
    have hb : 0 < base ^ xs.length := Nat.pow_pos (by decide)
    simp only [List.length_cons, words, val_cons]
    congr 1
    · rw [Nat.add_comm, Nat.add_mul_div_right _ _ hb, Nat.div_eq_of_lt hlt, Nat.zero_add]
      exact BitVec.ofNat_toNat 32 x |>.trans (by simp)
    · have key : ∀ (l c v : Nat), words (c * base ^ l + v) l = words v l := by
        intro l
        induction l with
        | zero => intros; rfl
        | succ l ih =>
          intro c v
          have hb : 0 < base ^ l := Nat.pow_pos (by decide)
          have e : c * base ^ (l + 1) + v = (c * base) * base ^ l + v := by ring
          simp only [words]
          rw [e, ih (c * base) v]
          congr 1
          rw [Nat.add_comm, Nat.add_mul_div_right _ _ hb]
          apply BitVec.eq_of_toNat_eq
          simp only [BitVec.toNat_ofNat]
          exact Nat.add_mul_mod_self_right _ _ _
      rw [key, ih]

theorem norm_length_le (a : List Word) : (norm a).length ≤ a.length := (List.dropWhile_sublist _).length_le

/-- Dropping leading zero words keeps the value. -/
@[simp] theorem val_norm (a : List Word) : val (norm a) = val a := by
  induction a with
  | nil => rfl
  | cons x xs ih =>
    by_cases hx : x = 0
    · subst hx
      have : norm (0 :: xs) = norm xs := by simp [norm]
      rw [this, ih, val_cons]
      simp
    · have : (x == 0) = false := by simpa using hx
      rw [norm, List.dropWhile_cons, this]
      rfl

/-- `norm` gives a normalized array. -/
theorem isNormalized_norm (a : List Word) : isNormalized (norm a) = true := by
  induction a with
  | nil => rfl
  | cons x xs ih =>
    by_cases hx : x = 0
    · subst hx
      simpa [norm] using ih
    · have : (x == 0) = false := by simpa using hx
      rw [norm, List.dropWhile_cons, this]
      simpa [isNormalized] using hx

/-- A normalized array is its own `norm`. -/
theorem norm_of_isNormalized {a : List Word} (h : isNormalized a = true) : norm a = a := by
  cases a with
  | nil => rfl
  | cons x xs => simp_all [norm, isNormalized]

@[simp] theorem bytesOf_length (v n : Nat) : (bytesOf v n).length = n := by
  induction n with
  | zero => rfl
  | succ n ih => simp [bytesOf, ih]

@[simp] theorem montRed_length (n : List Word) (ninv : DWord) (t : Nat) : (montRed n ninv t).length = n.length := by
  simp [montRed]

@[simp] theorem montForm_length (n : List Word) (x : Nat) : (montForm n x).length = n.length := by
  simp [montForm]

/-- `powMod` is the power modulo `n`. -/
theorem powMod_eq (b e n : Nat) : powMod b e n = b ^ e % n := by
  have key : ∀ fuel e, bitlen e ≤ fuel → powModFuel fuel b e n = b ^ e % n := by
    intro fuel
    induction fuel with
    | zero =>
      intro e he
      have : e = 0 := by
        by_contra h
        simp [bitlen, h] at he
      simp [this, powModFuel]
    | succ fuel ih =>
      intro e he
      by_cases h0 : e = 0
      · simp [h0, powModFuel]
      · have hlen : bitlen (e / 2) ≤ fuel := by
          by_cases h1 : e / 2 = 0
          · simp [bitlen, h1]
          · have hl : Nat.log2 e = Nat.log2 (e / 2) + 1 := by
              rw [Nat.log2_def]
              have : 2 ≤ e := by omega
              simp [this]
            simp only [bitlen, h0, h1, if_false] at he ⊢
            omega
        simp only [powModFuel, h0, if_false, ih _ hlen]
        rcases Nat.mod_two_eq_zero_or_one e with h2 | h2
        · have e2 : e = e / 2 + e / 2 := by omega
          conv_rhs => rw [e2, pow_add]
          simp [h2, Nat.mul_mod]
        · have e2 : e = e / 2 + e / 2 + 1 := by omega
          conv_rhs => rw [e2, pow_succ, pow_add]
          simp [h2, Nat.mul_mod]
  exact key _ _ le_rfl

end Sys2Proof.Machine
end

