-- ==== Sys2Proof/Laws/Memory.lean ====
section
/-! SUPPORT. The I/O buffer's list: reading after writing, and the canonical form kept by every memory operation. -/

namespace Sys2Proof.Machine

open Sys2Proof

/-- A canonical list from `lo` up reads blank below `lo`. -/
theorem Memory.read_below {lo : Nat} {m : Memory} (h : Memory.wfFrom lo m = true) {j : Nat} (hj : j < lo) :
    Memory.read m j = blankByte := by
  cases m with
  | nil => rfl
  | cons c rest =>
    obtain ⟨k, b⟩ := c
    simp only [Memory.wfFrom, Bool.and_eq_true, decide_eq_true_eq] at h
    have h1 : k ≠ j := by omega
    have h2 : j < k := by omega
    simp [Memory.read, h1, h2]

/-- Lowering the bound keeps the canonical form. -/
theorem Memory.wfFrom_mono {lo lo' : Nat} {m : Memory} (h : Memory.wfFrom lo m = true) (hl : lo' ≤ lo) :
    Memory.wfFrom lo' m = true := by
  cases m with
  | nil => rfl
  | cons c rest =>
    obtain ⟨k, b⟩ := c
    simp only [Memory.wfFrom, Bool.and_eq_true, decide_eq_true_eq] at h ⊢
    exact ⟨⟨⟨by omega, h.1.1.2⟩, h.1.2⟩, h.2⟩

/-- One write keeps the canonical form from any bound at or below its index. -/
theorem Memory.wfFrom_write {lo : Nat} {m : Memory} (h : Memory.wfFrom lo m = true) {j : Nat} (b : Byte)
    (hlo : lo ≤ j) (hj : j < Config.iobBytes) : Memory.wfFrom lo (Memory.write m j b) = true := by
  induction m generalizing lo with
  | nil =>
    by_cases hb : b = blankByte
    · simp [Memory.write, Memory.wfFrom, hb]
    · simp [Memory.write, Memory.wfFrom, hb, hlo, hj]
  | cons c rest ih =>
    obtain ⟨k, x⟩ := c
    simp only [Memory.wfFrom, Bool.and_eq_true, decide_eq_true_eq, bne_iff_ne, ne_eq] at h
    obtain ⟨⟨⟨h1, h2⟩, h3⟩, h4⟩ := h
    simp only [Memory.write]
    split
    · rename_i hjk
      by_cases hb : b = blankByte
      · simp [Memory.wfFrom, hb, h1, h2, h3, h4]
      · simp [Memory.wfFrom, hb, h2, h3, h4, hlo, hj, hjk]
    · split
      · rename_i hjk
        by_cases hb : b = blankByte
        · simp only [hb, if_true]
          exact Memory.wfFrom_mono h4 (by omega)
        · subst hjk
          simp [Memory.wfFrom, hb, hlo, hj, h4]
      · rename_i hn1 hn2
        simp [Memory.wfFrom, h1, h2, h3, ih h4 (by omega)]

/-- A write inside the buffer keeps the canonical form. -/
theorem Memory.wf_write {m : Memory} (h : Memory.wf m = true) {j : Nat} (b : Byte) (hj : j < Config.iobBytes) :
    Memory.wf (Memory.write m j b) = true := Memory.wfFrom_write h b (Nat.zero_le _) hj

/-- A run of writes inside the buffer keeps the canonical form. -/
theorem Memory.wf_writeBytes {m : Memory} (h : Memory.wf m = true) {j : Nat} {bs : List Byte}
    (hj : j + bs.length ≤ Config.iobBytes) : Memory.wf (Memory.writeBytes m j bs) = true := by
  induction bs generalizing m j with
  | nil => exact h
  | cons b bs ih =>
    simp only [List.length_cons] at hj
    exact ih (Memory.wf_write h b (by omega)) (by omega)

/-- A big-endian word write inside the buffer keeps the canonical form. -/
theorem Memory.wf_writeWord {m : Memory} (h : Memory.wf m = true) {j : Nat} (v : Word) (hj : j + 4 ≤ Config.iobBytes) :
    Memory.wf (Memory.writeWord m j v) = true := Memory.wf_writeBytes h (by simpa using hj)

theorem Memory.read_write_from {lo : Nat} {m : Memory} (h : Memory.wfFrom lo m = true) (j : Nat) (b : Byte) (i : Nat) :
    Memory.read (Memory.write m j b) i = if i = j then b else Memory.read m i := by
  induction m generalizing lo with
  | nil =>
    by_cases hb : b = blankByte
    · simp [Memory.write, Memory.read, hb]
    · by_cases hij : i = j
      · simp [Memory.write, Memory.read, hb, hij]
      · have : j ≠ i := fun e => hij e.symm
        simp [Memory.write, Memory.read, hb, hij, this]
  | cons c rest ih =>
    obtain ⟨k, x⟩ := c
    simp only [Memory.wfFrom, Bool.and_eq_true, decide_eq_true_eq] at h
    obtain ⟨⟨⟨h1, h2⟩, h3⟩, h4⟩ := h
    simp only [Memory.write]
    split
    · rename_i hjk
      by_cases hb : b = blankByte
      · by_cases hij : i = j
        · subst hij
          have : k ≠ i := by omega
          simp [Memory.read, hb, this, hjk]
        · simp [hb, hij]
      · by_cases hij : i = j
        · simp [Memory.read, hb, hij]
        · have : j ≠ i := fun e => hij e.symm
          by_cases hlt : i < j
          · have h5 : k ≠ i := by omega
            have h6 : i < k := by omega
            simp [Memory.read, hb, hij, this, hlt, h5, h6]
          · simp [Memory.read, hb, hij, this, hlt]
    · split
      · rename_i hjk
        subst hjk
        by_cases hij : i = j
        · subst hij
          by_cases hb : b = blankByte
          · simp [hb, Memory.read_below h4 (Nat.lt_succ_self i)]
          · simp [Memory.read, hb]
        · have : j ≠ i := fun e => hij e.symm
          by_cases hb : b = blankByte
          · by_cases hlt : i < j
            · have := Memory.read_below h4 (show i < j + 1 by omega)
              simp_all [Memory.read]
            · simp [Memory.read, hb, hij, this, hlt]
          · simp [Memory.read, hb, hij, this]
      · rename_i hn1 hn2
        simp only [Memory.read, ih h4]
        by_cases hij : i = j
        · subst hij
          have h5 : k ≠ i := fun e => hn2 e.symm
          simp [h5, hn1]
        · simp [hij]

/-- A read after a write: the written byte at its index, the old byte everywhere else. -/
theorem Memory.read_write {m : Memory} (h : Memory.wf m = true) (j : Nat) (b : Byte) (i : Nat) :
    Memory.read (Memory.write m j b) i = if i = j then b else Memory.read m i := Memory.read_write_from h j b i

/-- A read after a run of writes inside the buffer: the run's byte inside it, the old byte everywhere else. -/
theorem Memory.read_writeBytes {m : Memory} (h : Memory.wf m = true) {j : Nat} {bs : List Byte}
    (hj : j + bs.length ≤ Config.iobBytes) (i : Nat) :
    Memory.read (Memory.writeBytes m j bs) i =
      if j ≤ i ∧ i < j + bs.length then bs.getD (i - j) 0 else Memory.read m i := by
  induction bs generalizing m j with
  | nil =>
    have : ¬ (j ≤ i ∧ i < j) := by omega
    simp [Memory.writeBytes, this]
  | cons b bs ih =>
    simp only [List.length_cons] at hj
    simp only [Memory.writeBytes, List.length_cons]
    rw [ih (Memory.wf_write h b (by omega)) (by omega), Memory.read_write h]
    by_cases hij : i = j
    · subst hij
      simp
    · by_cases hin : j + 1 ≤ i ∧ i < j + 1 + bs.length
      · have h2 : j ≤ i ∧ i < j + (bs.length + 1) := by omega
        have h3 : i - j = (i - (j + 1)) + 1 := by omega
        rw [if_pos hin, if_pos h2, h3, List.getD_cons_succ]
      · have h2 : ¬ (j ≤ i ∧ i < j + (bs.length + 1)) := by omega
        rw [if_neg hin, if_neg h2, if_neg hij]

theorem Memory.readBytes_length (m : Memory) (j n : Nat) : (Memory.readBytes m j n).length = n := by
  induction n generalizing j with
  | zero => rfl
  | succ n ih => simp [Memory.readBytes, ih]

end Sys2Proof.Machine
end

