-- ==== Sys2Proof/Laws/State.lean ====
section
/-! SUPPORT. One lemma for each field and each update of the state, and what the accessors read after an update. -/

namespace Sys2Proof.Machine

open Sys2Proof

/-! ### Replacing one part -/

@[simp] theorem State.setReg_w (s : State) (r : WReg) (x : WideReg) : (s.setReg r x).w = s.w.set r x := rfl
@[simp] theorem State.setReg_flags (s : State) (r : WReg) (x : WideReg) : (s.setReg r x).flags = s.flags := rfl
@[simp] theorem State.setReg_ctx (s : State) (r : WReg) (x : WideReg) : (s.setReg r x).ctx = s.ctx := rfl
@[simp] theorem State.setReg_iob (s : State) (r : WReg) (x : WideReg) : (s.setReg r x).iob = s.iob := rfl
@[simp] theorem State.setReg_cmdreg (s : State) (r : WReg) (x : WideReg) : (s.setReg r x).cmdreg = s.cmdreg := rfl
@[simp] theorem State.setReg_engine (s : State) (r : WReg) (x : WideReg) : (s.setReg r x).engine = s.engine := rfl
@[simp] theorem State.setReg_done (s : State) (r : WReg) (x : WideReg) : (s.setReg r x).done = s.done := rfl
@[simp] theorem State.setReg_buserr (s : State) (r : WReg) (x : WideReg) : (s.setReg r x).buserr = s.buserr := rfl
@[simp] theorem State.setReg_errcode (s : State) (r : WReg) (x : WideReg) : (s.setReg r x).errcode = s.errcode := rfl
@[simp] theorem State.setReg_errinfo (s : State) (r : WReg) (x : WideReg) : (s.setReg r x).errinfo = s.errinfo := rfl
@[simp] theorem State.setReg_hidden (s : State) (r : WReg) (x : WideReg) : (s.setReg r x).hidden = s.hidden := rfl
@[simp] theorem State.setReg_readData (s : State) (r : WReg) (x : WideReg) : (s.setReg r x).readData = s.readData := rfl
@[simp] theorem State.setReg_events (s : State) (r : WReg) (x : WideReg) : (s.setReg r x).events = s.events := rfl
@[simp] theorem State.setReg_freeCtr (s : State) (r : WReg) (x : WideReg) : (s.setReg r x).freeCtr = s.freeCtr := rfl

@[simp] theorem State.writeReg_w (s : State) (rd : WReg) (a : List Word) : (s.writeReg rd a).w = s.w.set rd (WideReg.ofArray a) := rfl
@[simp] theorem State.writeReg_flags (s : State) (rd : WReg) (a : List Word) : (s.writeReg rd a).flags = s.flags := rfl
@[simp] theorem State.writeReg_ctx (s : State) (rd : WReg) (a : List Word) : (s.writeReg rd a).ctx = s.ctx := rfl
@[simp] theorem State.writeReg_iob (s : State) (rd : WReg) (a : List Word) : (s.writeReg rd a).iob = s.iob := rfl
@[simp] theorem State.writeReg_cmdreg (s : State) (rd : WReg) (a : List Word) : (s.writeReg rd a).cmdreg = s.cmdreg := rfl
@[simp] theorem State.writeReg_engine (s : State) (rd : WReg) (a : List Word) : (s.writeReg rd a).engine = s.engine := rfl
@[simp] theorem State.writeReg_done (s : State) (rd : WReg) (a : List Word) : (s.writeReg rd a).done = s.done := rfl
@[simp] theorem State.writeReg_buserr (s : State) (rd : WReg) (a : List Word) : (s.writeReg rd a).buserr = s.buserr := rfl
@[simp] theorem State.writeReg_errcode (s : State) (rd : WReg) (a : List Word) : (s.writeReg rd a).errcode = s.errcode := rfl
@[simp] theorem State.writeReg_errinfo (s : State) (rd : WReg) (a : List Word) : (s.writeReg rd a).errinfo = s.errinfo := rfl
@[simp] theorem State.writeReg_hidden (s : State) (rd : WReg) (a : List Word) : (s.writeReg rd a).hidden = s.hidden := rfl
@[simp] theorem State.writeReg_readData (s : State) (rd : WReg) (a : List Word) : (s.writeReg rd a).readData = s.readData := rfl
@[simp] theorem State.writeReg_events (s : State) (rd : WReg) (a : List Word) : (s.writeReg rd a).events = s.events := rfl
@[simp] theorem State.writeReg_freeCtr (s : State) (rd : WReg) (a : List Word) : (s.writeReg rd a).freeCtr = s.freeCtr := rfl

@[simp] theorem State.setCmp_w (s : State) (c : BitVec 2) : (s.setCmp c).w = s.w := rfl
@[simp] theorem State.setCmp_flags (s : State) (c : BitVec 2) : (s.setCmp c).flags = ⟨c, s.flags.c⟩ := rfl
@[simp] theorem State.setCmp_ctx (s : State) (c : BitVec 2) : (s.setCmp c).ctx = s.ctx := rfl
@[simp] theorem State.setCmp_iob (s : State) (c : BitVec 2) : (s.setCmp c).iob = s.iob := rfl
@[simp] theorem State.setCmp_cmdreg (s : State) (c : BitVec 2) : (s.setCmp c).cmdreg = s.cmdreg := rfl
@[simp] theorem State.setCmp_engine (s : State) (c : BitVec 2) : (s.setCmp c).engine = s.engine := rfl
@[simp] theorem State.setCmp_done (s : State) (c : BitVec 2) : (s.setCmp c).done = s.done := rfl
@[simp] theorem State.setCmp_buserr (s : State) (c : BitVec 2) : (s.setCmp c).buserr = s.buserr := rfl
@[simp] theorem State.setCmp_errcode (s : State) (c : BitVec 2) : (s.setCmp c).errcode = s.errcode := rfl
@[simp] theorem State.setCmp_errinfo (s : State) (c : BitVec 2) : (s.setCmp c).errinfo = s.errinfo := rfl
@[simp] theorem State.setCmp_hidden (s : State) (c : BitVec 2) : (s.setCmp c).hidden = s.hidden := rfl
@[simp] theorem State.setCmp_readData (s : State) (c : BitVec 2) : (s.setCmp c).readData = s.readData := rfl
@[simp] theorem State.setCmp_events (s : State) (c : BitVec 2) : (s.setCmp c).events = s.events := rfl
@[simp] theorem State.setCmp_freeCtr (s : State) (c : BitVec 2) : (s.setCmp c).freeCtr = s.freeCtr := rfl

@[simp] theorem State.setCarry_w (s : State) (c : Bool) : (s.setCarry c).w = s.w := rfl
@[simp] theorem State.setCarry_flags (s : State) (c : Bool) : (s.setCarry c).flags = ⟨s.flags.cmp, c⟩ := rfl
@[simp] theorem State.setCarry_ctx (s : State) (c : Bool) : (s.setCarry c).ctx = s.ctx := rfl
@[simp] theorem State.setCarry_iob (s : State) (c : Bool) : (s.setCarry c).iob = s.iob := rfl
@[simp] theorem State.setCarry_cmdreg (s : State) (c : Bool) : (s.setCarry c).cmdreg = s.cmdreg := rfl
@[simp] theorem State.setCarry_engine (s : State) (c : Bool) : (s.setCarry c).engine = s.engine := rfl
@[simp] theorem State.setCarry_done (s : State) (c : Bool) : (s.setCarry c).done = s.done := rfl
@[simp] theorem State.setCarry_buserr (s : State) (c : Bool) : (s.setCarry c).buserr = s.buserr := rfl
@[simp] theorem State.setCarry_errcode (s : State) (c : Bool) : (s.setCarry c).errcode = s.errcode := rfl
@[simp] theorem State.setCarry_errinfo (s : State) (c : Bool) : (s.setCarry c).errinfo = s.errinfo := rfl
@[simp] theorem State.setCarry_hidden (s : State) (c : Bool) : (s.setCarry c).hidden = s.hidden := rfl
@[simp] theorem State.setCarry_readData (s : State) (c : Bool) : (s.setCarry c).readData = s.readData := rfl
@[simp] theorem State.setCarry_events (s : State) (c : Bool) : (s.setCarry c).events = s.events := rfl
@[simp] theorem State.setCarry_freeCtr (s : State) (c : Bool) : (s.setCarry c).freeCtr = s.freeCtr := rfl

@[simp] theorem State.loadCtx_w (s : State) (n : List Word) : (s.loadCtx n).w = s.w := rfl
@[simp] theorem State.loadCtx_flags (s : State) (n : List Word) : (s.loadCtx n).flags = s.flags := rfl
@[simp] theorem State.loadCtx_ctx (s : State) (n : List Word) : (s.loadCtx n).ctx = MontCtx.ofModulus s.freeCtr n := rfl
@[simp] theorem State.loadCtx_iob (s : State) (n : List Word) : (s.loadCtx n).iob = s.iob := rfl
@[simp] theorem State.loadCtx_cmdreg (s : State) (n : List Word) : (s.loadCtx n).cmdreg = s.cmdreg := rfl
@[simp] theorem State.loadCtx_engine (s : State) (n : List Word) : (s.loadCtx n).engine = s.engine := rfl
@[simp] theorem State.loadCtx_done (s : State) (n : List Word) : (s.loadCtx n).done = s.done := rfl
@[simp] theorem State.loadCtx_buserr (s : State) (n : List Word) : (s.loadCtx n).buserr = s.buserr := rfl
@[simp] theorem State.loadCtx_errcode (s : State) (n : List Word) : (s.loadCtx n).errcode = s.errcode := rfl
@[simp] theorem State.loadCtx_errinfo (s : State) (n : List Word) : (s.loadCtx n).errinfo = s.errinfo := rfl
@[simp] theorem State.loadCtx_hidden (s : State) (n : List Word) : (s.loadCtx n).hidden = s.hidden := rfl
@[simp] theorem State.loadCtx_readData (s : State) (n : List Word) : (s.loadCtx n).readData = s.readData := rfl
@[simp] theorem State.loadCtx_events (s : State) (n : List Word) : (s.loadCtx n).events = s.events := rfl
@[simp] theorem State.loadCtx_freeCtr (s : State) (n : List Word) : (s.loadCtx n).freeCtr = s.freeCtr := rfl

@[simp] theorem State.setIob_w (s : State) (m : Memory) : (s.setIob m).w = s.w := rfl
@[simp] theorem State.setIob_flags (s : State) (m : Memory) : (s.setIob m).flags = s.flags := rfl
@[simp] theorem State.setIob_ctx (s : State) (m : Memory) : (s.setIob m).ctx = s.ctx := rfl
@[simp] theorem State.setIob_iob (s : State) (m : Memory) : (s.setIob m).iob = m := rfl
@[simp] theorem State.setIob_cmdreg (s : State) (m : Memory) : (s.setIob m).cmdreg = s.cmdreg := rfl
@[simp] theorem State.setIob_engine (s : State) (m : Memory) : (s.setIob m).engine = s.engine := rfl
@[simp] theorem State.setIob_done (s : State) (m : Memory) : (s.setIob m).done = s.done := rfl
@[simp] theorem State.setIob_buserr (s : State) (m : Memory) : (s.setIob m).buserr = s.buserr := rfl
@[simp] theorem State.setIob_errcode (s : State) (m : Memory) : (s.setIob m).errcode = s.errcode := rfl
@[simp] theorem State.setIob_errinfo (s : State) (m : Memory) : (s.setIob m).errinfo = s.errinfo := rfl
@[simp] theorem State.setIob_hidden (s : State) (m : Memory) : (s.setIob m).hidden = s.hidden := rfl
@[simp] theorem State.setIob_readData (s : State) (m : Memory) : (s.setIob m).readData = s.readData := rfl
@[simp] theorem State.setIob_events (s : State) (m : Memory) : (s.setIob m).events = s.events := rfl
@[simp] theorem State.setIob_freeCtr (s : State) (m : Memory) : (s.setIob m).freeCtr = s.freeCtr := rfl

@[simp] theorem State.scrambleIob_w (s : State) (wd : Nat) : (s.scrambleIob wd).w = s.w := rfl
@[simp] theorem State.scrambleIob_flags (s : State) (wd : Nat) : (s.scrambleIob wd).flags = s.flags := rfl
@[simp] theorem State.scrambleIob_ctx (s : State) (wd : Nat) : (s.scrambleIob wd).ctx = s.ctx := rfl
@[simp] theorem State.scrambleIob_cmdreg (s : State) (wd : Nat) : (s.scrambleIob wd).cmdreg = s.cmdreg := rfl
@[simp] theorem State.scrambleIob_engine (s : State) (wd : Nat) : (s.scrambleIob wd).engine = s.engine := rfl
@[simp] theorem State.scrambleIob_done (s : State) (wd : Nat) : (s.scrambleIob wd).done = s.done := rfl
@[simp] theorem State.scrambleIob_buserr (s : State) (wd : Nat) : (s.scrambleIob wd).buserr = s.buserr := rfl
@[simp] theorem State.scrambleIob_errcode (s : State) (wd : Nat) : (s.scrambleIob wd).errcode = s.errcode := rfl
@[simp] theorem State.scrambleIob_errinfo (s : State) (wd : Nat) : (s.scrambleIob wd).errinfo = s.errinfo := rfl
@[simp] theorem State.scrambleIob_hidden (s : State) (wd : Nat) : (s.scrambleIob wd).hidden = s.hidden := rfl
@[simp] theorem State.scrambleIob_readData (s : State) (wd : Nat) : (s.scrambleIob wd).readData = s.readData := rfl
@[simp] theorem State.scrambleIob_events (s : State) (wd : Nat) : (s.scrambleIob wd).events = s.events := rfl
@[simp] theorem State.scrambleIob_freeCtr (s : State) (wd : Nat) : (s.scrambleIob wd).freeCtr = s.freeCtr := rfl

/-! ### Ending a command -/

@[simp] theorem State.releaseHidden_w (s : State) : (s.releaseHidden).w = s.w := rfl
@[simp] theorem State.releaseHidden_flags (s : State) : (s.releaseHidden).flags = s.flags := rfl
@[simp] theorem State.releaseHidden_ctx (s : State) : (s.releaseHidden).ctx = s.ctx := rfl
@[simp] theorem State.releaseHidden_iob (s : State) : (s.releaseHidden).iob = s.iob := rfl
@[simp] theorem State.releaseHidden_cmdreg (s : State) : (s.releaseHidden).cmdreg = s.cmdreg := rfl
@[simp] theorem State.releaseHidden_engine (s : State) : (s.releaseHidden).engine = s.engine := rfl
@[simp] theorem State.releaseHidden_done (s : State) : (s.releaseHidden).done = s.done := rfl
@[simp] theorem State.releaseHidden_buserr (s : State) : (s.releaseHidden).buserr = s.buserr := rfl
@[simp] theorem State.releaseHidden_errcode (s : State) : (s.releaseHidden).errcode = s.errcode := rfl
@[simp] theorem State.releaseHidden_errinfo (s : State) : (s.releaseHidden).errinfo = s.errinfo := rfl
@[simp] theorem State.releaseHidden_hidden (s : State) : (s.releaseHidden).hidden = freeHidden s.freeCtr s.ctx.mlen.toNat := rfl
@[simp] theorem State.releaseHidden_readData (s : State) : (s.releaseHidden).readData = s.readData := rfl
@[simp] theorem State.releaseHidden_events (s : State) : (s.releaseHidden).events = s.events := rfl
@[simp] theorem State.releaseHidden_freeCtr (s : State) : (s.releaseHidden).freeCtr = s.freeCtr + 1 := rfl

@[simp] theorem State.complete_w (s : State) : (s.complete).w = s.w := rfl
@[simp] theorem State.complete_flags (s : State) : (s.complete).flags = s.flags := rfl
@[simp] theorem State.complete_ctx (s : State) : (s.complete).ctx = s.ctx := rfl
@[simp] theorem State.complete_iob (s : State) : (s.complete).iob = s.iob := rfl
@[simp] theorem State.complete_cmdreg (s : State) : (s.complete).cmdreg = s.cmdreg := rfl
@[simp] theorem State.complete_engine (s : State) : (s.complete).engine = .idle := rfl
@[simp] theorem State.complete_done (s : State) : (s.complete).done = true := rfl
@[simp] theorem State.complete_buserr (s : State) : (s.complete).buserr = s.buserr := rfl
@[simp] theorem State.complete_errcode (s : State) : (s.complete).errcode = 0 := rfl
@[simp] theorem State.complete_errinfo (s : State) : (s.complete).errinfo = 0 := rfl
@[simp] theorem State.complete_hidden (s : State) : (s.complete).hidden = freeHidden s.freeCtr s.ctx.mlen.toNat := rfl
@[simp] theorem State.complete_readData (s : State) : (s.complete).readData = s.readData := rfl
@[simp] theorem State.complete_events (s : State) : (s.complete).events = s.events := rfl
@[simp] theorem State.complete_freeCtr (s : State) : (s.complete).freeCtr = s.freeCtr + 1 := rfl

@[simp] theorem State.invalidate_flags (s : State) (rd : Option WReg) : (s.invalidate rd).flags = s.flags := by cases rd <;> rfl
@[simp] theorem State.invalidate_ctx (s : State) (rd : Option WReg) : (s.invalidate rd).ctx = s.ctx := by cases rd <;> rfl
@[simp] theorem State.invalidate_iob (s : State) (rd : Option WReg) : (s.invalidate rd).iob = s.iob := by cases rd <;> rfl
@[simp] theorem State.invalidate_cmdreg (s : State) (rd : Option WReg) : (s.invalidate rd).cmdreg = s.cmdreg := by cases rd <;> rfl
@[simp] theorem State.invalidate_engine (s : State) (rd : Option WReg) : (s.invalidate rd).engine = s.engine := by cases rd <;> rfl
@[simp] theorem State.invalidate_done (s : State) (rd : Option WReg) : (s.invalidate rd).done = s.done := by cases rd <;> rfl
@[simp] theorem State.invalidate_buserr (s : State) (rd : Option WReg) : (s.invalidate rd).buserr = s.buserr := by cases rd <;> rfl
@[simp] theorem State.invalidate_errcode (s : State) (rd : Option WReg) : (s.invalidate rd).errcode = s.errcode := by cases rd <;> rfl
@[simp] theorem State.invalidate_errinfo (s : State) (rd : Option WReg) : (s.invalidate rd).errinfo = s.errinfo := by cases rd <;> rfl
@[simp] theorem State.invalidate_hidden (s : State) (rd : Option WReg) : (s.invalidate rd).hidden = s.hidden := by cases rd <;> rfl
@[simp] theorem State.invalidate_readData (s : State) (rd : Option WReg) : (s.invalidate rd).readData = s.readData := by cases rd <;> rfl
@[simp] theorem State.invalidate_events (s : State) (rd : Option WReg) : (s.invalidate rd).events = s.events := by cases rd <;> rfl
@[simp] theorem State.invalidate_freeCtr (s : State) (rd : Option WReg) : (s.invalidate rd).freeCtr = s.freeCtr := by cases rd <;> rfl

@[simp] theorem State.raiseFault_w (s : State) (c : Cause) (rd : Option WReg) : (s.raiseFault c rd).w = (s.invalidate rd).w := by cases rd <;> rfl
@[simp] theorem State.raiseFault_flags (s : State) (c : Cause) (rd : Option WReg) : (s.raiseFault c rd).flags = s.flags := by cases rd <;> rfl
@[simp] theorem State.raiseFault_ctx (s : State) (c : Cause) (rd : Option WReg) : (s.raiseFault c rd).ctx = s.ctx := by cases rd <;> rfl
@[simp] theorem State.raiseFault_iob (s : State) (c : Cause) (rd : Option WReg) : (s.raiseFault c rd).iob = s.iob := by cases rd <;> rfl
@[simp] theorem State.raiseFault_cmdreg (s : State) (c : Cause) (rd : Option WReg) : (s.raiseFault c rd).cmdreg = s.cmdreg := by cases rd <;> rfl
@[simp] theorem State.raiseFault_engine (s : State) (c : Cause) (rd : Option WReg) : (s.raiseFault c rd).engine = .faulted := by cases rd <;> rfl
@[simp] theorem State.raiseFault_done (s : State) (c : Cause) (rd : Option WReg) : (s.raiseFault c rd).done = false := by cases rd <;> rfl
@[simp] theorem State.raiseFault_buserr (s : State) (c : Cause) (rd : Option WReg) : (s.raiseFault c rd).buserr = s.buserr := by cases rd <;> rfl
@[simp] theorem State.raiseFault_errcode (s : State) (c : Cause) (rd : Option WReg) : (s.raiseFault c rd).errcode = c.errClass.number := by cases rd <;> rfl
@[simp] theorem State.raiseFault_errinfo (s : State) (c : Cause) (rd : Option WReg) : (s.raiseFault c rd).errinfo = c.number := by cases rd <;> rfl
@[simp] theorem State.raiseFault_hidden (s : State) (c : Cause) (rd : Option WReg) : (s.raiseFault c rd).hidden = freeHidden s.freeCtr s.ctx.mlen.toNat := by cases rd <;> rfl
@[simp] theorem State.raiseFault_readData (s : State) (c : Cause) (rd : Option WReg) : (s.raiseFault c rd).readData = s.readData := by cases rd <;> rfl
@[simp] theorem State.raiseFault_events (s : State) (c : Cause) (rd : Option WReg) : (s.raiseFault c rd).events = s.events := by cases rd <;> rfl
@[simp] theorem State.raiseFault_freeCtr (s : State) (c : Cause) (rd : Option WReg) : (s.raiseFault c rd).freeCtr = s.freeCtr + 1 := by cases rd <;> rfl

/-! ### Leaving FAULTED, starting a command, reset -/

@[simp] theorem State.acknowledge_w (s : State) : (s.acknowledge).w = s.w := by unfold State.acknowledge; split <;> rfl
@[simp] theorem State.acknowledge_flags (s : State) : (s.acknowledge).flags = s.flags := by unfold State.acknowledge; split <;> rfl
@[simp] theorem State.acknowledge_ctx (s : State) : (s.acknowledge).ctx = s.ctx := by unfold State.acknowledge; split <;> rfl
@[simp] theorem State.acknowledge_iob (s : State) : (s.acknowledge).iob = s.iob := by unfold State.acknowledge; split <;> rfl
@[simp] theorem State.acknowledge_cmdreg (s : State) : (s.acknowledge).cmdreg = s.cmdreg := by unfold State.acknowledge; split <;> rfl
@[simp] theorem State.acknowledge_done (s : State) : (s.acknowledge).done = s.done := by unfold State.acknowledge; split <;> rfl
@[simp] theorem State.acknowledge_buserr (s : State) : (s.acknowledge).buserr = s.buserr := by unfold State.acknowledge; split <;> rfl
@[simp] theorem State.acknowledge_hidden (s : State) : (s.acknowledge).hidden = s.hidden := by unfold State.acknowledge; split <;> rfl
@[simp] theorem State.acknowledge_readData (s : State) : (s.acknowledge).readData = s.readData := by unfold State.acknowledge; split <;> rfl
@[simp] theorem State.acknowledge_events (s : State) : (s.acknowledge).events = s.events := by unfold State.acknowledge; split <;> rfl
@[simp] theorem State.acknowledge_freeCtr (s : State) : (s.acknowledge).freeCtr = s.freeCtr := by unfold State.acknowledge; split <;> rfl

@[simp] theorem State.startCommand_w (s : State) (v : Word) : (s.startCommand v).w = s.w := rfl
@[simp] theorem State.startCommand_flags (s : State) (v : Word) : (s.startCommand v).flags = s.flags := rfl
@[simp] theorem State.startCommand_ctx (s : State) (v : Word) : (s.startCommand v).ctx = s.ctx := rfl
@[simp] theorem State.startCommand_iob (s : State) (v : Word) : (s.startCommand v).iob = s.iob := rfl
@[simp] theorem State.startCommand_cmdreg (s : State) (v : Word) : (s.startCommand v).cmdreg = v := rfl
@[simp] theorem State.startCommand_engine (s : State) (v : Word) : (s.startCommand v).engine = .busy := rfl
@[simp] theorem State.startCommand_done (s : State) (v : Word) : (s.startCommand v).done = false := rfl
@[simp] theorem State.startCommand_buserr (s : State) (v : Word) : (s.startCommand v).buserr = s.buserr := rfl
@[simp] theorem State.startCommand_errcode (s : State) (v : Word) : (s.startCommand v).errcode = s.errcode := rfl
@[simp] theorem State.startCommand_errinfo (s : State) (v : Word) : (s.startCommand v).errinfo = s.errinfo := rfl
@[simp] theorem State.startCommand_hidden (s : State) (v : Word) : (s.startCommand v).hidden = s.hidden := rfl
@[simp] theorem State.startCommand_readData (s : State) (v : Word) : (s.startCommand v).readData = s.readData := rfl
@[simp] theorem State.startCommand_events (s : State) (v : Word) : (s.startCommand v).events = s.events := rfl
@[simp] theorem State.startCommand_freeCtr (s : State) (v : Word) : (s.startCommand v).freeCtr = s.freeCtr := rfl

@[simp] theorem State.applyReset_w (s : State) : (s.applyReset).w = State.reset.w := rfl
@[simp] theorem State.applyReset_flags (s : State) : (s.applyReset).flags = State.reset.flags := rfl
@[simp] theorem State.applyReset_ctx (s : State) : (s.applyReset).ctx = State.reset.ctx := rfl
@[simp] theorem State.applyReset_iob (s : State) : (s.applyReset).iob = State.reset.iob := rfl
@[simp] theorem State.applyReset_cmdreg (s : State) : (s.applyReset).cmdreg = State.reset.cmdreg := rfl
@[simp] theorem State.applyReset_engine (s : State) : (s.applyReset).engine = State.reset.engine := rfl
@[simp] theorem State.applyReset_done (s : State) : (s.applyReset).done = State.reset.done := rfl
@[simp] theorem State.applyReset_buserr (s : State) : (s.applyReset).buserr = State.reset.buserr := rfl
@[simp] theorem State.applyReset_errcode (s : State) : (s.applyReset).errcode = State.reset.errcode := rfl
@[simp] theorem State.applyReset_errinfo (s : State) : (s.applyReset).errinfo = State.reset.errinfo := rfl
@[simp] theorem State.applyReset_hidden (s : State) : (s.applyReset).hidden = freeHidden s.freeCtr 0 := rfl
@[simp] theorem State.applyReset_readData (s : State) : (s.applyReset).readData = s.readData := rfl
@[simp] theorem State.applyReset_events (s : State) : (s.applyReset).events = s.events := rfl
@[simp] theorem State.applyReset_freeCtr (s : State) : (s.applyReset).freeCtr = s.freeCtr + 1 := rfl

/-! ### Registers after an update -/

@[simp] theorem State.reg_setReg_self (s : State) (r : WReg) (x : WideReg) : (s.setReg r x).reg r = x := by
  simp [State.reg]

theorem State.reg_setReg_of_ne (s : State) {r r' : WReg} (x : WideReg) (h : r' ≠ r) :
    (s.setReg r x).reg r' = s.reg r' := by
  have : (r : Nat) ≠ (r' : Nat) := fun e => h (Fin.ext e.symm)
  simp [State.reg, this]

@[simp] theorem State.reg_writeReg_self (s : State) (r : WReg) (a : List Word) :
    (s.writeReg r a).reg r = WideReg.ofArray a := State.reg_setReg_self s r _

theorem State.reg_writeReg_of_ne (s : State) {r r' : WReg} (a : List Word) (h : r' ≠ r) :
    (s.writeReg r a).reg r' = s.reg r' := State.reg_setReg_of_ne s _ h

@[simp] theorem State.reg_setCmp (s : State) (c : BitVec 2) (r : WReg) : (s.setCmp c).reg r = s.reg r := rfl
@[simp] theorem State.reg_setCarry (s : State) (c : Bool) (r : WReg) : (s.setCarry c).reg r = s.reg r := rfl
@[simp] theorem State.reg_loadCtx (s : State) (n : List Word) (r : WReg) : (s.loadCtx n).reg r = s.reg r := rfl
@[simp] theorem State.reg_setIob (s : State) (m : Memory) (r : WReg) : (s.setIob m).reg r = s.reg r := rfl
@[simp] theorem State.reg_complete (s : State) (r : WReg) : s.complete.reg r = s.reg r := rfl
@[simp] theorem State.reg_raiseFault (s : State) (c : Cause) (rd : Option WReg) (r : WReg) :
    (s.raiseFault c rd).reg r = (s.invalidate rd).reg r := rfl
@[simp] theorem State.reg_invalidate_none (s : State) (r : WReg) : (s.invalidate none).reg r = s.reg r := rfl
@[simp] theorem State.reg_invalidate_self (s : State) (r : WReg) :
    (s.invalidate (some r)).reg r = WideReg.faulted s.freeCtr := State.reg_setReg_self s r _

theorem State.reg_invalidate_of_ne (s : State) {rd : Option WReg} {r : WReg} (h : rd ≠ some r) :
    (s.invalidate rd).reg r = s.reg r := by
  cases rd with
  | none => rfl
  | some d => exact State.reg_setReg_of_ne s _ fun e => h (e ▸ rfl)

@[simp] theorem WideReg.faulted_valid (ctr : Nat) : (WideReg.faulted ctr).valid = false := rfl
@[simp] theorem WideReg.ofArray_valid (a : List Word) : (WideReg.ofArray a).valid = true := rfl
@[simp] theorem WideReg.ofArray_off (a : List Word) : (WideReg.ofArray a).off = 0 := rfl
@[simp] theorem WideReg.ofArray_len (a : List Word) : (WideReg.ofArray a).len = BitVec.ofNat 8 a.length := rfl

end Sys2Proof.Machine
end

