-- ==== Sys2Proof/Laws/Ops.lean ====
section
/-! SUPPORT. One lemma for each shared operation that says once what it does: what a written register holds, what taking a fault and
completing leave, which of the two a command ends in, what loading the context leaves. -/

namespace Sys2Proof.Machine

open Sys2Proof

/-! ### Filling an array -/

theorem fillFrom_getElem (tail : Nat → Word) (n k : Nat) (a : List Word) (i : Nat) (h : i < (fillFrom tail n k a).length) :
    (fillFrom tail n k a)[i] = a.getD i (tail (k + i)) := by
  induction n generalizing k a i with
  | zero => simp [fillFrom] at h
  | succ n ih =>
    cases a with
    | nil =>
      cases i with
      | zero => simp [fillFrom]
      | succ i =>
        simp only [fillFrom, List.length_cons] at h
        simp only [fillFrom, List.getElem_cons_succ, ih, List.getD_nil]
        congr 1
        omega
    | cons x xs =>
      cases i with
      | zero => simp [fillFrom]
      | succ i =>
        simp only [fillFrom, List.length_cons] at h
        simp only [fillFrom, List.getElem_cons_succ, ih, List.getD_cons_succ]
        congr 2
        omega

/-- A prefix of a filled array is the array it was filled with. -/
theorem fillFrom_take (tail : Nat → Word) (n k : Nat) (a : List Word) (h : a.length ≤ n) :
    (fillFrom tail n k a).take a.length = a := by
  induction n generalizing k a with
  | zero =>
    have : a = [] := List.length_eq_zero_iff.mp (by omega)
    simp [this]
  | succ n ih =>
    cases a with
    | nil => simp
    | cons x xs =>
      simp only [List.length_cons] at h
      simp [fillFrom, ih (k + 1) xs (by omega)]

theorem fillVector_toList (tail : Nat → Word) (n : Nat) (a : List Word) :
    (fillVector tail n a).toList = fillFrom tail n 0 a := rfl

theorem fillVector_getElem (tail : Nat → Word) (n : Nat) (a : List Word) (k : Fin n) :
    (fillVector tail n a)[k] = a.getD k (tail k) := by
  have h : (k : Nat) < (fillFrom tail n 0 a).length := by
    rw [fillFrom_length]
    exact k.isLt
  have := fillFrom_getElem tail n 0 a k h
  rw [Nat.zero_add] at this
  exact this

/-- Free hidden storage has the spec's sizes. -/
theorem freeHidden_fits (ctr mlen : Nat) : (freeHidden ctr mlen).Fits mlen where
  slots := by simp [freeHidden]
  widths := by simp [freeHidden]
  scratch := by simp [freeHidden]

/-! ### Wide registers -/

/-- A view is never longer than the storage. -/
theorem WideReg.view_length_le (r : WideReg) : r.view.length ≤ Config.cap := by
  simp [WideReg.view]

theorem State.view_length_le (s : State) (r : WReg) : (s.view r).length ≤ Config.cap := WideReg.view_length_le _

/-- Where the view lies inside the register, it has `LEN` words. -/
theorem WideReg.view_length {r : WideReg} (h : r.Inside) : r.view.length = r.len.toNat := by
  simp only [WideReg.Inside] at h
  simp only [WideReg.view, List.length_take, List.length_drop, Vector.length_toList]
  omega

/-- The register an assignment leaves has the array as its view. -/
theorem WideReg.view_ofArray {a : List Word} (h : a.length ≤ Config.cap) : (WideReg.ofArray a).view = a := by
  have h8 : a.length < 2 ^ 8 := by
    have : Config.cap = 136 := rfl
    omega
  simp only [WideReg.view, WideReg.ofArray, fillVector_toList, BitVec.toNat_ofNat, Nat.mod_eq_of_lt h8]
  simpa using fillFrom_take (fun _ => 0) Config.cap 0 a h

/-- What `W[rd] <- a` leaves (R12, R24). -/
theorem State.writeReg_holds (s : State) (rd : WReg) {a : List Word} (h : a.length ≤ Config.cap) :
    (s.writeReg rd a).Holds rd a := by
  have h8 : a.length < 2 ^ 8 := by
    have : Config.cap = 136 := rfl
    omega
  refine ⟨by simp, by simp, ?_, ?_, ?_⟩
  · rw [State.reg_writeReg_self, WideReg.ofArray_len, BitVec.toNat_ofNat, Nat.mod_eq_of_lt h8]
  · rw [State.view, State.reg_writeReg_self, WideReg.view_ofArray h]
  · intro k
    rw [State.reg_writeReg_self]
    exact fillVector_getElem _ _ _ _

/-- `W[rd] <- a` leaves every other register alone. -/
theorem State.writeReg_sameRegsBut (s : State) (rd : WReg) (a : List Word) : SameRegsBut [rd] s (s.writeReg rd a) :=
  fun r hr => State.reg_writeReg_of_ne s a (by simpa using hr)

/-- The register an assignment of at most `CAP` words leaves is inside its storage. -/
theorem WideReg.ofArray_inside {a : List Word} (h : a.length ≤ Config.cap) : (WideReg.ofArray a).Inside := by
  have h8 : a.length < 2 ^ 8 := by
    have : Config.cap = 136 := rfl
    omega
  simp only [WideReg.Inside, WideReg.ofArray_off, WideReg.ofArray_len, BitVec.toNat_ofNat, Nat.mod_eq_of_lt h8]
  simpa using h

/-- The register a fault invalidates is inside its storage, whatever its free offset and length are (U1). -/
theorem WideReg.faulted_inside (ctr : Nat) : (WideReg.faulted ctr).Inside := by
  have h1 : freeOff ctr < Config.cap + 1 := Nat.mod_lt _ (by decide)
  have h2 : freeLen ctr < Config.cap + 1 - freeOff ctr := Nat.mod_lt _ (by omega)
  simp only [WideReg.Inside, WideReg.faulted, BitVec.toNat_ofNat]
  have : Config.cap = 136 := rfl
  omega

/-! ### The context -/

/-- A context loaded with at most `MAXW` words holds those words (R172, R192). -/
theorem MontCtx.modulus_ofModulus (ctr : Nat) {n : List Word} (h : n.length ≤ Config.maxW) :
    (MontCtx.ofModulus ctr n).modulus = n := by
  have h8 : n.length < 2 ^ 8 := by
    have : Config.maxW = 64 := rfl
    omega
  simp only [MontCtx.modulus, MontCtx.ofModulus, fillVector_toList, BitVec.toNat_ofNat, Nat.mod_eq_of_lt h8]
  exact fillFrom_take _ _ _ _ h

theorem MontCtx.mlen_ofModulus (ctr : Nat) {n : List Word} (h : n.length ≤ Config.maxW) :
    (MontCtx.ofModulus ctr n).mlen.toNat = n.length := by
  have : Config.maxW = 64 := rfl
  simp only [MontCtx.ofModulus, BitVec.toNat_ofNat]
  omega

/-! ### Ending a command -/

/-- What completing leaves (R29). -/
theorem State.complete_endedWell (s : State) : s.complete.EndedWell := ⟨rfl, rfl, rfl, rfl⟩

theorem State.complete_samePort (s : State) : SamePort s s.complete := ⟨rfl, rfl, rfl, rfl⟩

/-- What taking a fault leaves (R214). -/
theorem State.raiseFault_taken (s : State) (c : Cause) (rd : Option WReg) : FaultTaken s (s.raiseFault c rd) c rd := by
  refine ⟨by simp, by simp, by simp, by simp, by simp, ⟨by simp, by simp, by simp, by simp⟩, ?_, ?_⟩
  · intro r hr
    rw [State.reg_raiseFault, State.reg_invalidate_of_ne s hr]
  · rintro r rfl
    rw [State.reg_raiseFault, State.reg_invalidate_self]
    exact ⟨rfl, WideReg.faulted_inside _⟩

/-- Taking a fault leaves the context and the I/O buffer (R214). -/
theorem State.raiseFault_plain (s : State) (c : Cause) (rd : Option WReg) : PlainFault s (s.raiseFault c rd) c rd :=
  ⟨s.raiseFault_taken c rd, by simp, fun j => by simp⟩

/-- A command either faults with the first check that applies, or no check applies and it completes with its effect (R218). -/
theorem State.command_cases (s : State) (rd : Option WReg) (checks : List (Bool × Cause)) (effect : State) :
    (∃ c, firstFault checks = some c ∧ s.command rd checks effect = s.raiseFault c rd) ∨
      (firstFault checks = none ∧ s.command rd checks effect = effect.complete) := by
  unfold State.command
  cases firstFault checks with
  | none => exact .inr ⟨rfl, rfl⟩
  | some c => exact .inl ⟨c, rfl, rfl⟩

@[simp] theorem firstFault_nil : firstFault [] = none := rfl

theorem firstFault_cons (b : Bool) (c : Cause) (rest : List (Bool × Cause)) :
    firstFault ((b, c) :: rest) = if b then some c else firstFault rest := rfl

/-- No check applies exactly when every condition is false. -/
theorem firstFault_eq_none {checks : List (Bool × Cause)} : firstFault checks = none ↔ ∀ p ∈ checks, p.1 = false := by
  induction checks with
  | nil => simp
  | cons p rest ih =>
    obtain ⟨b, c⟩ := p
    cases b <;> simp [firstFault_cons, ih]

/-- The source check does not apply exactly when every source is valid (R213). -/
theorem State.someInvalid_eq_false {s : State} {rs : List WReg} : s.someInvalid rs = false ↔ s.AllValid rs := by
  simp [State.someInvalid, State.AllValid]

/-- A command that writes its destination, where no check applies: completed, the destination holding the array, the other registers,
the context, the I/O buffer and the port as before. -/
theorem State.complete_writeReg_wroteOnly (s : State) (rd : WReg) {a : List Word} (h : a.length ≤ Config.cap) :
    WroteOnly s (s.writeReg rd a).complete rd a :=
  ⟨State.complete_endedWell _, State.writeReg_holds s rd h, State.writeReg_sameRegsBut s rd a, rfl, fun _ => rfl,
    ⟨rfl, rfl, rfl, rfl⟩⟩

/-! ### The engine's turn -/

/-- A turn with nothing scheduled before it runs the decoded command (R29). -/
theorem step_of_engine_turn {s : State} (h : s.events = []) : step s = s.engineTurn := by
  simp [step, State.turn, h]

end Sys2Proof.Machine
end

