-- ==== Sys2Proof/Laws/PerInstr.lean ====
section
/-! SUPPORT. Statements made for every command one by one, as syntax. `OpcodeOfEncoding`: the word the encoder writes for a well-formed
command has, in bits 31:24, an opcode whose row of the table makes a command of the same mnemonic (spec/30_encoding.md R80, R85). -/

namespace Sys2Proof.Laws.OpcodeOfEncoding

open Sys2Proof

/-- The opcode field of the encoding names the command's own row. -/
def Statement (i : Instr) : Prop :=
  i.wellFormed = true →
    ∃ row, opcodeRow (field (encode i) 31 24) = some row ∧ ∀ f : Fields, (row.2 f).mnemonic = i.mnemonic

theorem formatR_opcode (op : Nat) (rd rs1 rs2 rs3 : WReg) (h : op < 2 ^ 8) :
    field (formatR op rd rs1 rs2 rs3) 31 24 = op := by
  have h0 := rd.isLt
  have h1 := rs1.isLt
  have h2 := rs2.isLt
  have h3 := rs3.isLt
  simp only [field, formatR, BitVec.toNat_ofNat]
  omega

theorem formatI_opcode (op : Nat) (rd rs1 : WReg) (imm : Nat) (h : op < 2 ^ 8) (hi : immFits imm = true) :
    field (formatI op rd rs1 imm) 31 24 = op := by
  have h0 := rd.isLt
  have h1 := rs1.isLt
  have h2 : imm < 2 ^ 16 := by simpa [immFits] using hi
  simp only [field, formatI, BitVec.toNat_ofNat]
  omega

theorem nop : Statement (.nop) := fun _ =>
  ⟨_, congrArg opcodeRow (formatR_opcode 0x0 0 0 0 0 (by decide)), fun _ => rfl⟩

theorem mov (rd : WReg) (rs1 : WReg) : Statement (.mov rd rs1) := fun _ =>
  ⟨_, congrArg opcodeRow (formatR_opcode 0x1 rd rs1 0 0 (by decide)), fun _ => rfl⟩

theorem ldb (rd : WReg) (imm : Nat) : Statement (.ldb rd imm) := fun h =>
  ⟨_, congrArg opcodeRow (formatI_opcode 0x3 rd 0 imm (by decide) h), fun _ => rfl⟩

theorem stb (rs1 : WReg) (rs2 : WReg) : Statement (.stb rs1 rs2) := fun _ =>
  ⟨_, congrArg opcodeRow (formatR_opcode 0x4 0 rs1 rs2 0 (by decide)), fun _ => rfl⟩

theorem cmp (rs1 : WReg) (rs2 : WReg) : Statement (.cmp rs1 rs2) := fun _ =>
  ⟨_, congrArg opcodeRow (formatR_opcode 0x10 0 rs1 rs2 0 (by decide)), fun _ => rfl⟩

theorem add (rd : WReg) (rs1 : WReg) (rs2 : WReg) : Statement (.add rd rs1 rs2) := fun _ =>
  ⟨_, congrArg opcodeRow (formatR_opcode 0x11 rd rs1 rs2 0 (by decide)), fun _ => rfl⟩

theorem sub (rd : WReg) (rs1 : WReg) (rs2 : WReg) : Statement (.sub rd rs1 rs2) := fun _ =>
  ⟨_, congrArg opcodeRow (formatR_opcode 0x12 rd rs1 rs2 0 (by decide)), fun _ => rfl⟩

theorem shl (rd : WReg) (rs1 : WReg) (imm : Nat) : Statement (.shl rd rs1 imm) := fun h =>
  ⟨_, congrArg opcodeRow (formatI_opcode 0x13 rd rs1 imm (by decide) h), fun _ => rfl⟩

theorem shr (rd : WReg) (rs1 : WReg) (imm : Nat) : Statement (.shr rd rs1 imm) := fun h =>
  ⟨_, congrArg opcodeRow (formatI_opcode 0x14 rd rs1 imm (by decide) h), fun _ => rfl⟩

theorem norm (rd : WReg) : Statement (.norm rd) := fun _ =>
  ⟨_, congrArg opcodeRow (formatR_opcode 0x15 rd 0 0 0 (by decide)), fun _ => rfl⟩

theorem mul (rd : WReg) (rs1 : WReg) (rs2 : WReg) : Statement (.mul rd rs1 rs2) := fun _ =>
  ⟨_, congrArg opcodeRow (formatR_opcode 0x16 rd rs1 rs2 0 (by decide)), fun _ => rfl⟩

theorem sqr (rd : WReg) (rs1 : WReg) : Statement (.sqr rd rs1) := fun _ =>
  ⟨_, congrArg opcodeRow (formatR_opcode 0x17 rd rs1 0 0 (by decide)), fun _ => rfl⟩

theorem rem (rd : WReg) (rs1 : WReg) (rs2 : WReg) : Statement (.rem rd rs1 rs2) := fun _ =>
  ⟨_, congrArg opcodeRow (formatR_opcode 0x20 rd rs1 rs2 0 (by decide)), fun _ => rfl⟩

theorem msetup (rs1 : WReg) : Statement (.msetup rs1) := fun _ =>
  ⟨_, congrArg opcodeRow (formatR_opcode 0x30 0 rs1 0 0 (by decide)), fun _ => rfl⟩

theorem mto (rd : WReg) (rs1 : WReg) : Statement (.mto rd rs1) := fun _ =>
  ⟨_, congrArg opcodeRow (formatR_opcode 0x31 rd rs1 0 0 (by decide)), fun _ => rfl⟩

theorem mmul (rd : WReg) (rs1 : WReg) (rs2 : WReg) : Statement (.mmul rd rs1 rs2) := fun _ =>
  ⟨_, congrArg opcodeRow (formatR_opcode 0x32 rd rs1 rs2 0 (by decide)), fun _ => rfl⟩

theorem msqr (rd : WReg) (rs1 : WReg) : Statement (.msqr rd rs1) := fun _ =>
  ⟨_, congrArg opcodeRow (formatR_opcode 0x33 rd rs1 0 0 (by decide)), fun _ => rfl⟩

theorem mred (rd : WReg) (rs1 : WReg) : Statement (.mred rd rs1) := fun _ =>
  ⟨_, congrArg opcodeRow (formatR_opcode 0x34 rd rs1 0 0 (by decide)), fun _ => rfl⟩

theorem modpow (rd : WReg) (rs1 : WReg) (rs2 : WReg) (rs3 : WReg) : Statement (.modpow rd rs1 rs2 rs3) := fun _ =>
  ⟨_, congrArg opcodeRow (formatR_opcode 0x38 rd rs1 rs2 rs3 (by decide)), fun _ => rfl⟩

end Sys2Proof.Laws.OpcodeOfEncoding
end

