-- ==== Sys2Proof/Tests/Slice0.lean ====
section
/-! SUPPORT. Tests. The expected results are the worked examples of spec/95_test_vectors.md (named V<n>) and the examples of the rules,
never this model's own answers. Then one witness for the hypotheses of each statement of `Certificates/Slice0/Obligations.lean`. -/

namespace Sys2Proof.Tests

open Sys2Proof Sys2Proof.Machine

-- One theorem after the other: the many kernel evaluations would otherwise each wait on a thread of its own.
set_option Elab.async false

/-! ### Well-formedness: an immediate that does not fit its field is refused -/

theorem test_ldb_wide_immediate_refused : (Instr.ldb 0 65536).wellFormed = false := by decide
theorem test_shl_wide_immediate_refused : (Instr.shl 0 1 65536).wellFormed = false := by decide
theorem test_shr_wide_immediate_refused : (Instr.shr 0 1 65536).wellFormed = false := by decide
theorem test_largest_immediates_fit :
    (Instr.ldb 0 65535).wellFormed = true ∧ (Instr.shl 0 1 65535).wellFormed = true ∧ (Instr.shr 0 1 65535).wellFormed = true := by
  decide

/-! ### Decoding: the words of V11, V20, V30 to V36, V45, V55 to V57 and V60 -/

theorem test_decode_nop : decode 0x00000000 = .ok .nop := by decide
theorem test_decode_mov : decode 0x01770000 = .ok (.mov 7 7) ∧ encode (.mov 7 7) = 0x01770000 := by decide
theorem test_decode_ldb : decode 0x0370FFFF = .ok (.ldb 7 65535) ∧ encode (.ldb 7 65535) = 0x0370FFFF := by decide
theorem test_decode_stb : decode 0x04012000 = .ok (.stb 1 2) ∧ encode (.stb 1 2) = 0x04012000 := by decide
theorem test_decode_cmp : decode 0x10012000 = .ok (.cmp 1 2) ∧ encode (.cmp 1 2) = 0x10012000 := by decide
theorem test_decode_add : decode 0x11012000 = .ok (.add 0 1 2) ∧ encode (.add 0 1 2) = 0x11012000 := by decide
theorem test_decode_sub : decode 0x12012000 = .ok (.sub 0 1 2) ∧ encode (.sub 0 1 2) = 0x12012000 := by decide
theorem test_decode_shl : decode 0x13010021 = .ok (.shl 0 1 33) ∧ encode (.shl 0 1 33) = 0x13010021 := by decide
theorem test_decode_shr : decode 0x1401FFFF = .ok (.shr 0 1 65535) ∧ encode (.shr 0 1 65535) = 0x1401FFFF := by decide
theorem test_decode_norm : decode 0x15300000 = .ok (.norm 3) ∧ encode (.norm 3) = 0x15300000 := by decide
theorem test_decode_mul : decode 0x16012000 = .ok (.mul 0 1 2) ∧ encode (.mul 0 1 2) = 0x16012000 := by decide
theorem test_decode_sqr : decode 0x17010000 = .ok (.sqr 0 1) ∧ encode (.sqr 0 1) = 0x17010000 := by decide
theorem test_decode_rem : decode 0x20012000 = .ok (.rem 0 1 2) ∧ encode (.rem 0 1 2) = 0x20012000 := by decide
theorem test_decode_msetup : decode 0x30030000 = .ok (.msetup 3) ∧ encode (.msetup 3) = 0x30030000 := by decide
theorem test_decode_mto : decode 0x31010000 = .ok (.mto 0 1) ∧ encode (.mto 0 1) = 0x31010000 := by decide
theorem test_decode_mmul : decode 0x32012000 = .ok (.mmul 0 1 2) ∧ encode (.mmul 0 1 2) = 0x32012000 := by decide
theorem test_decode_msqr : decode 0x33010000 = .ok (.msqr 0 1) ∧ encode (.msqr 0 1) = 0x33010000 := by decide
theorem test_decode_mred : decode 0x34010000 = .ok (.mred 0 1) ∧ encode (.mred 0 1) = 0x34010000 := by decide
theorem test_decode_modpow : decode 0x38012300 = .ok (.modpow 0 1 2 3) ∧ encode (.modpow 0 1 2 3) = 0x38012300 := by decide

/-- V10: the first decode error in the order of R86. -/
theorem test_decode_errors :
    decode 0x21F00001 = .error .illegalOpcode ∧ decode 0x02000000 = .error .illegalOpcode ∧
      decode 0xFFFFFFFF = .error .illegalOpcode ∧ decode 0x00000001 = .error .reservedBits ∧
      decode 0x01001000 = .error .reservedBits ∧ decode 0x03010004 = .error .reservedBits ∧
      decode 0x38012301 = .error .reservedBits ∧ decode 0x01800000 = .error .badReg ∧ decode 0x2090A000 = .error .badReg := by
  decide

/-- The expansions of R90. -/
theorem test_pseudo_expansions :
    (Pseudo.clr 7).expand.map encode = [0x03700000] ∧ (Pseudo.normv 2 1).expand.map encode = [0x01210000, 0x15200000] ∧
      (Pseudo.mfrom 0 1).expand.map encode = [0x34010000] := by decide

/-! ### States and single steps -/

/-- The reset state with some wide registers loaded. -/
def load (l : List (WReg × List Word)) : State := l.foldl (fun s p => s.writeReg p.1 p.2) State.reset

/-- The reset state with these bytes in the I/O buffer, then wide registers loaded. -/
def loadBytes (bs : List Byte) (l : List (WReg × List Word)) : State := (load l).setIob (Memory.writeBytes [] 0 bs)

/-- A whole context for a modulus, its unused words zero. -/
def ctxOf (n : List Word) : MontCtx where
  modn := fillVector (fun _ => 0) Config.maxW n
  mlen := BitVec.ofNat 8 n.length
  ninv := montConst n
  mvalid := true

/-- Wide registers loaded and a context in place. -/
def loadCtxOf (n : List Word) (l : List (WReg × List Word)) : State :=
  { load l with
    ctx := ctxOf n
    hidden := { Hidden.reset with powerTable := List.replicate Config.tblSlots (List.replicate (Config.tblWidth n.length) 0) } }

/-- The modulus of V55 to V57 (`m` = 2). -/
def n2 : List Word := [0x89ABCDEF, 0x01234567]

/-- The modulus 2^1023 + 1 of V67. -/
def nA : List Word := 0x80000000 :: List.replicate 30 0 ++ [1]

/-- The engine's step on a command word: what is looked at of the state it leaves. -/
def after {α : Type} (s : State) (w : Nat) (look : State → α) : Option α :=
  match step (s.withFetchWord 32 w) with
  | .next t => some (look t)
  | .fault _ => none
  | .refused _ => none

/-- A completed or faulted command's status and one register. -/
def result (rd : WReg) (t : State) : Word × List Word := (t.status, t.view rd)

/-- `STATUS`, `ERRCODE`, `ERRINFO` and a register's `VALID`. -/
def faultSeen (rd : WReg) (t : State) : Word × Nat × Nat × Bool :=
  (t.status, t.errcode.toNat, t.errinfo.toNat, (t.reg rd).valid)

/-- V10. -/
theorem test_nop : after State.reset 0x00000000 (fun t => (t.status, t.errcode, t.errinfo)) = some (4, 0, 0) := by decide +kernel
/-- V10: a reserved bit. -/
theorem test_reserved_bit_faults : after State.reset 0x00000001 (faultSeen 0) = some (2, 1, 2, false) := by decide +kernel
/-- R101: leading zero words are kept. -/
theorem test_mov : after (load [(1, [0, 5])]) 0x01010000 (result 0) = some (4, [0, 5]) := by decide +kernel
/-- V20, first row. -/
theorem test_ldb : after (loadBytes [0, 0, 1, 2, 3, 4, 5] []) 0x03000007 (result 0) = some (4, [0x00000001, 0x02030405]) := by
  decide +kernel
/-- V20: 545 bytes; the destination was valid before. -/
theorem test_ldb_range : after (load [(0, [1])]) 0x03000221 (faultSeen 0) = some (2, 5, 17, false) := by decide +kernel
/-- V21, first row. -/
theorem test_stb :
    after (loadBytes (List.replicate 16 0xAA) [(1, [0x00000001, 0x02030405]), (2, [0, 0, 0])]) 0x04012000
      (fun t => Memory.readBytes t.iob 0 16) =
    some [0, 0, 0, 0, 0, 0, 0, 1, 2, 3, 4, 5, 0xAA, 0xAA, 0xAA, 0xAA] := by decide +kernel
/-- V21: too narrow. -/
theorem test_stb_width :
    after (loadBytes (List.replicate 16 0xAA) [(1, [0x00000001, 0x02030405]), (2, [0])]) 0x04012000
      (fun t => (t.status, t.errcode, t.errinfo)) = some (2, 5, 16) := by decide +kernel
/-- V30: the longer array wins; C is left alone. -/
theorem test_cmp_longer : after (load [(1, [1, 0]), (2, [0xFFFFFFFF])]) 0x10012000 (fun t => t.flags.value) = some 1 := by
  decide +kernel
/-- V30: the last word decides. -/
theorem test_cmp_last_word : after (load [(1, [5, 7]), (2, [5, 8])]) 0x10012000 (fun t => t.flags.value) = some 3 := by decide +kernel
/-- V31. -/
theorem test_add_carry : after (load [(1, [0xFFFFFFFF]), (2, [0xFFFFFFFF])]) 0x11012000 (fun t => (t.view 0, t.flags.c)) =
    some ([0xFFFFFFFE], true) := by decide +kernel
/-- V32: the source is also the destination. -/
theorem test_add_aliased : after (load [(0, [0x80000000, 1])]) 0x11000000 (fun t => (t.view 0, t.flags.c)) =
    some ([0, 2], true) := by decide +kernel
/-- V31. -/
theorem test_sub_borrow : after (load [(1, [0, 0]), (2, [0, 1])]) 0x12012000 (fun t => (t.view 0, t.flags.c)) =
    some ([0xFFFFFFFF, 0xFFFFFFFF], true) := by decide +kernel
/-- V31. -/
theorem test_sub_lengths_differ : after (load [(1, [3]), (2, [0, 5])]) 0x12012000 (faultSeen 0) = some (2, 5, 12, false) := by
  decide +kernel
/-- V33. -/
theorem test_shl : after (load [(1, [0x12345678, 0x9ABCDEF0])]) 0x13010024 (result 0) =
    some (4, [0x00000001, 0x23456789, 0xABCDEF00, 0]) := by decide +kernel
/-- V33: one bit past the capacity. -/
theorem test_shl_capacity : after (load [(1, [0x80000000])]) 0x130110E1 (faultSeen 0) = some (2, 2, 6, false) := by decide +kernel
/-- V34. -/
theorem test_shr : after (load [(1, [1, 2])]) 0x14010001 (result 0) = some (4, [0x80000001]) := by decide +kernel
/-- V34: one leading zero word only is removed. -/
theorem test_shr_unnormalized : after (load [(1, [0, 0, 8])]) 0x14010003 (result 0) = some (4, [0, 1]) := by decide +kernel
/-- V35, first row. -/
theorem test_norm : after (load [(3, [0, 0, 9])]) 0x15300000 (fun t => ((t.reg 3).off, (t.reg 3).len, t.view 3)) =
    some (2, 1, [9]) := by decide +kernel
/-- V35: all zero. -/
theorem test_norm_zero : after (load [(3, [0, 0, 0])]) 0x15300000 (fun t => ((t.reg 3).off, (t.reg 3).len, t.view 3)) =
    some (0, 0, []) := by decide +kernel
/-- V36. -/
theorem test_mul : after (load [(1, [0x12345678, 0x9ABCDEF0]), (2, [0x0FEDCBA9, 0x87654321])]) 0x16012000 (result 0) =
    some (4, [0x0121FA00, 0xAD77D742, 0x2236D88F, 0xE5618CF0]) := by decide +kernel
/-- V36: an empty operand. -/
theorem test_mul_empty : after (load [(1, []), (2, [5])]) 0x16012000 (result 0) = some (4, []) := by decide +kernel
/-- V36. -/
theorem test_sqr : after (load [(1, [0x12345678, 0x9ABCDEF0])]) 0x17010000 (result 0) =
    some (4, [0x014B66DC, 0x33F6ACDC, 0xA5E20890, 0xF2A52100]) := by decide +kernel
/-- V48. -/
theorem test_rem : after (load [(1, [0xFFFFFFFF, 0x80000001, 0]), (2, [1, 3])]) 0x20012000 (result 0) = some (4, [0x7FFFFFDF]) := by
  decide +kernel
/-- V12: the empty divisor is tested first. -/
theorem test_rem_empty_divisor : after (load [(1, [0, 5]), (2, [])]) 0x20012000 (faultSeen 0) = some (2, 1, 5, false) := by
  decide +kernel
/-- V55. -/
theorem test_msetup : after (load [(3, n2)]) 0x30030000 (fun t => (t.ctx.stat, t.ctx.ninv)) =
    some (0x80000002, 0xCE3CBE4B3D5AF9A9) := by decide +kernel
/-- V55: an even modulus; the context stays. -/
theorem test_msetup_even : after (loadCtxOf n2 [(3, [0x89ABCDEF, 0x01234566])]) 0x30030000 (fun t => (t.errinfo, t.ctx.stat)) =
    some (9, 0x80000002) := by decide +kernel
/-- V56. -/
theorem test_mto : after (loadCtxOf n2 [(1, [2])]) 0x31010000 (result 0) = some (4, [0x62FC9632, 0xFC962FCB]) := by decide +kernel
/-- V56: no context. -/
theorem test_mto_no_context : after (load [(1, [1])]) 0x31010000 (faultSeen 0) = some (2, 5, 13, false) := by decide +kernel
/-- V57. -/
theorem test_mmul : after (loadCtxOf n2 [(1, [0x62FC9632, 0xFC962FCB]), (2, [0x4FA4FA54, 0xFA4FA4FD])]) 0x32012000 (result 0) =
    some (4, [0x159E26BA, 0xF37C0493]) := by decide +kernel
/-- V57: operands above the modulus. -/
theorem test_msqr : after (loadCtxOf n2 [(1, [0xFFFFFFFF, 0xFFFFFFFF])]) 0x33010000 (result 0) =
    some (4, [0x5B914E72, 0x8DD3AFE6]) := by decide +kernel
/-- V57: a view of `2 m` words. -/
theorem test_mred : after (loadCtxOf n2 [(1, List.replicate 4 0xFFFFFFFF)]) 0x34010000 (result 0) =
    some (4, [0x076B47C0, 0x6EC27FE3]) := by decide +kernel
/-- V57: `LEN` = 5 is more than `2 m`. -/
theorem test_mred_long : after (loadCtxOf n2 [(1, [0, 0, 0, 0, 1])]) 0x34010000 (faultSeen 0) = some (2, 5, 14, false) := by
  decide +kernel
/-- `5^2` and the constant of the modulus 2^1023 + 1, by hand: its low 64 bits are 1. -/
theorem test_modpow : after (load [(1, [5]), (2, [2]), (3, nA)]) 0x38012300 (fun t => (t.view 0, t.ctx.stat, t.ctx.ninv)) =
    some ([25], 0x80000020, 0xFFFFFFFFFFFFFFFF) := by decide +kernel
/-- V67: an exponent equal to the modulus; V66's order of the exponent-1 exit is in `witness_modpow_exponent_one`. -/
theorem test_modpow_large_exponent : after (load [(1, [5]), (2, nA), (3, nA)]) 0x38012300 (faultSeen 0) =
    some (2, 3, 11, false) := by decide +kernel

/-! ### The units below the commands -/

/-- V31. -/
theorem test_adder : adder [0xFFFFFFFF, 0xFFFFFFFF] [0, 1] = ([0, 0], 1) := by decide +kernel
/-- V31. -/
theorem test_subtractor : subtractor [0x80000000, 0, 0] [0, 0, 1] = ([0x7FFFFFFF, 0xFFFFFFFF, 0xFFFFFFFF], 0) := by decide +kernel
/-- V33. -/
theorem test_shifter_left : shifterLeft [0x12345678, 0x9ABCDEF0] 36 = [1, 0x23456789, 0xABCDEF00, 0] := by decide +kernel
/-- V34. -/
theorem test_shifter_right : shifterRight [0x12345678, 0x9ABCDEF0] 36 = [0x01234567] := by decide +kernel
/-- V36. -/
theorem test_multiplier : multiplier [0xFFFFFFFF, 0xFFFFFFFF] [0xFFFFFFFF] = [0xFFFFFFFE, 0xFFFFFFFF, 1] := by decide +kernel
/-- V36. -/
theorem test_squarer : squarer [0xFFFFFFFF, 0xFFFFFFFF] = [0xFFFFFFFF, 0xFFFFFFFE, 0, 1] := by decide +kernel
/-- R161, first trace: the overflow sentinel and the add-back. -/
theorem test_divider_add_back :
    dividePolicy [0xFFFFFFFF, 0x7FFFFFFF, 0x00000002, 0x80000001] [0xFFFFFFFF, 0x7FFFFFFF, 0x80000001] =
      some [0xFFFFFFFF, 0x00000001, 0x00000002] := by decide +kernel
/-- V47, first row: shared trailing zeros, then Algorithm D. -/
theorem test_divider_shared_zeros :
    dividePolicy [0xDEADBEEF, 0x12345678, 0x9ABCDEF1, 0, 0, 0, 0] [0x0000BEEF, 0x00000003, 0xFFFFFFFF, 0, 0, 0] =
      some [0x00008670, 0xE1BBEEDD, 0x2E4086A9, 0, 0, 0] := by decide +kernel
/-- V55. -/
theorem test_reduction_constant : montConst [0x00000065] = 0xC5B3F5DC83CD4E93 := by decide +kernel
/-- V57, word-serially. -/
theorem test_serial_reduction : montRedSerial n2 (montConst n2) (List.replicate 4 0xFFFFFFFF) = [0x076B47C0, 0x6EC27FE3] := by
  decide +kernel
/-- R195, R196: two slots of four words for the modulus of V56, the Montgomery forms of 2 (V56) and of 8 (by hand, `8 R mod N`). -/
theorem test_power_table :
    powerTable n2 (montConst n2) (montForm n2 2) 2 =
      [[0, 0, 0x62FC9632, 0xFC962FCB], [0, 0] ++ words (8 * 2 ^ 64 % 0x89ABCDEF01234567) 2] := by decide +kernel
/-- R193, R194: the widths V6 lists for 65537 and for exponents of 17, 241 and 242 bits. -/
theorem test_window_widths :
    windowWidth 65537 = 1 ∧ windowWidth 65539 = 2 ∧ windowWidth (2 ^ 240) = 4 ∧ windowWidth (2 ^ 241) = 5 := by decide +kernel
/-- R199, by hand: `3^2` is 9, and a base of 2 modulo the modulus has the fifth power 32. -/
theorem test_windowed_pow : windowedPow [3] [2] [1000003] = [9] ∧ windowedPowWith 4 [1000005] [5] [1000003] = [32] := by decide +kernel

/-! ### Witnesses: hypotheses met by concrete states, the clauses at boundary values -/

/-- The engine BUSY with a word, an event list in front of it. -/
def busyWith (w : Word) (events : List Event) : State := { State.reset.startCommand w with events := events }

/-- A faulted engine (MODPOW's EXP_ZERO), some events due. -/
def faultedWith (events : List Event) : State :=
  { State.reset with engine := .faulted, errcode := 3, errinfo := 10, events := events }

/-- The reset state with events due. -/
def idleWith (events : List Event) : State := { State.reset with events := events }

/-- A BUSY machine with two operands loaded, a context in place and ADD latched. -/
def running : State := (loadCtxOf n2 [(1, [5, 7]), (2, [0, 1])]).withFetchWord 32 0x11012000

theorem witness_ctxOf_n2_sound : (ctxOf n2).Sound :=
  ⟨fun _ => by decide +kernel, fun h => absurd h (by decide +kernel)⟩

/-- `DecodeEncodeRoundTrip`, at the largest immediate. -/
theorem witness_well_formed : (Instr.ldb 7 65535).wellFormed = true := by decide
/-- `EncodeDecodeRoundTrip`, `LegalWordsMatchTable`. -/
theorem witness_word_decodes : ∃ row ∈ encodingTable, decode 0x1377FFFF = .ok (.shl 7 7 65535) ∧ row.mnemonic = "SHL" := by decide
/-- `StepRunsDecodedCommand`, both clauses. -/
theorem witness_step_runs :
    (running.engine = .busy ∧ decode running.cmdreg = .ok (.add 0 1 2) ∧ running.events = []) ∧
      ((busyWith 0x11012000 [.engine, .reset]).engine = .busy ∧
        decode (busyWith 0x11012000 [.engine, .reset]).cmdreg = .ok (.add 0 1 2) ∧
        (busyWith 0x11012000 [.engine, .reset]).events = .engine :: [.reset]) := by decide +kernel
/-- `UndecodableWordFaults`, each decode error, with nothing due and with the engine's turn due. -/
theorem witness_undecodable :
    ((busyWith 0x02000000 []).engine = .busy ∧ (busyWith 0x02000000 []).EngineNext [] ∧
      decode (busyWith 0x02000000 []).cmdreg = .error .illegalOpcode) ∧
      ((busyWith 0x00000001 [.engine, .reset]).EngineNext [.reset] ∧
        decode (busyWith 0x00000001 [.engine, .reset]).cmdreg = .error .reservedBits) ∧
      decode (busyWith 0x01800000 []).cmdreg = .error .badReg :=
  ⟨⟨rfl, .inl ⟨rfl, rfl⟩, by decide⟩, ⟨.inr rfl, by decide⟩, by decide⟩
/-- `StepKeepsInv`, `StepNeverStops`, `EngineMovesOnlyInBusyAndEnds`: a BUSY state, not the reset state, meets the invariant. -/
theorem witness_invariant : running.Inv where
  views := by decide +kernel
  cmp := by decide +kernel
  ctx := witness_ctxOf_n2_sound
  iob := by decide +kernel
  errors := ⟨fun h => absurd h (by decide +kernel), fun _ => by decide +kernel⟩
  done := by decide +kernel
  table := by decide +kernel
  hidden := ⟨by decide +kernel, by decide +kernel, by decide +kernel⟩
/-- `StepKeepsInv`: from that state the step answers a next state. -/
theorem witness_invariant_steps : ∃ t, step running = .next t := ⟨_, rfl⟩
/-- `EngineMovesOnlyInBusyAndEnds`: the engine's turn in BUSY, in IDLE with nothing due, in IDLE and in FAULTED with its turn due. -/
theorem witness_engine_turn :
    (running.EngineNext [] ∧ running.engine = .busy) ∧ (State.reset.EngineNext [] ∧ State.reset.engine ≠ .busy) ∧
      ((idleWith [.engine, .reset]).EngineNext [.reset] ∧ (idleWith [.engine, .reset]).engine ≠ .busy) ∧
      ((faultedWith [.engine]).EngineNext [] ∧ (faultedWith [.engine]).engine ≠ .busy) :=
  ⟨⟨.inl ⟨rfl, rfl⟩, by decide⟩, ⟨.inl ⟨rfl, rfl⟩, by decide⟩, ⟨.inr rfl, by decide⟩, ⟨.inr rfl, by decide⟩⟩
/-- `ResetEventFromAnyState`, while BUSY. -/
theorem witness_reset_event : (busyWith 0x38012300 [.reset]).events = .reset :: [] := rfl
/-- `WhileBusyOnlyStatusIsRead`, its three clauses. -/
theorem witness_busy_host :
    (busyWith 0 [.read .w32 0x0004]).engine = .busy ∧ (busyWith 0 [.read .w32 0x0004]).events = .read .w32 0x0004 :: [] ∧
      (busyWith 0 [.read .w8 0x0004]).events = .read .w8 0x0004 :: [] ∧ ¬ (AccessWidth.w8 = .w32 ∧ (0x0004 : BitVec 16) = 0x0004) ∧
      (busyWith 0 [.write .w32 0x0010 3]).events = .write .w32 0x0010 3 :: [] := by decide +kernel
/-- `CmdWriteStartsOnlyInIdle`, in IDLE, in BUSY and in FAULTED. -/
theorem witness_cmd_write :
    (idleWith [.write .w32 0 7]).events = .write .w32 0x0000 7 :: [] ∧ (idleWith [.write .w32 0 7]).engine = .idle ∧
      (busyWith 1 [.write .w32 0 7]).engine ≠ .idle ∧ (faultedWith [.write .w32 0 7]).engine ≠ .idle := by decide +kernel
/-- `CtrlWriteAcknowledges`, its clauses. -/
theorem witness_ctrl :
    (faultedWith [.write .w32 0x0010 1]).events = .write .w32 0x0010 1 :: [] ∧ (faultedWith [.write .w32 0x0010 1]).engine = .faulted ∧
      (1 : Word).getLsbD 0 = true ∧ (busyWith 0 [.write .w32 0x0010 1]).engine = .busy ∧
      (faultedWith [.write .w32 0x0010 2]).engine ≠ .busy ∧ (2 : Word).getLsbD 0 = false ∧
      (idleWith [.read .w32 0x0010]).events = .read .w32 0x0010 :: [] := by decide +kernel
/-- `WideRegisterHostWrites`: `OFF + LEN` of 136 and of 137, and the last word of the last register. -/
theorem witness_wide_writes :
    (idleWith [.write .w32 0x005C 0x4048]).engine ≠ .busy ∧
      (idleWith [.write .w32 0x005C 0x4048]).events = .write .w32 0x005C 0x4048 :: [] ∧
      (0x005C : BitVec 16).toNat = 0x40 + 4 * (7 : WReg).val ∧ (0x4048 / 2 ^ 8 % 2 ^ 8 + 0x4048 % 2 ^ 8 ≤ 136) ∧
      (136 < 0x4049 / 2 ^ 8 % 2 ^ 8 + 0x4049 % 2 ^ 8) ∧
      (0x821C : BitVec 16).toNat = 0x1000 * ((7 : WReg).val + 1) + 4 * (135 : Fin Config.cap).val := by decide +kernel
/-- `HostReadsShowRegisters`: every row of the map has a value, at its last address. -/
theorem witness_host_values (s : State) :
    (∃ v, HostValue s 0x0000 v) ∧ (∃ v, HostValue s 0x0004 v) ∧ (∃ v, HostValue s 0x0008 v) ∧ (∃ v, HostValue s 0x000C v) ∧
      (∃ v, HostValue s 0x0010 v) ∧ (∃ v, HostValue s 0x0014 v) ∧ (∃ v, HostValue s 0x0018 v) ∧ (∃ v, HostValue s 0x001C v) ∧
      (∃ v, HostValue s 0x0020 v) ∧ (∃ v, HostValue s 0x005C v) ∧ (∃ v, HostValue s 0x821C v) := by
  refine ⟨⟨_, .inl ⟨rfl, rfl⟩⟩, ⟨_, .inr (.inl ⟨rfl, rfl⟩)⟩, ⟨_, .inr (.inr (.inl ⟨rfl, rfl⟩))⟩,
    ⟨_, .inr (.inr (.inr (.inl ⟨rfl, rfl⟩)))⟩, ⟨_, .inr (.inr (.inr (.inr (.inl ⟨rfl, rfl⟩))))⟩,
    ⟨_, .inr (.inr (.inr (.inr (.inr (.inl ⟨rfl, rfl⟩)))))⟩, ⟨_, .inr (.inr (.inr (.inr (.inr (.inr (.inl ⟨rfl, rfl⟩))))))⟩,
    ⟨_, .inr (.inr (.inr (.inr (.inr (.inr (.inr (.inl ⟨rfl, rfl⟩)))))))⟩,
    ⟨_, .inr (.inr (.inr (.inr (.inr (.inr (.inr (.inr (.inl ⟨rfl, rfl⟩))))))))⟩,
    ⟨_, .inr (.inr (.inr (.inr (.inr (.inr (.inr (.inr (.inr (.inl ⟨7, by decide, rfl⟩)))))))))⟩,
    ⟨_, .inr (.inr (.inr (.inr (.inr (.inr (.inr (.inr (.inr (.inr ⟨7, 135, by decide, rfl⟩)))))))))⟩⟩
/-- `HostReadsShowRegisters`: a whole instance of its hypotheses. -/
theorem witness_host_read :
    (idleWith [.read .w32 0x0010]).engine ≠ .busy ∧ (idleWith [.read .w32 0x0010]).events = .read .w32 0x0010 :: [] ∧
      HostValue (idleWith [.read .w32 0x0010]) 0x0010 0 :=
  ⟨by decide, rfl, .inr (.inr (.inr (.inr (.inl ⟨rfl, rfl⟩))))⟩
/-- `UnmappedAccessesRefused`: a register read in 8 bits, the word behind the I/O window, 16 bits anywhere, a read-only register. -/
theorem witness_unmapped :
    ¬ Mapped .w8 0x0000 ∧ ¬ Mapped .w32 0x9220 ∧ ¬ Mapped .w16 0x9000 ∧ ¬ Mapped .w32 0x0002 ∧
      (idleWith [.read .w32 0x9220]).events = .read .w32 0x9220 :: [] ∧
      (idleWith [.write .w32 0x0004 0]).events = .write .w32 0x0004 0 :: [] := by
  refine ⟨(show ¬ (0x9000 ≤ 0x0000 ∧ _) by decide), ?_, fun h => h, ?_, rfl, rfl⟩ <;> (show ¬ Mapped32 _; unfold Mapped32; decide +kernel)
/-- `IobWindowIsBigEndian`: the last byte, and the last word's four bytes. -/
theorem witness_iob_window :
    (idleWith [.read .w8 0x921F]).engine ≠ .busy ∧ Memory.wf (idleWith [.read .w8 0x921F]).iob = true ∧
      (0x921F : BitVec 16).toNat = 0x9000 + 543 ∧ (idleWith [.write .w8 0x921F 5]).events = .write .w8 0x921F 5 :: [] ∧
      (0x921C : BitVec 16).toNat = 0x9000 + 540 ∧ 540 % 4 = 0 ∧
      (idleWith [.read .w32 0x921C]).events = .read .w32 0x921C :: [] ∧
      (idleWith [.write .w32 0x921C 5]).events = .write .w32 0x921C 5 :: [] := by decide +kernel
/-- `InvalidSourceFaults`: the second source is invalid. -/
theorem witness_invalid_source : ∃ r ∈ (Instr.add 0 1 2).sources, ((load [(1, [5])]).reg r).valid = false := by decide +kernel
/-- `ByteCommandFaults`: 545 bytes; one significant word more than the width. -/
theorem witness_byte_faults :
    544 < 545 ∧ (load [(1, [1, 2]), (2, [9])]).AllValid [1, 2] ∧ Memory.wf (load [(1, [1, 2]), (2, [9])]).iob = true ∧
      ((load [(1, [1, 2]), (2, [9])]).reg 2).len.toNat < siglen ((load [(1, [1, 2]), (2, [9])]).view 1) := by decide +kernel
/-- `ArrayCommandFaults`: lengths that differ; 137 words of result for each of SHL, MUL, and 138 for SQR. -/
theorem witness_array_faults :
    let s := load [(1, 1 :: List.replicate 68 0), (2, List.replicate 68 7)]
    s.AllValid [1, 2] ∧ (s.view 1).length ≠ (s.view 2).length ∧ 136 < shlLength (s.view 1) (68 * 32) ∧ 0 < (s.view 1).length ∧
      0 < (s.view 2).length ∧ 136 < (s.view 1).length + (s.view 2).length ∧ 136 < 2 * (s.view 1).length := by decide +kernel
/-- `RemFaults`, both clauses. -/
theorem witness_rem_faults :
    (load [(1, [0, 5]), (2, [])]).AllValid [1, 2] ∧ (load [(1, [0, 5]), (2, [])]).view 2 = [] ∧
      (load [(1, [0, 5]), (2, [3])]).AllValid [1, 2] ∧ (load [(1, [0, 5]), (2, [3])]).view 2 ≠ [] ∧
      isNormalized ((load [(1, [0, 5]), (2, [3])]).view 1) = false := by decide +kernel
/-- `MontgomeryFaults`, the clauses on MSETUP: a leading zero, no word and 65 words, an even modulus. -/
theorem witness_msetup_faults :
    (load [(1, [0, 5]), (2, [])]).AllValid [1, 2] ∧ isNormalized ((load [(1, [0, 5]), (2, [])]).view 1) = false ∧
      isNormalized ((load [(1, []), (2, [])]).view 1) = true ∧ ((load [(1, []), (2, [])]).view 1).length = 0 ∧
      isNormalized ((load [(1, List.replicate 65 1), (2, [])]).view 1) = true ∧
      64 < ((load [(1, List.replicate 65 1), (2, [])]).view 1).length ∧
      isNormalized ((load [(1, [2]), (2, [])]).view 1) = true ∧ 1 ≤ ((load [(1, [2]), (2, [])]).view 1).length ∧
      (lowWord ((load [(1, [2]), (2, [])]).view 1)).toNat % 2 = 0 := by decide +kernel
/-- `MontgomeryFaults`, the clauses with an invalid and with a valid context: `siglen + m + 1` = 137, one word more than `m` and than
`2 m`. -/
theorem witness_montgomery_faults :
    State.reset.ctx.mvalid = false ∧ (ctxOf n2).mvalid = true ∧
      136 < siglen ((loadCtxOf n2 [(1, 1 :: List.replicate 133 0)]).view 1) + (ctxOf n2).mlen.toNat + 1 ∧
      (ctxOf n2).mlen.toNat < ((loadCtxOf n2 [(1, [0, 0, 2])]).view 1).length ∧
      2 * (ctxOf n2).mlen.toNat < ((loadCtxOf n2 [(1, [0, 0, 0, 0, 1])]).view 1).length := by decide +kernel
/-- `ModpowGuardFaults`: every check of the key guard, all before it passing. -/
theorem witness_guard_faults :
    (load [(1, [5]), (2, [3]), (3, nA)]).AllValid [1, 2, 3] ∧
      ¬ (([7] : List Word).length = 32 ∨ ([7] : List Word).length = 64) ∧
      (nA.length = 32 ∧ isNormalized nA = true ∧ (lowWord nA).toNat % 2 = 1) ∧
      ¬ (lowWord (nA.dropLast ++ [2])).toNat % 2 = 1 ∧ val [] = 0 ∧
      (val [0, 3] ≠ 0 ∧ isNormalized [0, 3] = false) ∧ (val nA ≠ 0 ∧ val nA ≤ val nA) ∧
      (load [(1, [5]), (2, [3]), (3, nA)]).view 3 = nA := by decide +kernel
/-- `ModpowCapacityFault`: `siglen + m + 1` = 137. -/
theorem witness_modpow_capacity :
    let s := load [(1, 1 :: List.replicate 103 0), (2, [3]), (3, nA)]
    s.AllValid [1, 2, 3] ∧ KeyOk (s.view 2) (s.view 3) ∧ s.view 2 ≠ [1] ∧ 136 < siglen (s.view 1) + (s.view 3).length + 1 := by
  decide +kernel
/-- `TableAllocFault`: an exponent of 242 bits needs 16 entries (V68). -/
theorem witness_table_alloc :
    let s := load [(1, [5]), (2, 0x00020000 :: List.replicate 6 0 ++ [0x00012345]), (3, nA)]
    s.AllValid [1, 2, 3] ∧ KeyOk (s.view 2) (s.view 3) ∧ s.view 2 ≠ [1] ∧ siglen (s.view 1) + (s.view 3).length + 1 ≤ 136 ∧
      15 < 2 ^ (windowWidth (val (s.view 2)) - 1) := by decide +kernel
/-- `CommandsWriteOnlyTheirState`: NOP meets every clause's condition. -/
theorem witness_command_answers :
    (∃ t, exec .nop State.reset = .next t) ∧ (∀ rs1 rs2, Instr.nop ≠ .cmp rs1 rs2) ∧ Instr.nop.destination ≠ some 0 :=
  ⟨⟨_, rfl⟩, by intros; simp, by decide⟩
/-- `MovResult`, `ShlResult` with the longest result, `ShrResult`. -/
theorem witness_one_source :
    (load [(1, [0x80000000])]).AllValid [1] ∧ 1 + 4320 / 32 + 0 ≤ 136 ∧ (load [(1, [0x80000000])]).view 1 ≠ [] := by decide +kernel
/-- `LdbResult`, at its bound. -/
theorem witness_ldb_bound : 544 ≤ 544 := by decide
/-- `StbResult`: the widest width, and a value that fills its width. -/
theorem witness_stb :
    let s := load [(1, List.replicate 136 1), (2, List.replicate 136 0)]
    s.AllValid [1, 2] ∧ Memory.wf s.iob = true ∧ (s.reg 2).len.toNat ≤ 136 ∧ siglen (s.view 1) ≤ (s.reg 2).len.toNat := by
  decide +kernel
/-- `CmpResult`, each clause. -/
theorem witness_cmp :
    (load [(1, [5, 7]), (2, [5, 8])]).AllValid [1, 2] ∧
      ((load [(1, [5, 7]), (2, [5, 8])]).view 1 = [5] ++ 7 :: [] ∧ (load [(1, [5, 7]), (2, [5, 8])]).view 2 = [5] ++ 8 :: []) ∧
      (7 : Word).toNat < (8 : Word).toNat ∧ ((load [(1, []), (2, [1])]).view 1).length < ((load [(1, []), (2, [1])]).view 2).length ∧
      (load [(1, []), (2, [])]).view 1 = (load [(1, []), (2, [])]).view 2 := by decide +kernel
/-- `AddResult`, `SubResult` with and without a borrow. -/
theorem witness_add_sub :
    let s := load [(1, [0, 0]), (2, [0, 1])]
    s.AllValid [1, 2] ∧ (s.view 1).length = (s.view 2).length ∧ val (s.view 1) < val (s.view 2) ∧
      val (s.view 2) ≤ val (s.view 2) := by decide +kernel
/-- `NormResult`, on a view that ends at the storage's end. -/
theorem witness_norm :
    let s := State.reset.setReg 3 { WideReg.ofArray (List.replicate 136 0) with off := 134, len := 2 }
    s.AllValid [3] ∧ (s.reg 3).Inside := by decide +kernel
/-- `MulSqrResult`: 136 words of result, and an empty operand. -/
theorem witness_mul_sqr :
    let s := load [(1, List.replicate 68 0xFFFFFFFF), (2, List.replicate 68 0xFFFFFFFF), (3, [])]
    s.AllValid [1, 2] ∧ s.view 1 ≠ [] ∧ s.view 2 ≠ [] ∧ (s.view 1).length + (s.view 2).length ≤ 136 ∧
      2 * (s.view 1).length ≤ 136 ∧ s.view 3 = [] := by decide +kernel
/-- `RemResult`. -/
theorem witness_rem :
    let s := load [(1, [1, 0]), (2, [7])]
    s.AllValid [1, 2] ∧ s.view 2 ≠ [] ∧ isNormalized (s.view 1) = true ∧ isNormalized (s.view 2) = true := by decide +kernel
/-- `MsetupResult`: the longest and the shortest modulus. -/
theorem witness_msetup :
    (load [(3, List.replicate 64 1)]).AllValid [3] ∧ ModulusOk ((load [(3, List.replicate 64 1)]).view 3) ∧
      ModulusOk ((load [(3, [1])]).view 3) := by decide +kernel
/-- `MtoResult`: `siglen + m + 1` = 136. -/
theorem witness_mto :
    (loadCtxOf n2 [(1, 1 :: List.replicate 132 0)]).AllValid [1] ∧ (loadCtxOf n2 [(1, 1 :: List.replicate 132 0)]).ctx.Sound ∧
      (loadCtxOf n2 [(1, 1 :: List.replicate 132 0)]).ctx.mvalid = true ∧
      siglen ((loadCtxOf n2 [(1, 1 :: List.replicate 132 0)]).view 1) + 2 + 1 ≤ 136 :=
  ⟨by decide +kernel, witness_ctxOf_n2_sound, by decide +kernel, by decide +kernel⟩
/-- `MontgomeryResults`: operands of `m` and of `2 m` words. -/
theorem witness_montgomery :
    (loadCtxOf n2 [(1, [9, 9]), (2, [9, 9])]).AllValid [1, 2] ∧ (loadCtxOf n2 [(1, [9, 9]), (2, [9, 9])]).ctx.Sound ∧
      (loadCtxOf n2 [(1, [9, 9]), (2, [9, 9])]).ctx.mvalid = true ∧
      ((loadCtxOf n2 [(1, [9, 9]), (2, [9, 9])]).view 1).length ≤ 2 ∧
      ((loadCtxOf n2 [(1, [9, 9]), (2, [9, 9])]).view 2).length ≤ 2 ∧
      ((loadCtxOf n2 [(1, [9, 9, 9, 9])]).view 1).length ≤ 2 * (ctxOf n2).mlen.toNat :=
  ⟨by decide +kernel, witness_ctxOf_n2_sound, by decide +kernel, by decide +kernel, by decide +kernel, by decide +kernel⟩
/-- `ModpowResult`: the largest exponent and the longest base (V65, V67). -/
theorem witness_modpow :
    let s := load [(1, 1 :: List.replicate 102 0), (2, nA.dropLast ++ [0]), (3, nA)]
    s.AllValid [1, 2, 3] ∧ KeyOk (s.view 2) (s.view 3) ∧ s.view 2 ≠ [1] ∧ siglen (s.view 1) + (s.view 3).length + 1 ≤ 136 := by
  decide +kernel
/-- `ModpowExponentOne`. -/
theorem witness_modpow_exponent_one :
    let s := load [(1, [0, 0, 7]), (2, [1]), (3, nA)]
    s.AllValid [1, 2, 3] ∧ KeyOk (s.view 2) (s.view 3) ∧ s.view 2 = [1] := by decide +kernel
/-- `CompareIsNumeric`, `DividePolicyIsRemainder`. -/
theorem witness_normalized : isNormalized [1, 0] = true ∧ isNormalized [7] = true ∧ ([7] : List Word) ≠ [] := by decide
/-- `ByteConversionRoundTrip`, its clauses on a width, each at equality. -/
theorem witness_bytes :
    (bytesToWords [0, 1, 2, 3, 4, 5]).length ≤ 2 ∧ ([0, 1, 2, 3] : List Byte).length = 4 * 1 ∧ siglen [0, 5] ≤ 1 := by
  decide +kernel
/-- `AdderSubtractorValues`. -/
theorem witness_equal_lengths : ([5, 7] : List Word).length = ([0, 9] : List Word).length := by decide
/-- `SerialReductionAgrees`, `MontRedIsCanonicalResidue`, `MontgomeryLaws`, `PowerTableSlots` (whose table of 2 entries has an entry 1). -/
theorem witness_reduction :
    n2 ≠ [] ∧ low64 n2 * montConst n2 = -1 ∧ (List.replicate 4 (7 : Word)).length = 2 * n2.length ∧
      1 < (powerTable n2 (montConst n2) (montForm n2 2) 2).length := by decide +kernel
/-- `WindowedPowIsPower`. -/
theorem witness_windowed_pow :
    isNormalized n2 = true ∧ n2 ≠ [] ∧ (lowWord n2).toNat % 2 = 1 ∧ 0 < val [3] ∧ 1 ≤ windowWidth 2 := by decide +kernel
/-- `WindowWidths`: the first and the last bit length of each range. -/
theorem witness_window_ranges :
    [2, 2 ^ 6, 2 ^ 7, 2 ^ 24, 2 ^ 25, 2 ^ 80, 2 ^ 81, 2 ^ 240, 2 ^ 241, 2 ^ 672, 2 ^ 673, 2 ^ 1792, 2 ^ 1793].map bitlen =
      [2, 7, 8, 25, 26, 81, 82, 241, 242, 673, 674, 1793, 1794] := by decide +kernel

end Sys2Proof.Tests
end

