-- ==== Sys2Proof/Proofs/Montgomery.lean ====
section
/-! SUPPORT. The Montgomery unit's arithmetic: what the Newton rounds give for an odd modulus (R171), what the reduction's word positions
keep (R174), the product of two Montgomery forms (R180), and with it the entries of the power table (R195, R196). -/

namespace Sys2Proof.Machine

open Sys2Proof

/-! ### The reduction constant -/

/-- The parity of an array's value is that of its least-significant word. -/
theorem val_mod_two (a : List Word) : val a % 2 = (lowWord a).toNat % 2 := by
  rcases List.eq_nil_or_concat a with rfl | ⟨xs, x, rfl⟩
  · rfl
  · rw [List.concat_eq_append, val_append, val_cons]
    simp only [lowWord, List.getLast?_append, List.getLast?_singleton, Option.some_or, Option.getD_some, List.length_cons,
      List.length_nil, val_nil, zero_add, pow_one, pow_zero, mul_one, add_zero, base]
    omega

/-- Each Newton round squares the error of the inverse (R171). -/
theorem newton_error (n0 : DWord) (k : Nat) : 1 - n0 * newton n0 k = (1 - n0 * n0) ^ 2 ^ k := by
  induction k with
  | zero => simp [newton]
  | succ k ih =>
    have hround : 1 - n0 * newton n0 (k + 1) = (1 - n0 * newton n0 k) ^ 2 := by
      simp only [newton, newtonRound]
      ring
    rw [hround, ih, ← pow_mul, pow_succ]

/-- The start of the iteration is right in its low three bits: an odd square is 1 modulo 8. -/
theorem eight_dvd_newton_start_error {v : Nat} (h : v % 2 = 1) :
    ∃ c : DWord, 1 - BitVec.ofNat 64 v * BitVec.ofNat 64 v = 8 * c := by
  obtain ⟨k, rfl⟩ : ∃ k, v = 2 * k + 1 := ⟨v / 2, by omega⟩
  obtain ⟨g, hg⟩ := Nat.even_mul_succ_self k
  have hsq : (2 * k + 1) * (2 * k + 1) = 8 * g + 1 := by linarith
  refine ⟨-BitVec.ofNat 64 g, ?_⟩
  have h8 : BitVec.ofNat 64 8 = 8 := rfl
  have h1 : BitVec.ofNat 64 1 = 1 := rfl
  rw [← BitVec.ofNat_mul, hsq, BitVec.ofNat_add, BitVec.ofNat_mul, h8, h1]
  ring

/-- The constant of an odd modulus: five rounds make the error zero modulo `2^64` (R171). -/
theorem low64_mul_montConst {n : List Word} (h : (lowWord n).toNat % 2 = 1) : low64 n * montConst n = -1 := by
  obtain ⟨c, hc⟩ := eight_dvd_newton_start_error (v := val n) ((val_mod_two n).trans h)
  have herr : 1 - low64 n * newton (low64 n) Config.newtonRounds = 0 := by
    have h96 : (8 : DWord) ^ 2 ^ Config.newtonRounds = 0 := by decide
    rw [newton_error, low64, hc, mul_pow, h96, zero_mul]
  rw [montConst, mul_neg, ← sub_eq_zero.mp herr]

/-! ### The reduction -/

/-- A constant that is right modulo `2^64` is right modulo the base. -/
theorem base_dvd_val_mul_ninv {n : List Word} {ninv : DWord} (h : low64 n * ninv = -1) : base ∣ val n * ninv.toNat + 1 := by
  have hmod : (val n * ninv.toNat + 1) % 2 ^ 64 = 0 := by
    have hzero : (low64 n * ninv + 1).toNat = 0 := by simp [h]
    simpa [low64, Nat.add_mod, Nat.mul_mod] using hzero
  exact (show base ∣ 2 ^ 64 from ⟨base, rfl⟩).trans (Nat.dvd_of_mod_eq_zero hmod)

/-- A modulus with a constant is prime to every power of the base. -/
theorem coprime_base_pow_val {n : List Word} {ninv : DWord} (h : low64 n * ninv = -1) (m : Nat) :
    Nat.Coprime (base ^ m) (val n) := by
  refine Nat.Coprime.pow_left m ?_
  have hone : Nat.gcd base (val n) ∣ 1 :=
    (Nat.dvd_add_right ((Nat.gcd_dvd_right base (val n)).mul_right ninv.toNat)).mp
      ((Nat.gcd_dvd_left base (val n)).trans (base_dvd_val_mul_ninv h))
  exact Nat.dvd_one.mp hone

/-- A modulus with a constant is not zero. -/
theorem val_pos_of_const {n : List Word} {ninv : DWord} (h : low64 n * ninv = -1) : 0 < val n := by
  by_contra hz
  have hzero : val n = 0 := by omega
  have : base ∣ 0 * ninv.toNat + 1 := hzero ▸ base_dvd_val_mul_ninv h
  revert this
  simp

/-- A word position adds a multiple of the modulus (R174). -/
theorem montPosition_modEq (n : Nat) (ninv : DWord) (t j : Nat) : montPosition n ninv t j ≡ t [MOD n] := by
  unfold montPosition
  rw [mul_assoc, mul_left_comm]
  exact Nat.add_mul_mod_self_left t n _

/-- A word position makes word `j` zero, where the words below it are zero (R174). -/
theorem pow_dvd_montPosition {n : Nat} {ninv : DWord} (h : base ∣ n * ninv.toNat + 1) {t j : Nat} (ht : base ^ j ∣ t) :
    base ^ (j + 1) ∣ montPosition n ninv t j := by
  obtain ⟨d, rfl⟩ := ht
  have hpos : 0 < base ^ j := Nat.pow_pos (by decide)
  have hword : base ∣ d + (d % base * (ninv.toNat % base) % base) * n := by
    rw [← Nat.modEq_zero_iff_dvd]
    calc d + (d % base * (ninv.toNat % base) % base) * n
        ≡ d + d * ninv.toNat * n [MOD base] := by
          refine Nat.ModEq.add_left d (Nat.ModEq.mul_right n ?_)
          rw [← Nat.mul_mod]
          exact Nat.mod_modEq _ _
      _ = d * (n * ninv.toNat + 1) := by ring
      _ ≡ 0 [MOD base] := Nat.modEq_zero_iff_dvd.mpr (h.mul_left d)
  have hsplit : montPosition n ninv (base ^ j * d) j =
      base ^ j * (d + (d % base * (ninv.toNat % base) % base) * n) := by
    rw [montPosition, Nat.mul_div_cancel_left d hpos]
    ring
  rw [hsplit, pow_succ]
  exact Nat.mul_dvd_mul_left _ hword

theorem montPositions_modEq (n : Nat) (ninv : DWord) (t j : Nat) : montPositions n ninv t j ≡ t [MOD n] := by
  induction j with
  | zero => rfl
  | succ j ih => exact (montPosition_modEq n ninv _ j).trans ih

theorem pow_dvd_montPositions {n : Nat} {ninv : DWord} (h : base ∣ n * ninv.toNat + 1) (t j : Nat) :
    base ^ j ∣ montPositions n ninv t j := by
  induction j with
  | zero => simp
  | succ j ih => exact pow_dvd_montPosition h ih

/-- The reduction of `x R` is `x` modulo the modulus, in `m` words (R174, R175). -/
theorem montRed_of_modEq {n : List Word} {ninv : DWord} (h : low64 n * ninv = -1) {t x : Nat}
    (ht : t ≡ x * base ^ n.length [MOD val n]) : montRed n ninv t = words (x % val n) n.length := by
  have hdvd := pow_dvd_montPositions (base_dvd_val_mul_ninv h) t n.length
  have hquot : montPositions (val n) ninv t n.length / base ^ n.length ≡ x [MOD val n] := by
    refine Nat.ModEq.cancel_right_of_coprime (coprime_base_pow_val h n.length).symm ?_
    rw [Nat.div_mul_cancel hdvd]
    exact (montPositions_modEq (val n) ninv t n.length).trans ht
  rw [montRed]
  exact congrArg (words · n.length) hquot

/-- The value of a Montgomery form (R173). -/
theorem val_montForm {n : List Word} (h : 0 < val n) (x : Nat) : val (montForm n x) = x * base ^ n.length % val n := by
  rw [montForm, val_words, Nat.mod_eq_of_lt ((Nat.mod_lt _ h).trans (val_lt n))]

/-- The Montgomery product of two Montgomery forms is the Montgomery form of the product (R180). -/
theorem montMul_montForm {n : List Word} {ninv : DWord} (h : low64 n * ninv = -1) (x y : Nat) :
    montMul n ninv (montForm n x) (montForm n y) = montForm n (x * y) := by
  rw [montMul, montForm]
  refine montRed_of_modEq h ?_
  rw [← montForm, val_montForm (val_pos_of_const h), val_montForm (val_pos_of_const h)]
  calc x * base ^ n.length % val n * (y * base ^ n.length % val n)
      ≡ x * base ^ n.length * (y * base ^ n.length) [MOD val n] :=
        (Nat.mod_modEq _ _).mul (Nat.mod_modEq _ _)
    _ = x * y * base ^ n.length * base ^ n.length := by ring

/-! ### The power table -/

/-- Zero words in front do not change the value. -/
theorem val_replicate_zero_append (k : Nat) (a : List Word) : val (List.replicate k 0 ++ a) = val a := by
  induction k with
  | zero => rfl
  | succ k ih => simpa [List.replicate_succ, val_cons] using ih

/-- A slot of `2 m` words holds an array of `m` words behind `m` zero words (R195, log 23). -/
theorem tableSlot_eq_replicate_append {m : Nat} {g : List Word} (h : g.length = m) :
    tableSlot m g = List.replicate m 0 ++ g := by
  have hlen : (List.replicate m 0 ++ g).length = Config.tblWidth m := by
    rw [List.length_append, List.length_replicate, h, Config.tblWidth, two_mul]
  rw [tableSlot, ← val_replicate_zero_append m, ← hlen, words_val]

/-- Filling from the Montgomery form of `x` by that of `y`: entry `j` is the slot of `x y^j` (R196). -/
theorem fillTable_montForm {n : List Word} {ninv : DWord} (h : low64 n * ninv = -1) (x y entries : Nat) :
    fillTable n ninv (montForm n y) entries (montForm n x) =
      (List.range entries).map fun j => tableSlot n.length (montForm n (x * y ^ j)) := by
  induction entries generalizing x with
  | zero => rfl
  | succ k ih =>
    rw [fillTable, montMul_montForm h, ih, List.range_succ_eq_map]
    simp [pow_succ', mul_assoc]

/-- The power table of the Montgomery form of `b`: the slots of its odd powers (R196). -/
theorem powerTable_montForm {n : List Word} {ninv : DWord} (h : low64 n * ninv = -1) (b entries : Nat) :
    powerTable n ninv (montForm n b) entries =
      (List.range entries).map fun i => List.replicate n.length 0 ++ montForm n (b ^ (2 * i + 1)) := by
  rw [powerTable, montSqr, montMul_montForm h, fillTable_montForm h]
  refine List.map_congr_left fun i _ => ?_
  have hodd : b * (b * b) ^ i = b ^ (2 * i + 1) := by
    rw [← pow_two, ← pow_mul, pow_succ']
  rw [hodd, tableSlot_eq_replicate_append (montForm_length n _)]

/-- Settles O59: every entry is the slot of an odd power's Montgomery form, by the product law of R180 along the table. -/
theorem powerTableSlots : Obligations.PowerTableSlots := by
  intro b n ninv entries _ h m table
  have htable : table = (List.range entries).map fun i => List.replicate m 0 ++ montForm n (val b ^ (2 * i + 1)) :=
    powerTable_montForm h (val b) entries
  clear_value table
  subst htable
  refine ⟨by simp, fun i hi => ?_⟩
  have hslot : (List.map (fun i => List.replicate m 0 ++ montForm n (val b ^ (2 * i + 1))) (List.range entries))[i] =
      List.replicate m 0 ++ montForm n (val b ^ (2 * i + 1)) := by simp
  rw [hslot, val_replicate_zero_append, val_montForm (val_pos_of_const h)]
  refine ⟨?_, rfl, rfl, rfl⟩
  rw [List.length_append, List.length_replicate, montForm_length, Config.tblWidth, two_mul]

end Sys2Proof.Machine
end

