-- ==== Sys2Proof/Proofs/Invariant.lean ====
section
/-! SUPPORT. Every step keeps the machine's invariant. A command's effect keeps the part of the invariant that speaks of registers, flags,
context and I/O buffer (`State.Sane`); the two ways a command ends establish the rest (R29, R214). The host's accesses and the reset are
taken one by one. -/

namespace Sys2Proof.Machine

open Sys2Proof

/-! ### The part of the invariant that effects keep -/

/-- The clauses of the invariant that speak of what commands compute on: registers, flags, context and I/O buffer (R22, R28, R33, R36). -/
structure State.Sane (s : State) : Prop where
  views : ∀ r, (s.reg r).Inside
  cmp : s.flags.cmp ≠ 0b10
  ctx : s.ctx.Sound
  iob : Memory.wf s.iob = true

theorem State.Inv.sane {s : State} (h : s.Inv) : s.Sane := ⟨h.views, h.cmp, h.ctx, h.iob⟩

theorem State.Sane.setReg {s : State} (h : s.Sane) (r : WReg) {x : WideReg} (hx : x.Inside) : (s.setReg r x).Sane where
  views r' := by
    by_cases hr : r' = r
    · rw [hr, State.reg_setReg_self]
      exact hx
    · rw [State.reg_setReg_of_ne s x hr]
      exact h.views r'
  cmp := h.cmp
  ctx := h.ctx
  iob := h.iob

theorem State.Sane.writeReg {s : State} (h : s.Sane) (rd : WReg) {a : List Word} (ha : a.length ≤ Config.cap) :
    (s.writeReg rd a).Sane := h.setReg rd (WideReg.ofArray_inside ha)

theorem State.Sane.setCmp {s : State} (h : s.Sane) {c : BitVec 2} (hc : c ≠ 0b10) : (s.setCmp c).Sane :=
  ⟨h.views, hc, h.ctx, h.iob⟩

theorem State.Sane.setCarry {s : State} (h : s.Sane) (c : Bool) : (s.setCarry c).Sane := ⟨h.views, h.cmp, h.ctx, h.iob⟩

theorem State.Sane.setIob {s : State} (h : s.Sane) {m : Memory} (hm : Memory.wf m = true) : (s.setIob m).Sane :=
  ⟨h.views, h.cmp, h.ctx, hm⟩

/-- A context loaded with an acceptable modulus is sound (R33, R172, R192). -/
theorem MontCtx.ofModulus_sound (ctr : Nat) {n : List Word} (h : ModulusOk n) : (MontCtx.ofModulus ctr n).Sound := by
  obtain ⟨hpos, hlen, hnorm, hodd⟩ := h
  refine ⟨fun _ => ?_, fun hv => by cases hv⟩
  rw [MontCtx.modulus_ofModulus ctr hlen]
  exact ⟨⟨hpos, hlen, hnorm, hodd⟩, rfl, MontCtx.mlen_ofModulus ctr hlen, MontCtx.modulus_ofModulus ctr hlen,
    low64_mul_montConst hodd⟩

theorem State.Sane.loadCtx {s : State} (h : s.Sane) {n : List Word} (hn : ModulusOk n) : (s.loadCtx n).Sane :=
  ⟨h.views, h.cmp, MontCtx.ofModulus_sound s.freeCtr hn, h.iob⟩

/-! ### The two ways a command ends -/

theorem State.Sane.complete_inv {s : State} (h : s.Sane) : s.complete.Inv where
  views := h.views
  cmp := h.cmp
  ctx := h.ctx
  iob := h.iob
  errors := ⟨fun he => by simp at he, fun _ => ⟨rfl, rfl⟩⟩
  done _ := rfl
  table := rfl
  hidden := freeHidden_fits _ _

theorem State.Sane.invalidate {s : State} (h : s.Sane) (rd : Option WReg) : (s.invalidate rd).Sane := by
  cases rd with
  | none => exact h
  | some r => exact h.setReg r (WideReg.faulted_inside _)

theorem State.Sane.raiseFault_inv {s : State} (h : s.Sane) (c : Cause) (rd : Option WReg) : (s.raiseFault c rd).Inv where
  views := (h.invalidate rd).views
  cmp := (h.invalidate rd).cmp
  ctx := (h.invalidate rd).ctx
  iob := (h.invalidate rd).iob
  errors := ⟨fun _ => ⟨c, rfl, rfl⟩, fun he => absurd rfl he⟩
  done hd := by simp at hd
  table := rfl
  hidden := by
    rw [State.raiseFault_hidden, State.raiseFault_ctx]
    exact freeHidden_fits _ _

/-- A command ends in the invariant if its effect, under checks none of which applies, keeps the effects' part of it (R218). -/
theorem State.Sane.command_inv {s : State} (h : s.Sane) {rd : Option WReg} {checks : List (Bool × Cause)} {effect : State}
    (heffect : (∀ p ∈ checks, p.1 = false) → effect.Sane) : (s.command rd checks effect).Inv := by
  obtain ⟨c, -, hfault⟩ | ⟨hnone, hdone⟩ := s.command_cases rd checks effect
  · rw [hfault]
    exact h.raiseFault_inv c rd
  · rw [hdone]
    exact (heffect (firstFault_eq_none.mp hnone)).complete_inv

/-! ### The lengths of results -/

theorem bytesToWords_length_le {bs : List Byte} (h : bs.length ≤ Config.iobBytes) :
    (bytesToWords bs).length ≤ Config.cap := by
  have hstrip : (bs.dropWhile (· == 0)).length ≤ bs.length := (List.dropWhile_sublist _).length_le
  have hcap : Config.iobBytes = 4 * Config.cap := rfl
  simp only [bytesToWords, words_length]
  omega

theorem differenceArray_length (a b : List Word) (l : Nat) : (differenceArray a b l).length = l := by
  unfold differenceArray
  split <;> exact words_length _ _

theorem shrArray_length_le (a : List Word) (n : Nat) : (shrArray a n).length ≤ a.length := by
  rw [shrArray, words_length, shrLength]
  dsimp only
  split <;> omega

theorem remArray_length_le (a b : List Word) : (remArray a b).length ≤ b.length :=
  (norm_length_le _).trans (words_length _ _).le

theorem powArray_length_le (b e n : List Word) : (powArray b e n).length ≤ n.length :=
  (norm_length_le _).trans (words_length _ _).le

/-- The context's modulus, and so every Montgomery result, fits a wide register. -/
theorem State.modulus_length_le (s : State) : s.modulus.length ≤ Config.cap := by
  have hmax : s.modulus.length ≤ Config.maxW := by simp [State.modulus, MontCtx.modulus]
  exact hmax.trans (by decide)

/-- NORM keeps a view inside its register: `OFF` grows by what `LEN` loses (R130). -/
theorem WideReg.dropLeadingZeros_inside {r : WideReg} (h : r.Inside) : r.dropLeadingZeros.Inside := by
  have hlen := WideReg.view_length h
  have hcap : Config.cap = 136 := rfl
  simp only [WideReg.Inside] at h
  simp only [WideReg.dropLeadingZeros, WideReg.Inside]
  split
  · exact Nat.zero_le _
  · simp only [BitVec.toNat_ofNat]
    omega

/-! ### The commands -/

/-- An outcome that, where it is a next state, meets the invariant. -/
def AnswersInv (o : Host.Outcome State Fault Refusal) : Prop := ∀ t, o = .next t → t.Inv

theorem answersInv_next {t : State} (h : t.Inv) : AnswersInv (.next t) := by
  rintro _ ⟨⟩
  exact h

/-- The commands that only write an array of at most `CAP` words to their destination once no check applies. -/
theorem State.Sane.command_writeReg_answersInv {s : State} (h : s.Sane) (rd : WReg) {checks : List (Bool × Cause)} {a : List Word}
    (ha : (∀ p ∈ checks, p.1 = false) → a.length ≤ Config.cap) :
    AnswersInv (.next (s.command (some rd) checks (s.writeReg rd a))) :=
  answersInv_next (h.command_inv fun hc => h.writeReg rd (ha hc))

theorem execLdb_answersInv {s : State} (h : s.Sane) (rd : WReg) (n : Nat) : AnswersInv (execLdb rd n s) := by
  refine h.command_writeReg_answersInv rd fun hc => bytesToWords_length_le ?_
  rw [State.byteString, Memory.readBytes_length]
  simpa using hc

/-- STB stores, or scrambles, `4 × LEN(rs2)` bytes, which a view inside its register bounds by 544 (R104). -/
theorem execStb_answersInv {s : State} (h : s.Sane) (rs1 rs2 : WReg) : AnswersInv (execStb rs1 rs2 s) := by
  have hwidth : 4 * s.widthWords rs2 ≤ Config.iobBytes := by
    have hview := h.views rs2
    have hcap : Config.iobBytes = 4 * Config.cap := rfl
    simp only [WideReg.Inside] at hview
    simp only [State.widthWords]
    omega
  unfold execStb
  dsimp only
  split
  · exact answersInv_next (h.raiseFault_inv _ _)
  split
  · exact answersInv_next ((h.setIob (Memory.wf_writeBytes h.iob (by simpa using hwidth))).raiseFault_inv _ _)
  split
  · omega
  · exact answersInv_next (h.setIob (Memory.wf_writeBytes h.iob (by simpa [wordsToBytes] using hwidth))).complete_inv

theorem cmpFlag_ne (o : Ordering) : cmpFlag o ≠ 0b10 := by
  cases o <;> decide

theorem execCmp_answersInv {s : State} (h : s.Sane) (rs1 rs2 : WReg) : AnswersInv (execCmp rs1 rs2 s) :=
  answersInv_next (h.command_inv fun _ => h.setCmp (cmpFlag_ne _))

theorem execAdd_answersInv {s : State} (h : s.Sane) (rd rs1 rs2 : WReg) : AnswersInv (execAdd rd rs1 rs2 s) :=
  answersInv_next (h.command_inv fun _ =>
    (h.writeReg rd ((words_length _ _).le.trans (s.view_length_le rs1))).setCarry _)

theorem execSub_answersInv {s : State} (h : s.Sane) (rd rs1 rs2 : WReg) : AnswersInv (execSub rd rs1 rs2 s) :=
  answersInv_next (h.command_inv fun _ =>
    (h.writeReg rd ((differenceArray_length _ _ _).le.trans (s.view_length_le rs1))).setCarry _)

theorem execNorm_answersInv {s : State} (h : s.Sane) (rd : WReg) : AnswersInv (execNorm rd s) :=
  answersInv_next (h.command_inv fun _ => h.setReg rd (WideReg.dropLeadingZeros_inside (h.views rd)))

/-- Where the capacity check of a result of `l` words does not apply, the result fits (R126, R132, R134). -/
theorem le_cap_of_overCapacity {l : Nat} (h : (overCapacity l).1 = false) : l ≤ Config.cap := by
  simpa [overCapacity] using h

theorem execShl_answersInv {s : State} (h : s.Sane) (rd rs1 : WReg) (n : Nat) : AnswersInv (execShl rd rs1 n s) :=
  h.command_writeReg_answersInv rd fun hc => (words_length _ _).le.trans (le_cap_of_overCapacity (hc _ (by simp)))

theorem execMul_answersInv {s : State} (h : s.Sane) (rd rs1 rs2 : WReg) : AnswersInv (execMul rd rs1 rs2 s) :=
  h.command_writeReg_answersInv rd fun hc => (words_length _ _).le.trans (le_cap_of_overCapacity (hc _ (by simp)))

theorem execSqr_answersInv {s : State} (h : s.Sane) (rd rs1 : WReg) : AnswersInv (execSqr rd rs1 s) :=
  h.command_writeReg_answersInv rd fun hc => (words_length _ _).le.trans (le_cap_of_overCapacity (hc _ (by simp)))

/-- MSETUP's checks leave an acceptable modulus (R172). -/
theorem execMsetup_answersInv {s : State} (h : s.Sane) (rs1 : WReg) : AnswersInv (execMsetup rs1 s) := by
  refine answersInv_next (h.command_inv fun hc => h.loadCtx ?_)
  obtain ⟨-, hnorm, ⟨hne, hmax⟩, hodd⟩ :
      s.AllValid [rs1] ∧ isNormalized (s.view rs1) = true ∧ (s.view rs1 ≠ [] ∧ (s.view rs1).length ≤ Config.maxW) ∧
        (lowWord (s.view rs1)).toNat % 2 = 1 := by
    simpa [State.sourceCheck, State.someInvalid_eq_false, lowWordEven] using hc
  exact ⟨List.length_pos_iff.mpr hne, hmax, hnorm, hodd⟩

/-- MODPOW's key guard leaves an acceptable modulus (R191). -/
theorem State.modulusOk_of_keyGuard {s : State} {rs1 rs2 rs3 : WReg} (h : firstFault (s.keyGuard rs1 rs2 rs3) = none) :
    ModulusOk (s.view rs3) := by
  have hc := firstFault_eq_none.mp h
  simp only [State.keyGuard, List.forall_mem_cons] at hc
  obtain ⟨-, hlen, heven, -⟩ := hc
  obtain ⟨hlen, hnorm⟩ : ((s.view rs3).length = 32 ∨ (s.view rs3).length = 64) ∧ isNormalized (s.view rs3) = true := by
    simpa [or_iff_not_imp_left] using hlen
  have hodd : (lowWord (s.view rs3)).toNat % 2 = 1 := by simpa [lowWordEven] using heven
  have hmax : Config.maxW = 64 := rfl
  exact ⟨by omega, by omega, hnorm, hodd⟩

/-- MODPOW ends by the guard's fault, by the exponent-1 copy, or as a command run after the context write (R190, R192). -/
theorem State.modpowWith_inv {s : State} (h : s.Sane) (slots : Nat) (rd rs1 rs2 rs3 : WReg) :
    (s.modpowWith slots rd rs1 rs2 rs3).Inv := by
  unfold State.modpowWith
  dsimp only
  split
  next c _ => exact h.raiseFault_inv c _
  next hguard =>
    split
    · exact (h.writeReg rd (s.view_length_le rs1)).complete_inv
    · have hctx := h.loadCtx (State.modulusOk_of_keyGuard hguard)
      exact hctx.command_inv fun _ =>
        hctx.writeReg rd ((powArray_length_le _ _ _).trans (s.view_length_le rs3))

/-- Every command answers a state that meets the invariant. -/
theorem exec_answersInv {s : State} (h : s.Sane) (i : Instr) : AnswersInv (exec i s) := by
  cases i with
  | nop => exact answersInv_next h.complete_inv
  | mov rd rs1 => exact h.command_writeReg_answersInv rd fun _ => s.view_length_le rs1
  | ldb rd n => exact execLdb_answersInv h rd n
  | stb rs1 rs2 => exact execStb_answersInv h rs1 rs2
  | cmp rs1 rs2 => exact execCmp_answersInv h rs1 rs2
  | add rd rs1 rs2 => exact execAdd_answersInv h rd rs1 rs2
  | sub rd rs1 rs2 => exact execSub_answersInv h rd rs1 rs2
  | shl rd rs1 n => exact execShl_answersInv h rd rs1 n
  | shr rd rs1 n =>
    exact h.command_writeReg_answersInv rd fun _ => (shrArray_length_le _ n).trans (s.view_length_le rs1)
  | norm rd => exact execNorm_answersInv h rd
  | mul rd rs1 rs2 => exact execMul_answersInv h rd rs1 rs2
  | sqr rd rs1 => exact execSqr_answersInv h rd rs1
  | rem rd rs1 rs2 =>
    exact h.command_writeReg_answersInv rd fun _ => (remArray_length_le _ _).trans (s.view_length_le rs2)
  | msetup rs1 => exact execMsetup_answersInv h rs1
  | mto rd rs1 =>
    exact h.command_writeReg_answersInv rd fun _ => (montForm_length _ _).le.trans s.modulus_length_le
  | mmul rd rs1 rs2 =>
    exact h.command_writeReg_answersInv rd fun _ => (montRed_length _ _ _).le.trans s.modulus_length_le
  | msqr rd rs1 =>
    exact h.command_writeReg_answersInv rd fun _ => (montRed_length _ _ _).le.trans s.modulus_length_le
  | mred rd rs1 =>
    exact h.command_writeReg_answersInv rd fun _ => (montRed_length _ _ _).le.trans s.modulus_length_le
  | modpow rd rs1 rs2 rs3 => exact answersInv_next (State.modpowWith_inv h _ rd rs1 rs2 rs3)

/-- The engine's turn keeps the invariant, whether it runs a command, takes the decode fault or rests (R29, R86). -/
theorem State.engineTurn_answersInv {s : State} (h : s.Inv) : AnswersInv s.engineTurn := by
  unfold State.engineTurn
  split
  · unfold State.runCommand
    split
    next i _ => exact exec_answersInv h.sane i
    next e _ => exact answersInv_next (h.sane.raiseFault_inv _ none)
  · exact answersInv_next h
  · exact answersInv_next h

/-! ### The host's accesses -/

/-- What is due, `BUSERR` and the last read word are no part of the invariant. -/
theorem State.Inv.port {s : State} (h : s.Inv) (rest : List Event) (b : Bool) (x : Word) :
    { s with events := rest, buserr := b, readData := x }.Inv :=
  ⟨h.views, h.cmp, h.ctx, h.iob, h.errors, h.done, h.table, h.hidden⟩

theorem State.Inv.setReg {s : State} (h : s.Inv) (r : WReg) {x : WideReg} (hx : x.Inside) : (s.setReg r x).Inv :=
  ⟨(h.sane.setReg r hx).views, h.cmp, h.ctx, h.iob, h.errors, h.done, h.table, h.hidden⟩

theorem State.Inv.setIob {s : State} (h : s.Inv) {m : Memory} (hm : Memory.wf m = true) : (s.setIob m).Inv :=
  ⟨h.views, h.cmp, h.ctx, hm, h.errors, h.done, h.table, h.hidden⟩

/-- A command is latched in IDLE, where the error registers are zero (R27, R31). -/
theorem State.Inv.startCommand {s : State} (h : s.Inv) (hidle : s.engine = .idle) (v : Word) : (s.startCommand v).Inv where
  views := h.views
  cmp := h.cmp
  ctx := h.ctx
  iob := h.iob
  errors := ⟨fun he => by simp at he, fun _ => h.errors.2 (by simp [hidle])⟩
  done hd := by simp at hd
  table := h.table
  hidden := h.hidden

/-- Leaving FAULTED clears the error registers (R215). -/
theorem State.Inv.acknowledge {s : State} (h : s.Inv) : s.acknowledge.Inv := by
  unfold State.acknowledge
  split
  · exact ⟨h.views, h.cmp, h.ctx, h.iob, ⟨fun he => by simp at he, fun _ => ⟨rfl, rfl⟩⟩, fun _ => rfl, h.table, h.hidden⟩
  · exact h
  · exact h

theorem State.Inv.writeCtrl {s : State} (h : s.Inv) (v : Word) : (s.writeCtrl v).Inv := by
  have hack : (if v.getLsbD 0 then s.acknowledge else s).Inv := by
    split
    · exact h.acknowledge
    · exact h
  unfold State.writeCtrl
  dsimp only
  generalize (if v.getLsbD 0 then s.acknowledge else s) = u at hack
  split
  · exact hack.port u.events false u.readData
  · exact hack

/-- Only the addresses of the I/O buffer window name a byte of it, and one inside the buffer (R60). -/
theorem lt_iobBytes_of_hostReg {addr : BitVec 16} {j : Nat} (h : hostReg addr = some (.iob j)) : j < Config.iobBytes := by
  have hcontrol : controlReg addr.toNat ≠ some (.iob j) := by
    unfold controlReg
    split <;> simp
  have hdesc : descReg addr.toNat ≠ some (.iob j) := by simp [descReg]
  have hdata : dataReg addr.toNat ≠ some (.iob j) := by simp [dataReg]
  have hiob : iobReg addr.toNat = some (.iob j) := by
    simp only [hostReg, Option.or_eq_some_iff] at h
    tauto
  simp only [iobReg, Option.ite_none_right_eq_some, Option.some.injEq, HostReg.iob.injEq] at hiob
  omega

/-- An access reaches a byte inside the I/O buffer; with 32 bits, the lowest of four (R63, R64). -/
theorem reach_iob {width : AccessWidth} {addr : BitVec 16} {j : Nat} (h : reach width addr = some (.iob j)) :
    j < Config.iobBytes ∧ (width = .w32 → j % 4 = 0) := by
  unfold reach at h
  split at h
  next k hk =>
    simp only [Option.ite_none_right_eq_some, Option.some.injEq, HostReg.iob.injEq] at h
    obtain ⟨hmod, rfl⟩ := h
    exact ⟨lt_iobBytes_of_hostReg hk, fun _ => hmod⟩
  next hne => exact absurd h (hne j)
  next k hk =>
    obtain rfl : k = j := by simpa using h
    exact ⟨lt_iobBytes_of_hostReg hk, fun hw => by cases hw⟩
  next => cases h
  next => cases h

/-- A write of the I/O buffer window stays inside the buffer, the four bytes of a 32-bit write by their alignment (R65). -/
theorem State.Inv.writeIob {s : State} (h : s.Inv) {width : AccessWidth} {j : Nat} (v : Word) (hj : j < Config.iobBytes)
    (halign : width = .w32 → j % 4 = 0) : (s.writeIob width j v).Inv := by
  cases width with
  | w8 => exact h.setIob (Memory.wf_write h.iob _ hj)
  | w16 => exact h
  | w32 =>
    have hmod := halign rfl
    have hbytes : Config.iobBytes = 544 := rfl
    exact h.setIob (Memory.wf_writeWord h.iob v (by omega))

/-- An accepted host write keeps the invariant (R27, R32, R35, R64). -/
theorem State.Inv.hostWrite {s t : State} (h : s.Inv) {width : AccessWidth} {addr : BitVec 16} {v : Word}
    (ht : s.hostWrite width addr v = some t) : t.Inv := by
  unfold State.hostWrite at ht
  cases hreach : reach width addr with
  | none => simp [hreach] at ht
  | some r =>
    simp only [hreach, Option.ite_none_left_eq_some] at ht
    obtain ⟨-, hw⟩ := ht
    cases r with
    | cmd =>
      simp only [State.writeReached, Option.ite_none_right_eq_some, Option.some.injEq] at hw
      obtain ⟨hidle, rfl⟩ := hw
      exact h.startCommand hidle v
    | ctrl =>
      obtain rfl := Option.some.inj hw
      exact h.writeCtrl v
    | desc i =>
      simp only [State.writeReached, State.writeDesc, Option.ite_none_right_eq_some, Option.some.injEq] at hw
      obtain ⟨hinside, rfl⟩ := hw
      exact h.setReg i hinside
    | data i k =>
      obtain rfl := Option.some.inj hw
      exact h.setReg i (h.views i)
    | iob j =>
      obtain rfl := Option.some.inj hw
      obtain ⟨hj, halign⟩ := reach_iob hreach
      exact h.writeIob v hj halign
    | status | errcode | errinfo | flags | ctxStat | ctxNinvLo | ctxNinvHi => cases hw

theorem State.Inv.writeTurn {s : State} (h : s.Inv) (width : AccessWidth) (addr : BitVec 16) (v : Word) :
    (s.writeTurn width addr v).Inv := by
  unfold State.writeTurn
  split
  next t ht => exact h.hostWrite ht
  next => exact h.port s.events true s.readData

theorem State.Inv.readTurn {s : State} (h : s.Inv) (width : AccessWidth) (addr : BitVec 16) : (s.readTurn width addr).Inv := by
  unfold State.readTurn
  split
  next x _ => exact h.port s.events s.buserr x
  next => exact h.port s.events true 0

/-! ### Reset and the step -/

/-- `Reset` gives the invariant from any state (R240). -/
theorem State.applyReset_inv (s : State) : s.applyReset.Inv where
  views := by
    change ∀ r, (State.reset.reg r).Inside
    decide +kernel
  cmp := by
    rw [State.applyReset_flags]
    decide
  ctx := by
    rw [State.applyReset_ctx]
    exact ⟨fun hv => absurd hv (by decide), fun _ => rfl⟩
  iob := rfl
  errors := ⟨fun he => absurd he (by rw [State.applyReset_engine]; decide), fun _ => ⟨rfl, rfl⟩⟩
  done _ := rfl
  table := rfl
  hidden := freeHidden_fits _ _

/-- Settles O12, by the turns of R70: the engine's, the host's read and write, the reset. -/
theorem stepKeepsInv : Obligations.StepKeepsInv := by
  intro s t h hstep
  have hdue (rest : List Event) : { s with events := rest }.Inv := h.port rest s.buserr s.readData
  unfold step State.turn at hstep
  split at hstep
  next => exact State.engineTurn_answersInv h t hstep
  next rest _ => exact State.engineTurn_answersInv (hdue rest) t hstep
  next width addr rest _ => exact answersInv_next ((hdue rest).readTurn width addr) t hstep
  next width addr v rest _ => exact answersInv_next ((hdue rest).writeTurn width addr v) t hstep
  next rest _ => exact answersInv_next (State.applyReset_inv _) t hstep

end Sys2Proof.Machine
end

/-! SUPPORT. The state family's statements. Every command writes only the state the spec names for it (`WritesOnly`), then completes or
takes a fault (`EndsCommand`; R29, R214); from that, the engine's turn. Then the state after reset (R39, R240), and the host's writes of
CMD, CTRL, W_DESC and W_DATA: what their addresses reach (R60), and the state each leaves or that it is refused (R27, R32, R35, R66). -/

namespace Sys2Proof.Machine

open Sys2Proof

/-! ### What a command may write -/

/-- `u` differs from `s` at most in what the spec lets the command `i` write before it ends (R26, R28, R33). -/
structure WritesOnly (i : Instr) (s u : State) : Prop where
  cmp : (∀ rs1 rs2, i ≠ .cmp rs1 rs2) → u.flags.cmp = s.flags.cmp
  carry : (∀ rd rs1 rs2, i ≠ .add rd rs1 rs2 ∧ i ≠ .sub rd rs1 rs2) → u.flags.c = s.flags.c
  ctx : (∀ rd rs1 rs2 rs3, i ≠ .msetup rs1 ∧ i ≠ .modpow rd rs1 rs2 rs3) → u.ctx = s.ctx
  iob : (∀ rs1 rs2, i ≠ .stb rs1 rs2) → u.iob = s.iob
  regs : ∀ r, i.destination ≠ some r → u.reg r = s.reg r
  port : SamePort s u

theorem WritesOnly.refl (i : Instr) (s : State) : WritesOnly i s s :=
  ⟨fun _ => rfl, fun _ => rfl, fun _ => rfl, fun _ => rfl, fun _ _ => rfl, ⟨rfl, rfl, rfl, rfl⟩⟩

section
variable {i : Instr} {s u : State} (h : WritesOnly i s u)
include h

theorem WritesOnly.setReg {rd : WReg} (hrd : i.destination = some rd) (x : WideReg) : WritesOnly i s (u.setReg rd x) where
  cmp := h.cmp
  carry := h.carry
  ctx := h.ctx
  iob := h.iob
  regs r hr := (State.reg_setReg_of_ne u x fun e => hr (hrd.trans (congrArg some e.symm))).trans (h.regs r hr)
  port := h.port

theorem WritesOnly.writeReg {rd : WReg} (hrd : i.destination = some rd) (a : List Word) : WritesOnly i s (u.writeReg rd a) :=
  h.setReg hrd (WideReg.ofArray a)

theorem WritesOnly.setCmp (hi : ∃ rs1 rs2, i = .cmp rs1 rs2) (c : BitVec 2) : WritesOnly i s (u.setCmp c) where
  cmp hne := by
    obtain ⟨rs1, rs2, rfl⟩ := hi
    exact absurd rfl (hne rs1 rs2)
  carry := h.carry
  ctx := h.ctx
  iob := h.iob
  regs := h.regs
  port := h.port

theorem WritesOnly.setCarry (hi : ∃ rd rs1 rs2, i = .add rd rs1 rs2 ∨ i = .sub rd rs1 rs2) (c : Bool) :
    WritesOnly i s (u.setCarry c) where
  cmp := h.cmp
  carry hne := by
    obtain ⟨rd, rs1, rs2, hi⟩ := hi
    exact (hi.elim (hne rd rs1 rs2).1 (hne rd rs1 rs2).2).elim
  ctx := h.ctx
  iob := h.iob
  regs := h.regs
  port := h.port

theorem WritesOnly.loadCtx (hi : ∃ rd rs1 rs2 rs3, i = .msetup rs1 ∨ i = .modpow rd rs1 rs2 rs3) (n : List Word) :
    WritesOnly i s (u.loadCtx n) where
  cmp := h.cmp
  carry := h.carry
  ctx hne := by
    obtain ⟨rd, rs1, rs2, rs3, hi⟩ := hi
    exact (hi.elim (hne rd rs1 rs2 rs3).1 (hne rd rs1 rs2 rs3).2).elim
  iob := h.iob
  regs := h.regs
  port := h.port

theorem WritesOnly.setIob (hi : ∃ rs1 rs2, i = .stb rs1 rs2) (m : Memory) : WritesOnly i s (u.setIob m) where
  cmp := h.cmp
  carry := h.carry
  ctx := h.ctx
  iob hne := by
    obtain ⟨rs1, rs2, rfl⟩ := hi
    exact absurd rfl (hne rs1 rs2)
  regs := h.regs
  port := h.port

end

/-! ### The two ways a command ends -/

/-- The command `i` on `s` wrote what it may write, then completed or took a fault that invalidates its destination (R29, R214). -/
def EndsCommand (i : Instr) (s t : State) : Prop :=
  ∃ u, WritesOnly i s u ∧ (t = u.complete ∨ ∃ c, t = u.raiseFault c i.destination)

theorem WritesOnly.endsCommand_complete {i : Instr} {s u : State} (h : WritesOnly i s u) : EndsCommand i s u.complete :=
  ⟨u, h, .inl rfl⟩

theorem WritesOnly.endsCommand_raiseFault {i : Instr} {s u : State} (h : WritesOnly i s u) (c : Cause) {rd : Option WReg}
    (hrd : i.destination = rd) : EndsCommand i s (u.raiseFault c rd) :=
  ⟨u, h, .inr ⟨c, hrd ▸ rfl⟩⟩

/-- Checks in order, then the effect (R218): the fault is taken on the state the checks were made on. -/
theorem WritesOnly.endsCommand_command {i : Instr} {s u : State} (h : WritesOnly i s u) {rd : Option WReg}
    (hrd : i.destination = rd) (checks : List (Bool × Cause)) {effect : State} (heffect : WritesOnly i s effect) :
    EndsCommand i s (u.command rd checks effect) := by
  obtain ⟨c, -, hfault⟩ | ⟨-, hdone⟩ := u.command_cases rd checks effect
  · rw [hfault]
    exact h.endsCommand_raiseFault c hrd
  · rw [hdone]
    exact heffect.endsCommand_complete

/-- The status a command leaves, completed or faulted with a cause and its class (R29, R214). -/
def State.Ended (t : State) : Prop :=
  t.EndedWell ∨ (t.engine = .faulted ∧ t.done = false ∧ ∃ c : Cause, t.errinfo = c.number ∧ t.errcode = c.errClass.number)

theorem State.raiseFault_ended (s : State) (c : Cause) (rd : Option WReg) : (s.raiseFault c rd).Ended := by
  obtain ⟨hengine, hdone, hinfo, hcode, -⟩ := s.raiseFault_taken c rd
  exact .inr ⟨hengine, hdone, c, hinfo, hcode⟩

theorem EndsCommand.ended {i : Instr} {s t : State} (h : EndsCommand i s t) : t.Ended := by
  obtain ⟨u, -, rfl | ⟨c, rfl⟩⟩ := h
  · exact .inl u.complete_endedWell
  · exact u.raiseFault_ended c i.destination

/-- Neither ending writes more than the command may: a fault touches the destination only. -/
theorem EndsCommand.writesOnly {i : Instr} {s t : State} (h : EndsCommand i s t) : WritesOnly i s t := by
  obtain ⟨u, hu, rfl | ⟨c, rfl⟩⟩ := h
  · exact ⟨hu.cmp, hu.carry, hu.ctx, hu.iob, hu.regs, hu.port⟩
  · cases hrd : i.destination with
    | none => exact ⟨hu.cmp, hu.carry, hu.ctx, hu.iob, hu.regs, hu.port⟩
    | some rd =>
      have hfaulted := hu.setReg hrd (WideReg.faulted u.freeCtr)
      exact ⟨hfaulted.cmp, hfaulted.carry, hfaulted.ctx, hfaulted.iob, hfaulted.regs, hfaulted.port⟩

/-- Either ending releases the power table (R195, log 5). -/
theorem EndsCommand.tableClaimed {i : Instr} {s t : State} (h : EndsCommand i s t) : t.hidden.tableClaimed = 0 := by
  obtain ⟨u, -, rfl | ⟨c, rfl⟩⟩ := h <;> rfl

/-! ### The commands -/

/-- An outcome that, where it is a next state, ends the command. -/
def AnswersEnd (i : Instr) (s : State) (o : Host.Outcome State Fault Refusal) : Prop := ∀ t, o = .next t → EndsCommand i s t

theorem answersEnd_next {i : Instr} {s t : State} (h : EndsCommand i s t) : AnswersEnd i s (.next t) := by
  rintro _ ⟨⟩
  exact h

/-- The commands that only write their destination once no check applies. -/
theorem State.command_setReg_answersEnd {i : Instr} (s : State) {rd : WReg} (hrd : i.destination = some rd)
    (checks : List (Bool × Cause)) (x : WideReg) : AnswersEnd i s (.next (s.command (some rd) checks (s.setReg rd x))) :=
  answersEnd_next ((WritesOnly.refl i s).endsCommand_command hrd checks ((WritesOnly.refl i s).setReg hrd x))

theorem execCmp_answersEnd (rs1 rs2 : WReg) (s : State) : AnswersEnd (.cmp rs1 rs2) s (execCmp rs1 rs2 s) :=
  have h := WritesOnly.refl (.cmp rs1 rs2) s
  answersEnd_next (h.endsCommand_command rfl _ (h.setCmp ⟨_, _, rfl⟩ _))

theorem execAdd_answersEnd (rd rs1 rs2 : WReg) (s : State) : AnswersEnd (.add rd rs1 rs2) s (execAdd rd rs1 rs2 s) :=
  have h := WritesOnly.refl (.add rd rs1 rs2) s
  answersEnd_next (h.endsCommand_command rfl _ ((h.writeReg rfl _).setCarry ⟨_, _, _, .inl rfl⟩ _))

theorem execSub_answersEnd (rd rs1 rs2 : WReg) (s : State) : AnswersEnd (.sub rd rs1 rs2) s (execSub rd rs1 rs2 s) :=
  have h := WritesOnly.refl (.sub rd rs1 rs2) s
  answersEnd_next (h.endsCommand_command rfl _ ((h.writeReg rfl _).setCarry ⟨_, _, _, .inr rfl⟩ _))

theorem execMsetup_answersEnd (rs1 : WReg) (s : State) : AnswersEnd (.msetup rs1) s (execMsetup rs1 s) :=
  have h := WritesOnly.refl (.msetup rs1) s
  answersEnd_next (h.endsCommand_command rfl _ (h.loadCtx ⟨0, _, 0, 0, .inl rfl⟩ _))

/-- STB may write the I/O buffer before it faults: WIDTH leaves the bytes unspecified (R104). -/
theorem execStb_answersEnd (rs1 rs2 : WReg) (s : State) : AnswersEnd (.stb rs1 rs2) s (execStb rs1 rs2 s) := by
  have h := WritesOnly.refl (.stb rs1 rs2) s
  unfold execStb
  dsimp only
  split
  · exact answersEnd_next (h.endsCommand_raiseFault _ rfl)
  split
  · exact answersEnd_next ((h.setIob ⟨_, _, rfl⟩ _).endsCommand_raiseFault _ rfl)
  split
  · intro t ht
    cases ht
  · exact answersEnd_next (h.setIob ⟨_, _, rfl⟩ _).endsCommand_complete

/-- MODPOW ends by the guard's fault, by the exponent-1 copy, or as a command run after the context write (R190, R192). -/
theorem execModpow_answersEnd (rd rs1 rs2 rs3 : WReg) (s : State) :
    AnswersEnd (.modpow rd rs1 rs2 rs3) s (execModpow rd rs1 rs2 rs3 s) := by
  have h := WritesOnly.refl (.modpow rd rs1 rs2 rs3) s
  refine answersEnd_next ?_
  unfold State.modpowWith
  dsimp only
  split
  next c _ => exact h.endsCommand_raiseFault c rfl
  next =>
    split
    · exact (h.writeReg rfl _).endsCommand_complete
    · have hctx := h.loadCtx ⟨rd, rs1, rs2, rs3, .inr rfl⟩ (s.view rs3)
      exact hctx.endsCommand_command rfl _ (hctx.writeReg rfl _)

/-- Every command that answers a next state has written what it may write, then completed or faulted. -/
theorem exec_answersEnd (i : Instr) (s : State) : AnswersEnd i s (exec i s) := by
  cases i with
  | nop => exact answersEnd_next (WritesOnly.refl _ s).endsCommand_complete
  | stb rs1 rs2 => exact execStb_answersEnd rs1 rs2 s
  | cmp rs1 rs2 => exact execCmp_answersEnd rs1 rs2 s
  | add rd rs1 rs2 => exact execAdd_answersEnd rd rs1 rs2 s
  | sub rd rs1 rs2 => exact execSub_answersEnd rd rs1 rs2 s
  | msetup rs1 => exact execMsetup_answersEnd rs1 s
  | modpow rd rs1 rs2 rs3 => exact execModpow_answersEnd rd rs1 rs2 rs3 s
  | mov | ldb | shl | shr | norm | mul | sqr | rem | mto | mmul | msqr | mred => exact s.command_setReg_answersEnd rfl _ _

/-- Settles O30, from what both endings of every command leave. -/
theorem commandsWriteOnlyTheirState : Obligations.CommandsWriteOnlyTheirState := by
  intro i s t hexec
  have hend := exec_answersEnd i s t hexec
  have hw := hend.writesOnly
  exact ⟨hw.cmp, hw.carry, hw.ctx, fun hi j => by rw [hw.iob hi], hw.regs, hw.port, hend.tableClaimed⟩

/-! ### The engine's turn -/

/-- STB's stop needs a width past the I/O buffer, which a view inside its register rules out (R22, R104, log 11). -/
theorem execStb_answers {s : State} {rs2 : WReg} (h : (s.reg rs2).Inside) (rs1 : WReg) : ∃ t, execStb rs1 rs2 s = .next t := by
  have hwidth : ¬ Config.iobBytes < 4 * s.widthWords rs2 := by
    have hbytes : Config.iobBytes = 4 * Config.cap := rfl
    simp only [WideReg.Inside] at h
    simp only [State.widthWords]
    omega
  unfold execStb
  dsimp only
  rw [if_neg hwidth]
  split
  · exact ⟨_, rfl⟩
  split <;> exact ⟨_, rfl⟩

/-- Where every view lies inside its register, no command stops; only STB needs that (R22, log 11). -/
theorem exec_answers {s : State} (h : ∀ r, (s.reg r).Inside) (i : Instr) : ∃ t, exec i s = .next t := by
  cases i with
  | stb rs1 rs2 => exact execStb_answers (h rs2) rs1
  | nop | mov | ldb | cmp | add | sub | shl | shr | norm | mul | sqr | rem | msetup | mto | mmul | msqr | mred | modpow =>
    exact ⟨_, rfl⟩

theorem State.engineTurn_of_ne_busy {s : State} (h : s.engine ≠ .busy) : s.engineTurn = .next s := by
  unfold State.engineTurn
  split
  next hbusy => exact absurd hbusy h
  next => rfl
  next => rfl

theorem State.engineTurn_of_ok {s : State} (h : s.engine = .busy) {i : Instr} (hi : decode s.cmdreg = .ok i) :
    s.engineTurn = exec i s := by
  simp only [State.engineTurn, h, State.runCommand, State.fetchWord, hi]

theorem State.engineTurn_of_error {s : State} (h : s.engine = .busy) {e : DecodeError} (he : decode s.cmdreg = .error e) :
    s.engineTurn = .next (s.raiseFault (decodeCause e) none) := by
  simp only [State.engineTurn, h, State.runCommand, State.fetchWord, he]

/-- The engine's step is its turn on the state with that turn taken off the event list (R70, log 1). -/
theorem step_of_engineNext {s : State} {rest : List Event} (h : s.EngineNext rest) :
    step s = State.engineTurn { s with events := rest } := by
  obtain ⟨hnone, rfl⟩ | hhead := h
  · rw [step_of_engine_turn hnone, ← hnone]
  · simp only [step, State.turn, hhead]

/-- Settles O6, for an empty event list and for the engine's turn at its head. -/
theorem stepRunsDecodedCommand : Obligations.StepRunsDecodedCommand := by
  intro s i hbusy hdecode
  refine ⟨fun hnone => ?_, fun rest hhead => ?_⟩
  · rw [step_of_engine_turn hnone, State.engineTurn_of_ok hbusy hdecode]
  · rw [step_of_engineNext (.inr hhead)]
    exact State.engineTurn_of_ok (s := { s with events := rest }) hbusy hdecode

/-- In BUSY the engine's turn ends the command, or faults on the word, and leaves what is still due (R29, R86). -/
theorem State.engineTurn_ends {s : State} (hviews : ∀ r, (s.reg r).Inside) (hbusy : s.engine = .busy) :
    ∃ t, s.engineTurn = .next t ∧ t.events = s.events ∧ t.Ended := by
  cases hdecode : decode s.cmdreg with
  | ok i =>
    obtain ⟨t, ht⟩ := exec_answers hviews i
    have hend := exec_answersEnd i s t ht
    obtain ⟨-, -, -, hevents⟩ := hend.writesOnly.port
    exact ⟨t, (State.engineTurn_of_ok hbusy hdecode).trans ht, hevents, hend.ended⟩
  | error e =>
    exact ⟨_, State.engineTurn_of_error hbusy hdecode, s.raiseFault_events _ _, s.raiseFault_ended _ _⟩

/-- Settles O8: outside BUSY the engine rests; in BUSY every command, and every undecodable word, ends. -/
theorem engineMovesOnlyInBusyAndEnds : Obligations.EngineMovesOnlyInBusyAndEnds := by
  refine ⟨fun s rest hnext hidle => ?_, fun s rest hinv hnext hbusy => ?_⟩
  · rw [step_of_engineNext hnext]
    exact State.engineTurn_of_ne_busy hidle
  · rw [step_of_engineNext hnext]
    exact State.engineTurn_ends hinv.views hbusy

/-! ### Reset -/

theorem State.reset_reg (r : WReg) : State.reset.reg r = WideReg.reset := by
  simp [State.reg, State.reset]

/-- Settles O9: each piece of state at its value in the table of R39. -/
theorem resetValues : Obligations.ResetValues := by
  refine ⟨fun r => ?_, rfl, rfl, rfl, rfl, rfl, fun k => ?_, fun _ => rfl, rfl, rfl, rfl, rfl, rfl, rfl⟩
  · rw [State.reset_reg]
    exact ⟨rfl, rfl, rfl, fun k => by simp [WideReg.reset]⟩
  · simp [State.reset, MontCtx.reset]

/-- Hidden storage of `State.reset` has the spec's sizes for `MLEN` = 0 (R37, log 5). -/
theorem Hidden.reset_fits : Hidden.reset.Fits 0 where
  slots := List.length_replicate
  widths e he := by
    rw [List.eq_of_mem_replicate he]
    exact List.length_replicate
  scratch := List.forall_mem_nil _

/-- Settles O11: outside hidden storage the reset state is what a `Reset` leaves, which meets the invariant. -/
theorem resetSatisfiesInv : Obligations.ResetSatisfiesInv := by
  have h := State.applyReset_inv State.reset
  exact ⟨h.views, h.cmp, h.ctx, h.iob, h.errors, h.done, rfl, Hidden.reset_fits⟩

/-! ### A host access as a step -/

theorem step_of_read {s : State} {rest : List Event} {width : AccessWidth} {addr : BitVec 16}
    (h : s.events = .read width addr :: rest) : step s = .next (State.readTurn { s with events := rest } width addr) := by
  simp only [step, State.turn, h]

theorem step_of_write {s : State} {rest : List Event} {width : AccessWidth} {addr : BitVec 16} {v : Word}
    (h : s.events = .write width addr v :: rest) :
    step s = .next (State.writeTurn { s with events := rest } width addr v) := by
  simp only [step, State.turn, h]

/-- Outside BUSY a read of what an address reaches returns its value (R61, R66). -/
theorem State.readTurn_of_reach {s : State} {width : AccessWidth} {addr : BitVec 16} {r : HostReg}
    (hreach : reach width addr = some r) (h : s.engine ≠ .busy) :
    s.readTurn width addr = { s with readData := s.readValue width r } := by
  simp [State.readTurn, State.hostRead, hreach, h]

/-- While BUSY every write is refused (R66). -/
theorem State.writeTurn_of_busy {s : State} (h : s.engine = .busy) (width : AccessWidth) (addr : BitVec 16) (v : Word) :
    s.writeTurn width addr v = { s with buserr := true } := by
  unfold State.writeTurn State.hostWrite
  cases reach width addr <;> simp [h]

/-- Outside BUSY a write goes to what its address reaches, which may still refuse it (R62, R66). -/
theorem State.writeTurn_of_reach {s : State} {width : AccessWidth} {addr : BitVec 16} {v : Word} {r : HostReg}
    (hreach : reach width addr = some r) (h : s.engine ≠ .busy) :
    s.writeTurn width addr v = (s.writeReached width v r).getD { s with buserr := true } := by
  simp only [State.writeTurn, State.hostWrite, hreach, if_neg h]
  cases s.writeReached width v r <;> rfl

theorem refusedWrite_of_busy {s : State} {rest : List Event} {width : AccessWidth} {addr : BitVec 16} {v : Word}
    (hevents : s.events = .write width addr v :: rest) (h : s.engine = .busy) : RefusedWrite s rest := by
  rw [RefusedWrite, step_of_write hevents]
  exact congrArg _ (State.writeTurn_of_busy (s := { s with events := rest }) h width addr v)

/-- Outside BUSY: the step of a write, by what its address reaches. -/
theorem step_of_write_reach {s : State} {rest : List Event} {width : AccessWidth} {addr : BitVec 16} {v : Word} {r : HostReg}
    (hevents : s.events = .write width addr v :: rest) (hreach : reach width addr = some r) (h : s.engine ≠ .busy) :
    step s = .next ((State.writeReached { s with events := rest } width v r).getD { s with events := rest, buserr := true }) := by
  rw [step_of_write hevents]
  exact congrArg _ (State.writeTurn_of_reach (s := { s with events := rest }) hreach h)

/-! ### CMD -/

theorem reach_cmd : reach .w32 0x0000 = some .cmd := rfl

/-- Settles O15: BUSY refuses the write, and so does FAULTED. -/
theorem cmdWriteStartsOnlyInIdle : Obligations.CmdWriteStartsOnlyInIdle := by
  intro s rest v hevents
  have hwrite := step_of_write_reach hevents reach_cmd
  refine ⟨fun hidle => ?_, fun hne => ?_⟩
  · rw [hwrite (by simp [hidle]), State.writeReached, if_pos hidle]
    rfl
  · by_cases hbusy : s.engine = .busy
    · exact refusedWrite_of_busy hevents hbusy
    · rw [RefusedWrite, hwrite hbusy, State.writeReached, if_neg hne]
      rfl

/-! ### CTRL -/

theorem reach_ctrl : reach .w32 0x0010 = some .ctrl := rfl

theorem State.acknowledge_of_faulted {s : State} (h : s.engine = .faulted) :
    s.acknowledge = { s with engine := .idle, errcode := 0, errinfo := 0 } := by
  simp only [State.acknowledge, h]

theorem State.acknowledge_of_ne_faulted {s : State} (h : s.engine ≠ .faulted) : s.acknowledge = s := by
  unfold State.acknowledge
  split
  next hfaulted => exact absurd hfaulted h
  next => rfl
  next => rfl

/-- Bit 0 has its effect in FAULTED only (R32). -/
theorem State.acknowledge_without_effect {s : State} {v : Word} (h : ¬ (s.engine = .faulted ∧ v.getLsbD 0 = true)) :
    (if v.getLsbD 0 then s.acknowledge else s) = s := by
  split
  next hbit => exact State.acknowledge_of_ne_faulted fun he => h ⟨he, hbit⟩
  next => rfl

theorem State.writeCtrl_eq (s : State) (v : Word) :
    s.writeCtrl v = { (if v.getLsbD 0 then s.acknowledge else s) with
      buserr := if v.getLsbD 1 then false else s.buserr } := by
  have hbuserr : (if v.getLsbD 0 then s.acknowledge else s).buserr = s.buserr := by
    split
    · exact s.acknowledge_buserr
    · rfl
  rw [← hbuserr]
  unfold State.writeCtrl
  dsimp only
  split <;> rfl

/-- Settles O16, by whether bit 0 meets the FAULTED state. -/
theorem ctrlWriteAcknowledges : Obligations.CtrlWriteAcknowledges := by
  refine fun s rest => ⟨fun v hevents => ⟨fun hbusy => refusedWrite_of_busy hevents hbusy, fun hbusy => ?_⟩,
    fun hevents hbusy => ?_⟩
  · have hstep : step s = .next (State.writeCtrl { s with events := rest } v) :=
      step_of_write_reach hevents reach_ctrl hbusy
    rw [hstep, State.writeCtrl_eq]
    by_cases hack : s.engine = .faulted ∧ v.getLsbD 0 = true
    · obtain ⟨hfaulted, hbit⟩ := hack
      rw [if_pos hbit, State.acknowledge_of_faulted (s := { s with events := rest }) hfaulted]
      exact ⟨_, rfl, rfl, fun _ _ => ⟨rfl, rfl, rfl⟩, fun hn => absurd ⟨hfaulted, hbit⟩ hn,
        rfl, rfl, rfl, rfl, rfl, rfl, rfl, rfl⟩
    · rw [State.acknowledge_without_effect (s := { s with events := rest }) hack]
      exact ⟨_, rfl, rfl, fun hfaulted hbit => absurd ⟨hfaulted, hbit⟩ hack, fun _ => ⟨rfl, rfl, rfl⟩,
        rfl, rfl, rfl, rfl, rfl, rfl, rfl, rfl⟩
  · rw [step_of_read hevents]
    exact congrArg _ (State.readTurn_of_reach (s := { s with events := rest }) reach_ctrl hbusy)

/-! ### W_DESC and W_DATA -/

theorem controlReg_eq_none {a : Nat} (h : 0x20 < a) : controlReg a = none := by
  unfold controlReg
  split
  any_goals omega
  rfl

theorem hostReg_desc {addr : BitVec 16} {i : WReg} (h : addr.toNat = 0x40 + 4 * i.val) : hostReg addr = some (.desc i) := by
  have hi := i.isLt
  have hdesc : descReg addr.toNat = some (.desc i) := by
    have hindex : Fin.ofNat 8 ((addr.toNat - 0x40) / 4) = i := by
      ext
      simp only [Fin.val_ofNat]
      omega
    rw [descReg, if_pos (by omega), hindex]
  rw [hostReg, controlReg_eq_none (by omega), hdesc]
  rfl

theorem hostReg_data {addr : BitVec 16} {i : WReg} {k : Fin Config.cap} (h : addr.toNat = 0x1000 * (i.val + 1) + 4 * k.val) :
    hostReg addr = some (.data i k) := by
  have hi := i.isLt
  have hk : k.val < 136 := k.isLt
  have hcap : Config.cap = 136 := rfl
  have hdesc : descReg addr.toNat = none := if_neg (by omega)
  have hdata : dataReg addr.toNat = some (.data i k) := by
    have hindex : Fin.ofNat 8 (addr.toNat / 0x1000 - 1) = i := by
      ext
      simp only [Fin.val_ofNat]
      omega
    have hquot : addr.toNat % 0x1000 / 4 = k.val := by omega
    have hword : Fin.ofNat Config.cap (addr.toNat % 0x1000 / 4) = k := by
      ext
      rw [Fin.val_ofNat, hquot, Nat.mod_eq_of_lt k.isLt]
    rw [dataReg, if_pos (by omega), hindex, hword]
  rw [hostReg, controlReg_eq_none (by omega), hdesc, hdata]
  rfl

/-- A 32-bit access reaches whatever lies outside the I/O buffer window (R63). -/
theorem reach_w32 {addr : BitVec 16} {r : HostReg} (h : hostReg addr = some r) (hr : ∀ j, r ≠ .iob j) :
    reach .w32 addr = some r := by
  unfold reach
  rw [h]
  cases r with
  | iob j => exact absurd rfl (hr j)
  | _ => rfl

/-- Replacing a register leaves the others alone. -/
theorem State.setReg_sameRegsBut (s : State) (r : WReg) (x : WideReg) : SameRegsBut [r] s (s.setReg r x) :=
  fun _ hr => State.reg_setReg_of_ne s x (by simpa using hr)

/-- The LEN field of a written `W_DESC` value (R35). -/
theorem descLen_toNat (v : Word) : (v.extractLsb' 0 8).toNat = v.toNat % 2 ^ 8 := by
  simp

/-- The OFF field of a written `W_DESC` value (R35). -/
theorem descOff_toNat (v : Word) : (v.extractLsb' 8 8).toNat = v.toNat / 2 ^ 8 % 2 ^ 8 := by
  simp [Nat.shiftRight_eq_div_pow]

/-- Settles O17: both writes replace one register, found by its address (R60). -/
theorem wideRegisterHostWrites : Obligations.WideRegisterHostWrites := by
  intro s rest i addr v hbusy hevents
  refine ⟨fun haddr => ?_, fun k haddr => ?_⟩
  · have hstep : step s = .next ((State.writeDesc { s with events := rest } i v).getD { s with events := rest, buserr := true }) :=
      step_of_write_reach hevents (reach_w32 (hostReg_desc haddr) (by simp)) hbusy
    have hcap : Config.cap = 136 := rfl
    rw [RefusedWrite, hstep, State.writeDesc]
    simp only [descLen_toNat, descOff_toNat]
    refine ⟨fun hinside => ?_, fun houtside => ?_⟩
    · rw [if_pos hinside]
      refine ⟨_, rfl, ?_, ?_, ?_, ?_, State.setReg_sameRegsBut _ i _, rfl, rfl, fun _ => rfl, rfl, rfl, rfl, rfl,
        rfl, rfl, rfl, rfl⟩
      all_goals rw [Option.getD_some, State.reg_setReg_self]
      · exact descOff_toNat v
      · exact descLen_toNat v
      · rfl
    · rw [if_neg (by omega)]
      rfl
  · have hstep : step s = .next (State.writeData { s with events := rest } i k v) :=
      step_of_write_reach hevents (reach_w32 (hostReg_data haddr) (by simp)) hbusy
    have hreg : (State.writeData { s with events := rest } i k v).reg i =
        { s.reg i with data := (s.reg i).data.set k v } := State.reg_setReg_self _ i _
    refine ⟨_, hstep, ?_, fun k' hk => ?_, ?_, ?_, ?_, State.setReg_sameRegsBut _ i _, rfl, rfl, fun _ => rfl, rfl, rfl, rfl, rfl,
      rfl, rfl, rfl, rfl⟩
    all_goals rw [hreg]
    · exact Vector.getElem_set_self k.isLt
    · exact Vector.getElem_set_ne k.isLt k'.isLt fun e => hk (Fin.ext e.symm)

end Sys2Proof.Machine

/-! SUPPORT. The host port's family (spec/20_memory.md). Where what an access reaches stands in the map (R60, R63), when an access is refused
(R66), the values the registers read as (R28, R30 to R35, R61), and the I/O buffer window, one byte or four big-endian (R64, R65). -/

namespace Sys2Proof.Machine

open Sys2Proof

/-! ### Where what an access reaches stands -/

/-- The byte address of what the map names (R60). -/
def HostReg.address : HostReg → Nat
  | .cmd => 0x00
  | .status => 0x04
  | .errcode => 0x08
  | .errinfo => 0x0C
  | .ctrl => 0x10
  | .flags => 0x14
  | .ctxStat => 0x18
  | .ctxNinvLo => 0x1C
  | .ctxNinvHi => 0x20
  | .desc i => 0x40 + 4 * i.val
  | .data i k => 0x1000 * (i.val + 1) + 4 * k.val
  | .iob j => 0x9000 + j

theorem controlReg_address {a : Nat} {r : HostReg} (h : controlReg a = some r) : a = r.address := by
  unfold controlReg at h
  split at h
  all_goals cases h
  all_goals rfl

theorem descReg_address {a : Nat} {r : HostReg} (h : descReg a = some r) : a = r.address := by
  simp only [descReg, Option.ite_none_right_eq_some, Option.some.injEq] at h
  obtain ⟨hin, rfl⟩ := h
  simp only [HostReg.address, Fin.val_ofNat]
  omega

theorem dataReg_address {a : Nat} {r : HostReg} (h : dataReg a = some r) : a = r.address := by
  simp only [dataReg, Option.ite_none_right_eq_some, Option.some.injEq] at h
  obtain ⟨⟨hlo, hhi, halign, hword⟩, rfl⟩ := h
  simp only [HostReg.address, Fin.val_ofNat, Nat.mod_eq_of_lt hword]
  omega

theorem iobReg_address {a : Nat} {r : HostReg} (h : iobReg a = some r) : a = r.address := by
  simp only [iobReg, Option.ite_none_right_eq_some, Option.some.injEq] at h
  obtain ⟨hin, rfl⟩ := h
  simp only [HostReg.address]
  omega

/-- No two addresses name the same thing. -/
theorem hostReg_address {addr : BitVec 16} {r : HostReg} (h : hostReg addr = some r) : addr.toNat = r.address := by
  simp only [hostReg, Option.or_eq_some_iff] at h
  obtain h | ⟨-, h | ⟨-, h | ⟨-, h⟩⟩⟩ := h
  · exact controlReg_address h
  · exact descReg_address h
  · exact dataReg_address h
  · exact iobReg_address h

/-- Only 32-bit accesses reach anything outside the I/O buffer window, and 16-bit accesses reach nothing (R63). -/
theorem reach_eq_some {width : AccessWidth} {addr : BitVec 16} {r : HostReg} (h : reach width addr = some r) :
    hostReg addr = some r ∧ (width = .w32 ∨ width = .w8 ∧ ∃ j, r = .iob j) := by
  unfold reach at h
  split at h
  next j hj =>
    obtain ⟨-, hr⟩ := Option.ite_none_right_eq_some.mp h
    exact ⟨hj.trans hr, .inl rfl⟩
  next => exact ⟨h, .inl rfl⟩
  next j hj =>
    obtain rfl := Option.some.inj h
    exact ⟨hj, .inr ⟨rfl, j, rfl⟩⟩
  next => cases h
  next => cases h

theorem reach_address {width : AccessWidth} {addr : BitVec 16} {r : HostReg} (h : reach width addr = some r) :
    addr.toNat = r.address := hostReg_address (reach_eq_some h).1

/-- A 32-bit access reaches mapped addresses only (R60, R63). -/
theorem mapped32_of_reach {addr : BitVec 16} {r : HostReg} (h : reach .w32 addr = some r) : Mapped32 addr.toNat := by
  rw [reach_address h, Mapped32]
  cases r with
  | desc i => exact .inr (.inl ⟨i, i.isLt, rfl⟩)
  | data i k => exact .inr (.inr (.inl ⟨i, i.isLt, k, k.isLt, rfl⟩))
  | iob j =>
    have hlt : j < 544 := (reach_iob h).1
    have hmod : j % 4 = 0 := (reach_iob h).2 rfl
    exact .inr (.inr (.inr ⟨j, by omega, hmod, rfl⟩))
  | _ => exact .inl (by simp [HostReg.address])

theorem mapped_of_reach {width : AccessWidth} {addr : BitVec 16} {r : HostReg} (h : reach width addr = some r) :
    Mapped width addr := by
  obtain ⟨-, rfl | ⟨rfl, j, rfl⟩⟩ := reach_eq_some h
  · exact mapped32_of_reach h
  · have haddr : addr.toNat = 0x9000 + j := reach_address h
    have hlt : j < 544 := (reach_iob h).1
    rw [Mapped]
    omega

theorem reach_status : reach .w32 0x0004 = some .status := rfl

/-- `STATUS` is reached by the 32-bit access at 0x0004 alone (R60, R63). -/
theorem eq_of_reach_status {width : AccessWidth} {addr : BitVec 16} (h : reach width addr = some .status) :
    width = .w32 ∧ addr = 0x0004 := by
  refine ⟨?_, BitVec.eq_of_toNat_eq (reach_address h)⟩
  obtain ⟨-, hwidth | ⟨-, j, hj⟩⟩ := reach_eq_some h
  · exact hwidth
  · cases hj

/-! ### Refused accesses -/

/-- A read is refused where nothing is reached, and in BUSY where it is not `STATUS` (R66). -/
theorem refusedRead_of_reach {s : State} {rest : List Event} {width : AccessWidth} {addr : BitVec 16}
    (hevents : s.events = .read width addr :: rest)
    (h : ∀ r, reach width addr = some r → s.engine = .busy ∧ r ≠ .status) : RefusedRead s rest := by
  have hnone : State.hostRead { s with events := rest } width addr = none := by
    unfold State.hostRead
    split
    next => rfl
    next r hr => exact if_pos (h r hr)
  rw [RefusedRead, step_of_read hevents, State.readTurn, hnone]

/-- A write is refused where nothing is reached, and where what is reached refuses it whatever the state (R66). -/
theorem refusedWrite_of_reach {s : State} {rest : List Event} {width : AccessWidth} {addr : BitVec 16} {v : Word}
    (hevents : s.events = .write width addr v :: rest)
    (h : ∀ r, reach width addr = some r → ∀ u : State, u.writeReached width v r = none) : RefusedWrite s rest := by
  have hnone : State.hostWrite { s with events := rest } width addr v = none := by
    unfold State.hostWrite
    split
    next => rfl
    next r hr => rw [h r hr, ite_self]
  rw [RefusedWrite, step_of_write hevents, State.writeTurn, hnone]

/-- The registers R60 gives as read-only, by their addresses, refuse every write (R66). -/
theorem State.writeReached_readOnly {r : HostReg} (h : r.address ∈ [0x04, 0x08, 0x0C, 0x14, 0x18, 0x1C, 0x20])
    (s : State) (width : AccessWidth) (v : Word) : s.writeReached width v r = none := by
  simp only [List.mem_cons, List.not_mem_nil, or_false] at h
  cases r with
  | status | errcode | errinfo | flags | ctxStat | ctxNinvLo | ctxNinvHi => rfl
  | cmd | ctrl | desc i | data i k | iob j =>
    simp only [HostReg.address] at h
    omega

/-- Settles O19: what an access reaches is mapped, and the address of what a write reaches tells whether it is read-only. -/
theorem unmappedAccessesRefused : Obligations.UnmappedAccessesRefused := by
  intro s rest width addr
  refine ⟨fun hmap hevents => ?_, fun v hmap hevents => ?_, fun v haddr hevents => ?_⟩
  · exact refusedRead_of_reach hevents fun r hr => absurd (mapped_of_reach hr) hmap
  · exact refusedWrite_of_reach hevents fun r hr => absurd (mapped_of_reach hr) hmap
  · refine refusedWrite_of_reach hevents fun r hr u => u.writeReached_readOnly ?_ width v
    rw [← reach_address hr]
    exact List.mem_map_of_mem (f := BitVec.toNat) haddr

/-! ### STATUS -/

/-- `STATUS` is read in every state, BUSY included (R61, R66). -/
theorem State.readTurn_status (s : State) : s.readTurn .w32 0x0004 = { s with readData := s.status } := by
  have hread : s.hostRead .w32 0x0004 = some s.status := by
    rw [State.hostRead, reach_status]
    exact if_neg fun h => h.2 rfl
  rw [State.readTurn, hread]

theorem State.status_of_busy {s : State} (h : s.engine = .busy) :
    s.status = BitVec.ofNat 32 (1 + 4 * bitNat s.done + 8 * bitNat s.buserr) := by
  simp [State.status, h, bitNat]

/-- The bits of `STATUS` in BUSY (R30). -/
theorem State.status_bits_of_busy {s : State} (h : s.engine = .busy) :
    s.status.getLsbD 0 = true ∧ s.status.getLsbD 1 = false ∧ s.status.getLsbD 2 = s.done ∧ s.status.getLsbD 3 = s.buserr := by
  rw [State.status_of_busy h]
  cases s.done <;> cases s.buserr <;> decide

/-- Bits 31:4 of `STATUS` are zero (R30). -/
theorem State.status_high_bits (s : State) {i : Nat} (hi : 4 ≤ i) : s.status.getLsbD i = false := by
  have hbit (b : Bool) : bitNat b ≤ 1 := by cases b <;> decide
  have hlt : s.status.toNat < 2 ^ 4 := by
    have hbusy := hbit (s.engine == .busy)
    have hfault := hbit (s.engine == .faulted)
    have hdone := hbit s.done
    have hbuserr := hbit s.buserr
    rw [State.status, BitVec.toNat_ofNat]
    omega
  exact Nat.testBit_lt_two_pow (hlt.trans_le (Nat.pow_le_pow_right (by decide) hi))

/-- Settles O14: in BUSY only what reaches `STATUS` is accepted. -/
theorem whileBusyOnlyStatusIsRead : Obligations.WhileBusyOnlyStatusIsRead := by
  intro s rest hbusy
  refine ⟨fun hevents => ?_, fun width addr hevents hne => ?_, fun width addr v hevents => refusedWrite_of_busy hevents hbusy⟩
  · obtain ⟨hbit0, hbit1, hbit2, hbit3⟩ := State.status_bits_of_busy hbusy
    refine ⟨s.status, ?_, hbit0, hbit1, hbit2, hbit3, fun i => s.status_high_bits⟩
    rw [step_of_read hevents, State.readTurn_status]
    rfl
  · refine refusedRead_of_reach hevents fun r hr => ⟨hbusy, ?_⟩
    rintro rfl
    exact hne (eq_of_reach_status hr)

/-! ### The registers' values -/

theorem placed_eq (b : Bool) (bit : Nat) : placed b bit = 2 ^ bit * bitNat b := by
  cases b <;> simp [bitNat]

/-- `STATUS` by its bit positions (R30). -/
theorem State.status_eq_placed (s : State) :
    s.status = BitVec.ofNat 32
      (placed (s.engine = .busy) 0 + placed (s.engine = .faulted) 1 + placed s.done 2 + placed s.buserr 3) := by
  simp only [placed_eq, State.status, Nat.pow_zero, Nat.one_mul, Nat.reducePow]
  rfl

/-- `FLAGS` by its bit positions (R28). -/
theorem FlagBits.value_eq_placed (f : FlagBits) : f.value = BitVec.ofNat 32 (f.cmp.toNat + placed f.c 2) := rfl

/-- `CTX_STAT` by its bit positions (R34). -/
theorem MontCtx.stat_eq_placed (c : MontCtx) : c.stat = BitVec.ofNat 32 (c.mlen.toNat + placed c.mvalid 31) := by
  rw [placed_eq, MontCtx.stat]

/-- `W_DESC[i]` by its bit positions (R35). -/
theorem WideReg.desc_eq_placed (r : WideReg) :
    r.desc = BitVec.ofNat 32 (r.len.toNat + 2 ^ 8 * r.off.toNat + placed r.valid 31) := by
  rw [placed_eq, WideReg.desc]

/-- A field cut out of a bit vector, as a number. -/
theorem extractLsb'_eq_ofNat {w : Nat} (x : BitVec w) (start len : Nat) :
    x.extractLsb' start len = BitVec.ofNat len (x.toNat / 2 ^ start) := by
  rw [← Nat.shiftRight_eq_div_pow]
  rfl

theorem ninvLo_eq (x : DWord) : x.extractLsb' 0 32 = BitVec.ofNat 32 (x.toNat % 2 ^ 32) := by
  rw [extractLsb'_eq_ofNat, pow_zero, Nat.div_one]
  exact BitVec.eq_of_toNat_eq (by simp)

/-- Every address the map gives a value for is reached, and what it reaches reads as that value (R60, R61). -/
theorem HostValue.reached {s : State} {addr : BitVec 16} {v : Word} (h : HostValue s addr v) :
    ∃ r, reach .w32 addr = some r ∧ s.readValue .w32 r = v := by
  obtain ⟨rfl, rfl⟩ | ⟨rfl, rfl⟩ | ⟨rfl, rfl⟩ | ⟨rfl, rfl⟩ | ⟨rfl, rfl⟩ | ⟨rfl, rfl⟩ | ⟨rfl, rfl⟩ | ⟨rfl, rfl⟩ | ⟨rfl, rfl⟩ |
    ⟨i, haddr, rfl⟩ | ⟨i, k, haddr, rfl⟩ := h
  · exact ⟨.cmd, reach_cmd, rfl⟩
  · exact ⟨.status, reach_status, s.status_eq_placed⟩
  · exact ⟨.errcode, rfl, (BitVec.ofNat_toNat 32 s.errcode).symm⟩
  · exact ⟨.errinfo, rfl, (BitVec.ofNat_toNat 32 s.errinfo).symm⟩
  · exact ⟨.ctrl, reach_ctrl, rfl⟩
  · exact ⟨.flags, rfl, s.flags.value_eq_placed⟩
  · exact ⟨.ctxStat, rfl, s.ctx.stat_eq_placed⟩
  · exact ⟨.ctxNinvLo, rfl, ninvLo_eq s.ctx.ninv⟩
  · exact ⟨.ctxNinvHi, rfl, extractLsb'_eq_ofNat s.ctx.ninv 32 32⟩
  · exact ⟨.desc i, reach_w32 (hostReg_desc haddr) (by simp), (s.reg i).desc_eq_placed⟩
  · exact ⟨.data i k, reach_w32 (hostReg_data haddr) (by simp), rfl⟩

/-- Outside BUSY: the step of a read, by what its address reaches. -/
theorem step_of_read_reach {s : State} {rest : List Event} {width : AccessWidth} {addr : BitVec 16} {r : HostReg}
    (hevents : s.events = .read width addr :: rest) (hreach : reach width addr = some r) (h : s.engine ≠ .busy) :
    step s = .next { s with events := rest, readData := State.readValue { s with events := rest } width r } := by
  rw [step_of_read hevents]
  exact congrArg _ (State.readTurn_of_reach (s := { s with events := rest }) hreach h)

/-- Settles O18, by what the address reaches. -/
theorem hostReadsShowRegisters : Obligations.HostReadsShowRegisters := by
  intro s rest addr v hbusy hevents hvalue
  have hdue : HostValue { s with events := rest } addr v := hvalue
  obtain ⟨r, hreach, rfl⟩ := hdue.reached
  exact step_of_read_reach hevents hreach hbusy

/-! ### The I/O buffer window -/

theorem hostReg_iob {addr : BitVec 16} {j : Nat} (h : addr.toNat = 0x9000 + j) (hj : j ≤ 543) :
    hostReg addr = some (.iob j) := by
  have hdesc : descReg addr.toNat = none := if_neg (by omega)
  have hdata : dataReg addr.toNat = none := if_neg (by omega)
  have hbytes : Config.iobBytes = 544 := rfl
  have hiob : iobReg addr.toNat = some (.iob j) := by
    rw [iobReg, if_pos (by omega), h, Nat.add_sub_cancel_left]
  rw [hostReg, controlReg_eq_none (by omega), hdesc, hdata, hiob]
  rfl

theorem reach_w8_iob {addr : BitVec 16} {j : Nat} (h : hostReg addr = some (.iob j)) : reach .w8 addr = some (.iob j) := by
  simp only [reach, h]

theorem reach_w32_iob {addr : BitVec 16} {j : Nat} (h : hostReg addr = some (.iob j)) (halign : j % 4 = 0) :
    reach .w32 addr = some (.iob j) := by
  simp only [reach, h, if_pos halign]

/-- The number two concatenated bit vectors stand for. -/
theorem toNat_append_eq_add {w n : Nat} (x : BitVec w) (y : BitVec n) : (x ++ y).toNat = x.toNat * 2 ^ n + y.toNat := by
  rw [BitVec.toNat_append, ← Nat.shiftLeft_add_eq_or_of_lt y.isLt, Nat.shiftLeft_eq]

/-- A 32-bit read is big-endian (R65). -/
theorem Memory.readWord_eq (m : Memory) (j : Nat) :
    Memory.readWord m j = BitVec.ofNat 32 ((Memory.read m j).toNat * 2 ^ 24 + (Memory.read m (j + 1)).toNat * 2 ^ 16 +
      (Memory.read m (j + 2)).toNat * 2 ^ 8 + (Memory.read m (j + 3)).toNat) := by
  have hvalue : (Memory.readWord m j).toNat = (Memory.read m j).toNat * 2 ^ 24 + (Memory.read m (j + 1)).toNat * 2 ^ 16 +
      (Memory.read m (j + 2)).toNat * 2 ^ 8 + (Memory.read m (j + 3)).toNat := by
    simp only [Memory.readWord, toNat_append_eq_add]
    omega
  rw [← hvalue, BitVec.ofNat_toNat, BitVec.setWidth_eq]

/-- A 32-bit write is big-endian and sets four bytes only (R65). -/
theorem Memory.read_writeWord {m : Memory} (h : Memory.wf m = true) {j : Nat} (hj : j + 4 ≤ Config.iobBytes) (v : Word) (k : Nat) :
    Memory.read (Memory.writeWord m j v) k =
      if k = j then BitVec.ofNat 8 (v.toNat / 2 ^ 24) else if k = j + 1 then BitVec.ofNat 8 (v.toNat / 2 ^ 16)
      else if k = j + 2 then BitVec.ofNat 8 (v.toNat / 2 ^ 8) else if k = j + 3 then BitVec.ofNat 8 v.toNat
      else Memory.read m k := by
  rw [Memory.writeWord, Memory.read_writeBytes h hj]
  simp only [extractLsb'_eq_ofNat, pow_zero, Nat.div_one, List.length_cons, List.length_nil]
  by_cases hin : j ≤ k ∧ k < j + 4
  · obtain rfl | rfl | rfl | rfl : k = j ∨ k = j + 1 ∨ k = j + 2 ∨ k = j + 3 := by omega
    all_goals simp
  · rw [if_neg hin, if_neg (by omega), if_neg (by omega), if_neg (by omega), if_neg (by omega)]

/-- Settles O20: the address reaches byte `j`, and a 32-bit access stays inside the buffer by its alignment. -/
theorem iobWindowIsBigEndian : Obligations.IobWindowIsBigEndian := by
  intro s rest addr j hbusy hwf haddr hj
  have hreg := hostReg_iob haddr hj
  refine ⟨fun hevents => ?_, fun v hevents => ?_, fun halign hevents => ?_, fun v halign hevents => ?_⟩
  · rw [step_of_read_reach hevents (reach_w8_iob hreg) hbusy, BitVec.ofNat_toNat]
    rfl
  · refine ⟨_, step_of_write_reach hevents (reach_w8_iob hreg) hbusy, fun k => ?_⟩
    rw [Memory.read_write hwf, extractLsb'_eq_ofNat, pow_zero, Nat.div_one]
  · rw [step_of_read_reach hevents (reach_w32_iob hreg halign) hbusy, ← Memory.readWord_eq]
    rfl
  · have hinside : j + 4 ≤ Config.iobBytes := by
      have hbytes : Config.iobBytes = 544 := rfl
      omega
    exact ⟨_, step_of_write_reach hevents (reach_w32_iob hreg halign) hbusy, Memory.read_writeWord hwf hinside v⟩

end Sys2Proof.Machine

namespace Sys2Proof

open Sys2Proof.Machine

/-! ## The encoding

A row of the opcode map (R85) is an opcode, the fields it uses and the command they make. What the encoder, the statements' tables and the
commands' own field lists say of such a row is proved once for all 19 (`RowLaws`); the rest speaks of an arbitrary row. -/

/-! ### Decoding by rows -/

theorem field_lt (w : Word) (hi lo : Nat) : field w hi lo < 2 ^ (hi - lo + 1) := Nat.mod_lt _ (Nat.two_pow_pos _)

theorem decode_of_none {w : Word} (h : opcodeRow (field w 31 24) = none) : decode w = .error .illegalOpcode := by
  simp only [decode, h]

theorem decode_of_some {w : Word} {u : Uses} {mk : Fields → Instr} (h : opcodeRow (field w 31 24) = some (u, mk)) :
    decode w =
      if u.unusedZero w then if u.regsExist w then .ok (mk (fieldsOf w)) else .error .badReg else .error .reservedBits := by
  simp only [decode, h]

theorem decode_eq_illegalOpcode_iff {w : Word} : decode w = .error .illegalOpcode ↔ opcodeRow (field w 31 24) = none := by
  cases hrow : opcodeRow (field w 31 24) with
  | none => simp [decode_of_none hrow]
  | some row =>
    rw [decode_of_some hrow]
    split_ifs <;> simp

/-- Any other answer of the decoder comes from a row and the tests on its fields. -/
theorem decode_eq_iff_of_ne {w : Word} {answer : Except DecodeError Instr} (h : answer ≠ .error .illegalOpcode) :
    decode w = answer ↔ ∃ u mk, opcodeRow (field w 31 24) = some (u, mk) ∧
      (if u.unusedZero w then if u.regsExist w then .ok (mk (fieldsOf w)) else .error .badReg else .error .reservedBits) =
        answer := by
  cases hrow : opcodeRow (field w 31 24) with
  | none => simp [decode_of_none hrow, h.symm]
  | some row =>
    obtain ⟨u, mk⟩ := row
    simp [decode_of_some hrow]

/-- A word decodes when its opcode has a row and it passes both tests of R86 on that row's fields. -/
theorem decode_eq_ok_iff {w : Word} {i : Instr} :
    decode w = .ok i ↔ ∃ u mk, opcodeRow (field w 31 24) = some (u, mk) ∧
      (u.unusedZero w = true ∧ u.regsExist w = true) ∧ mk (fieldsOf w) = i := by
  simp [decode_eq_iff_of_ne, ite_eq_iff, and_assoc]

theorem decode_eq_reservedBits_iff {w : Word} :
    decode w = .error .reservedBits ↔ ∃ u mk, opcodeRow (field w 31 24) = some (u, mk) ∧ ¬ u.unusedZero w = true := by
  simp [decode_eq_iff_of_ne, ite_eq_iff]

theorem decode_eq_badReg_iff {w : Word} :
    decode w = .error .badReg ↔
      ∃ u mk, opcodeRow (field w 31 24) = some (u, mk) ∧ u.unusedZero w = true ∧ ¬ u.regsExist w = true := by
  simp [decode_eq_iff_of_ne, ite_eq_iff]

/-! ### The word of a row's operands -/

/-- The operands a row uses, with zero in the others. -/
def Uses.restrict (u : Uses) (f : Fields) : Fields where
  rd := bif u.rd then f.rd else 0
  rs1 := bif u.rs1 then f.rs1 else 0
  rs2 := bif u.rs2 then f.rs2 else 0
  rs3 := bif u.rs3 then f.rs3 else 0
  imm := bif u.imm then f.imm else 0

/-- The word of an opcode and its operands, in the row's format (R81, R82). -/
def Uses.word (u : Uses) (op : Nat) (f : Fields) : Word :=
  bif u.imm then formatI op f.rd f.rs1 f.imm else formatR op f.rd f.rs1 f.rs2 f.rs3

/-- The fields below the opcode, read in the row's format, are these operands, and nothing else is set (R81, R82). -/
def Uses.Carries (u : Uses) (w : Word) (f : Fields) : Prop :=
  field w 23 20 = f.rd.val ∧ field w 19 16 = f.rs1.val ∧
    if u.imm then field w 15 0 = f.imm
    else field w 15 12 = f.rs2.val ∧ field w 11 8 = f.rs3.val ∧ field w 7 0 = 0

theorem Uses.carries_of_imm {u : Uses} (hu : u.imm = true) {w : Word} {f : Fields} :
    u.Carries w f ↔ field w 23 20 = f.rd.val ∧ field w 19 16 = f.rs1.val ∧ field w 15 0 = f.imm := by
  rw [Uses.Carries, if_pos hu]

theorem Uses.carries_of_not_imm {u : Uses} (hu : u.imm = false) {w : Word} {f : Fields} :
    u.Carries w f ↔ field w 23 20 = f.rd.val ∧ field w 19 16 = f.rs1.val ∧
      field w 15 12 = f.rs2.val ∧ field w 11 8 = f.rs3.val ∧ field w 7 0 = 0 := by
  rw [Uses.Carries, hu, if_neg Bool.false_ne_true]

theorem Uses.field_word (u : Uses) {op : Nat} (hop : op < 2 ^ 8) {f : Fields} (himm : f.imm < 2 ^ 16) :
    field (u.word op f) 31 24 = op := by
  cases hu : u.imm with
  | true =>
    simp only [Uses.word, hu, cond_true]
    exact Laws.OpcodeOfEncoding.formatI_opcode op f.rd f.rs1 f.imm hop (decide_eq_true himm)
  | false =>
    simp only [Uses.word, hu, cond_false]
    exact Laws.OpcodeOfEncoding.formatR_opcode op f.rd f.rs1 f.rs2 f.rs3 hop

theorem Uses.carries_word (u : Uses) (op : Nat) {f : Fields} (himm : f.imm < 2 ^ 16) :
    u.Carries (u.word op f) f := by
  have hrd := f.rd.isLt
  have hrs1 := f.rs1.isLt
  have hrs2 := f.rs2.isLt
  have hrs3 := f.rs3.isLt
  cases hu : u.imm with
  | true =>
    simp only [Uses.carries_of_imm hu, Uses.word, hu, cond_true, field, formatI, BitVec.toNat_ofNat]
    refine ⟨?_, ?_, ?_⟩ <;> omega
  | false =>
    simp only [Uses.carries_of_not_imm hu, Uses.word, hu, cond_false, field, formatR, BitVec.toNat_ofNat]
    refine ⟨?_, ?_, ?_, ?_, ?_⟩ <;> omega

/-- The fields and the opcode make up the word: no bit is outside them. -/
theorem Uses.Carries.eq_word {u : Uses} {w : Word} {f : Fields} (h : u.Carries w f) : u.word (field w 31 24) f = w := by
  have hw := w.isLt
  apply BitVec.eq_of_toNat_eq
  cases hu : u.imm with
  | true =>
    obtain ⟨hrd, hrs1, himm⟩ := (Uses.carries_of_imm hu).mp h
    simp only [Uses.word, hu, cond_true, formatI, ← hrd, ← hrs1, ← himm, field, BitVec.toNat_ofNat]
    omega
  | false =>
    obtain ⟨hrd, hrs1, hrs2, hrs3, hzero⟩ := (Uses.carries_of_not_imm hu).mp h
    simp only [field] at hzero
    simp only [Uses.word, hu, cond_false, formatR, ← hrd, ← hrs1, ← hrs2, ← hrs3, field, BitVec.toNat_ofNat]
    omega

/-- The two tests of R86 on one register field: zero when unused, below 8 when used. -/
theorem registerField_ok_iff {used : Bool} {n : Nat} :
    ((used || n == 0) = true ∧ (!used || decide (n < 8)) = true) ↔ n = (bif used then Fin.ofNat 8 n else 0 : WReg).val := by
  cases used
  · simp
  · simp only [Bool.true_or, Bool.not_true, Bool.false_or, decide_eq_true_eq, true_and, cond_true, Fin.val_ofNat]
    omega

theorem registerField_ofNat {used : Bool} {n : Nat} {r : WReg} (h : n = (bif used then r else 0 : WReg).val) :
    (bif used then Fin.ofNat 8 n else 0 : WReg) = bif used then r else 0 := by
  subst h
  cases used <;> simp

/-- A row of format I uses neither `rs2` nor `rs3`, whose bits the immediate takes (R82). -/
abbrev Uses.FormatOk (u : Uses) : Prop := u.imm = true → u.rs2 = false ∧ u.rs3 = false

/-- R86 steps 2 and 3 pass exactly when the word carries the operands it is read as having. -/
theorem Uses.tests_iff_carries {u : Uses} (hu : u.FormatOk) (w : Word) :
    (u.unusedZero w = true ∧ u.regsExist w = true) ↔ u.Carries w (u.restrict (fieldsOf w)) := by
  simp only [Uses.unusedZero, Uses.regsExist, Bool.and_eq_true]
  cases himm : u.imm with
  | true =>
    obtain ⟨hrs2, hrs3⟩ := hu himm
    simp only [Uses.carries_of_imm himm, Uses.restrict, fieldsOf, ← registerField_ok_iff, himm, hrs2, hrs3, Bool.true_or,
      Bool.not_false, cond_true, and_true]
    tauto
  | false =>
    simp only [Uses.carries_of_not_imm himm, Uses.restrict, fieldsOf, ← registerField_ok_iff, Bool.false_or, Bool.and_eq_true,
      beq_iff_eq]
    tauto

/-- The operands read from a word are the ones it carries. -/
theorem Uses.Carries.restrict_fieldsOf {u : Uses} (hu : u.FormatOk) {w : Word} {f : Fields} (h : u.Carries w (u.restrict f)) :
    u.restrict (fieldsOf w) = u.restrict f := by
  cases hformat : u.imm with
  | true =>
    obtain ⟨hrd, hrs1, himm⟩ := (Uses.carries_of_imm hformat).mp h
    obtain ⟨hrs2, hrs3⟩ := hu hformat
    simp only [Uses.restrict, fieldsOf, registerField_ofNat hrd, registerField_ofNat hrs1, hrs2, hrs3, himm, hformat, cond_true,
      cond_false]
  | false =>
    obtain ⟨hrd, hrs1, hrs2, hrs3, -⟩ := (Uses.carries_of_not_imm hformat).mp h
    simp only [Uses.restrict, fieldsOf, registerField_ofNat hrd, registerField_ofNat hrs1, registerField_ofNat hrs2,
      registerField_ofNat hrs3, hformat, cond_false]

/-! ### The tests of R86 as masks -/

/-- The mask of the bits `hi` down to `lo`. -/
def fieldMask (hi lo : Nat) : Word := BitVec.ofNat 32 ((2 ^ (hi - lo + 1) - 1) * 2 ^ lo)

theorem and_shifted_ones (x n k : Nat) : x &&& (2 ^ n - 1) * 2 ^ k = x / 2 ^ k % 2 ^ n * 2 ^ k := by
  apply Nat.eq_of_testBit_eq
  intro j
  simp only [Nat.testBit_and, Nat.testBit_mul_two_pow, Nat.testBit_two_pow_sub_one, Nat.testBit_mod_two_pow,
    Nat.testBit_div_two_pow]
  by_cases hj : k ≤ j
  · simp [hj, Bool.and_comm]
  · simp [hj]

/-- Masking a word with a field's mask leaves the field, in its place. -/
theorem toNat_and_fieldMask (w : Word) (hi lo : Nat) : (w &&& fieldMask hi lo).toNat = field w hi lo * 2 ^ lo := by
  have hle : field w hi lo * 2 ^ lo ≤ w.toNat :=
    (Nat.mul_le_mul_right _ (Nat.mod_le _ _)).trans (Nat.div_mul_le_self _ _)
  rw [fieldMask, BitVec.toNat_and, BitVec.toNat_ofNat, ← Nat.and_two_pow_sub_one_eq_mod, ← Nat.and_assoc, and_shifted_ones,
    Nat.and_two_pow_sub_one_eq_mod]
  exact Nat.mod_eq_of_lt (hle.trans_lt w.isLt)

theorem and_fieldMask_eq_zero_iff {w : Word} {hi lo : Nat} : w &&& fieldMask hi lo = 0 ↔ field w hi lo = 0 := by
  rw [← BitVec.toNat_inj, toNat_and_fieldMask]
  simp

theorem field_lt_eight_iff {w : Word} (lo : Nat) : field w (lo + 3) lo < 8 ↔ w &&& fieldMask (lo + 3) (lo + 3) = 0 := by
  rw [and_fieldMask_eq_zero_iff]
  simp only [field, Nat.pow_add, ← Nat.div_div_eq_div_mul, Nat.sub_self, Nat.add_sub_cancel_left]
  omega

/-- The bits of the fields a row does not use (R86 step 2). -/
def Uses.unusedMask (u : Uses) : Word :=
  (bif u.rd then 0 else fieldMask 23 20) ||| (bif u.rs1 then 0 else fieldMask 19 16) |||
    (bif u.imm then 0 else (bif u.rs2 then 0 else fieldMask 15 12) ||| (bif u.rs3 then 0 else fieldMask 11 8) ||| fieldMask 7 0)

/-- Bit 3 of each register field a row uses (R86 step 3). -/
def Uses.highMask (u : Uses) : Word :=
  (bif u.rd then fieldMask 23 23 else 0) ||| (bif u.rs1 then fieldMask 19 19 else 0) |||
    (bif u.rs2 then fieldMask 15 15 else 0) ||| (bif u.rs3 then fieldMask 11 11 else 0)

theorem and_or_eq_zero_iff {w a b : Word} : w &&& (a ||| b) = 0 ↔ w &&& a = 0 ∧ w &&& b = 0 := by
  rw [BitVec.and_or_distrib_left]
  exact BitVec.or_eq_zero_iff

theorem and_unlessUsed_eq_zero_iff {used : Bool} {w m : Word} :
    w &&& (bif used then 0 else m) = 0 ↔ used = true ∨ w &&& m = 0 := by
  cases used <;> simp

theorem and_ifUsed_eq_zero_iff {used : Bool} {w m : Word} :
    w &&& (bif used then m else 0) = 0 ↔ used = false ∨ w &&& m = 0 := by
  cases used <;> simp

theorem Uses.unusedZero_iff {u : Uses} {w : Word} : u.unusedZero w = true ↔ w &&& u.unusedMask = 0 := by
  simp only [Uses.unusedMask, and_or_eq_zero_iff, and_unlessUsed_eq_zero_iff, and_fieldMask_eq_zero_iff, Uses.unusedZero,
    Bool.and_eq_true, Bool.or_eq_true, beq_iff_eq]

theorem Uses.regsExist_iff {u : Uses} {w : Word} : u.regsExist w = true ↔ w &&& u.highMask = 0 := by
  simp only [Uses.highMask, and_or_eq_zero_iff, and_ifUsed_eq_zero_iff, ← field_lt_eight_iff, Uses.regsExist, Bool.and_eq_true,
    Bool.or_eq_true, Bool.not_eq_true', decide_eq_true_eq]

/-- The mask of R85: the opcode, the fields a row does not use, and bit 3 of those it uses. -/
def Uses.legalMask (u : Uses) : Word := fieldMask 31 24 ||| (u.unusedMask ||| u.highMask)

theorem Uses.opcodeMask_and_operandMasks (u : Uses) : fieldMask 31 24 &&& (u.unusedMask ||| u.highMask) = 0 := by
  obtain ⟨rd, rs1, rs2, rs3, imm⟩ := u
  revert rd rs1 rs2 rs3 imm
  decide

theorem and_opcodeMask_eq_iff {w : Word} {op : Nat} (hop : op < 2 ^ 8) :
    w &&& fieldMask 31 24 = BitVec.ofNat 32 (op * 2 ^ 24) ↔ field w 31 24 = op := by
  rw [← BitVec.toNat_inj, toNat_and_fieldMask, BitVec.toNat_ofNat]
  omega

theorem field_opcodeBits {op : Nat} (hop : op < 2 ^ 8) : field (BitVec.ofNat 32 (op * 2 ^ 24)) 31 24 = op := by
  simp only [field, BitVec.toNat_ofNat]
  omega

theorem or_and_self_left (a b : Word) : (a ||| b) &&& a = a := by
  apply BitVec.eq_of_getLsbD_eq
  intro i _
  rw [BitVec.getLsbD_and, BitVec.getLsbD_or]
  cases a.getLsbD i <;> simp

/-- Comparing under two disjoint masks with a value inside the first one. -/
theorem and_or_eq_iff {w v a b : Word} (hva : v &&& a = v) (hab : a &&& b = 0) :
    w &&& (a ||| b) = v ↔ w &&& a = v ∧ w &&& b = 0 := by
  constructor
  · intro h
    constructor
    · rw [← hva, ← h, BitVec.and_assoc, or_and_self_left]
    · have hvb : v &&& b = 0 := by
        rw [← hva, BitVec.and_assoc, hab]
        exact BitVec.and_zero
      rw [← hvb, ← h, BitVec.and_assoc, BitVec.or_comm, or_and_self_left]
  · rintro ⟨ha, hb⟩
    rw [BitVec.and_or_distrib_left, ha, hb]
    exact BitVec.or_zero

/-- Mask and match compare the opcode and both tests of R86 at once (R85). -/
theorem Uses.and_legalMask_eq_iff {u : Uses} {w : Word} {op : Nat} (hop : op < 2 ^ 8) :
    w &&& u.legalMask = BitVec.ofNat 32 (op * 2 ^ 24) ↔
      field w 31 24 = op ∧ u.unusedZero w = true ∧ u.regsExist w = true := by
  have hopcode := (and_opcodeMask_eq_iff hop).mpr (field_opcodeBits hop)
  rw [Uses.legalMask, and_or_eq_iff hopcode u.opcodeMask_and_operandMasks, and_opcodeMask_eq_iff hop, and_or_eq_zero_iff,
    Uses.unusedZero_iff, Uses.regsExist_iff]

/-! ### The rows of the opcode map -/

/-- The register fields a row uses: the lowest bit of each and its number (R81, R82). -/
def Uses.registers (u : Uses) (f : Fields) : List (Nat × WReg) :=
  (if u.rd then [(20, f.rd)] else []) ++ ((if u.rs1 then [(16, f.rs1)] else []) ++
    ((if u.rs2 then [(12, f.rs2)] else []) ++ (if u.rs3 then [(8, f.rs3)] else [])))

theorem Uses.mem_registers {u : Uses} {f : Fields} {p : Nat × WReg} :
    p ∈ u.registers f ↔ (u.rd = true ∧ p = (20, f.rd)) ∨ (u.rs1 = true ∧ p = (16, f.rs1)) ∨
      (u.rs2 = true ∧ p = (12, f.rs2)) ∨ (u.rs3 = true ∧ p = (8, f.rs3)) := by
  simp only [Uses.registers, List.mem_append, List.mem_ite_nil_right, List.mem_singleton]

/-- What the encoder, the tables and the commands' field lists say of a row of the opcode map. -/
structure RowLaws (op : Nat) (u : Uses) (mk : Fields → Instr) : Prop where
  opcode_lt : op < 2 ^ 8
  not_illegal : ¬ IllegalOpcode op
  formatOk : u.FormatOk
  mk_restrict : ∀ f, mk (u.restrict f) = mk f
  wellFormed : ∀ f, (mk f).wellFormed = (!u.imm || immFits f.imm)
  encode : ∀ f, encode (mk f) = u.word op (u.restrict f)
  registerFields : ∀ f, (mk f).registerFields = u.registers f
  immediate : ∀ f, (mk f).immediate = bif u.imm then some f.imm else none
  tableRow : ∃ name, ⟨name, BitVec.ofNat 32 (op * 2 ^ 24), u.legalMask⟩ ∈ encodingTable ∧ ∀ f, (mk f).mnemonic = name
  faultMasks : (op, u.unusedMask, u.highMask) ∈ decodeFaultMasks

/-- Each row of the opcode map has these laws, by evaluation. -/
theorem rowLaws {op : Nat} {u : Uses} {mk : Fields → Instr} (h : opcodeRow op = some (u, mk)) : RowLaws op u mk := by
  unfold opcodeRow at h
  split at h
  case h_20 => cases h
  all_goals
    cases h
    exact
      { opcode_lt := by decide
        not_illegal := by decide
        formatOk := by decide
        mk_restrict := fun _ => rfl
        wellFormed := fun _ => rfl
        encode := fun _ => rfl
        registerFields := fun _ => rfl
        immediate := fun _ => rfl
        tableRow := ⟨_, by decide, fun _ => rfl⟩
        faultMasks := by decide }

/-- Every command is made by a row. -/
theorem exists_opcodeRow (i : Instr) : ∃ op u mk f, opcodeRow op = some (u, mk) ∧ mk f = i := by
  cases i with
  | nop => exact ⟨0x00, _, _, ⟨0, 0, 0, 0, 0⟩, rfl, rfl⟩
  | mov rd rs1 => exact ⟨0x01, _, _, ⟨rd, rs1, 0, 0, 0⟩, rfl, rfl⟩
  | ldb rd imm => exact ⟨0x03, _, _, ⟨rd, 0, 0, 0, imm⟩, rfl, rfl⟩
  | stb rs1 rs2 => exact ⟨0x04, _, _, ⟨0, rs1, rs2, 0, 0⟩, rfl, rfl⟩
  | cmp rs1 rs2 => exact ⟨0x10, _, _, ⟨0, rs1, rs2, 0, 0⟩, rfl, rfl⟩
  | add rd rs1 rs2 => exact ⟨0x11, _, _, ⟨rd, rs1, rs2, 0, 0⟩, rfl, rfl⟩
  | sub rd rs1 rs2 => exact ⟨0x12, _, _, ⟨rd, rs1, rs2, 0, 0⟩, rfl, rfl⟩
  | shl rd rs1 imm => exact ⟨0x13, _, _, ⟨rd, rs1, 0, 0, imm⟩, rfl, rfl⟩
  | shr rd rs1 imm => exact ⟨0x14, _, _, ⟨rd, rs1, 0, 0, imm⟩, rfl, rfl⟩
  | norm rd => exact ⟨0x15, _, _, ⟨rd, 0, 0, 0, 0⟩, rfl, rfl⟩
  | mul rd rs1 rs2 => exact ⟨0x16, _, _, ⟨rd, rs1, rs2, 0, 0⟩, rfl, rfl⟩
  | sqr rd rs1 => exact ⟨0x17, _, _, ⟨rd, rs1, 0, 0, 0⟩, rfl, rfl⟩
  | rem rd rs1 rs2 => exact ⟨0x20, _, _, ⟨rd, rs1, rs2, 0, 0⟩, rfl, rfl⟩
  | msetup rs1 => exact ⟨0x30, _, _, ⟨0, rs1, 0, 0, 0⟩, rfl, rfl⟩
  | mto rd rs1 => exact ⟨0x31, _, _, ⟨rd, rs1, 0, 0, 0⟩, rfl, rfl⟩
  | mmul rd rs1 rs2 => exact ⟨0x32, _, _, ⟨rd, rs1, rs2, 0, 0⟩, rfl, rfl⟩
  | msqr rd rs1 => exact ⟨0x33, _, _, ⟨rd, rs1, 0, 0, 0⟩, rfl, rfl⟩
  | mred rd rs1 => exact ⟨0x34, _, _, ⟨rd, rs1, 0, 0, 0⟩, rfl, rfl⟩
  | modpow rd rs1 rs2 rs3 => exact ⟨0x38, _, _, ⟨rd, rs1, rs2, rs3, 0⟩, rfl, rfl⟩

theorem RowLaws.restrict_imm_lt {op : Nat} {u : Uses} {mk : Fields → Instr} (h : RowLaws op u mk) {f : Fields}
    (hf : (mk f).wellFormed = true) : (u.restrict f).imm < 2 ^ 16 := by
  rw [h.wellFormed] at hf
  cases hu : u.imm with
  | true =>
    simp only [Uses.restrict, hu, cond_true]
    simpa only [hu, immFits, Bool.not_true, Bool.false_or, decide_eq_true_eq] using hf
  | false =>
    simp only [Uses.restrict, hu, cond_false]
    decide

/-! ### Round trips -/

/-- Settles O1: the encoder's word carries the operands the command's row uses, and nothing else. -/
theorem decodeEncodeRoundTrip : Obligations.DecodeEncodeRoundTrip := by
  intro i hi
  obtain ⟨op, u, mk, f, hrow, rfl⟩ := exists_opcodeRow i
  have laws := rowLaws hrow
  have himm := laws.restrict_imm_lt hi
  have hcarries := u.carries_word op himm
  have hread := hcarries.restrict_fieldsOf laws.formatOk
  rw [laws.encode, decode_eq_ok_iff]
  refine ⟨u, mk, ?_, ?_, ?_⟩
  · rw [u.field_word laws.opcode_lt himm, hrow]
  · rwa [Uses.tests_iff_carries laws.formatOk, hread]
  · rw [← laws.mk_restrict, hread, laws.mk_restrict]

/-- Settles O2: a word that passes both tests carries the operands it is read as having, so the encoder writes it back. -/
theorem encodeDecodeRoundTrip : Obligations.EncodeDecodeRoundTrip := by
  intro w i hdecode
  obtain ⟨u, mk, hrow, htests, rfl⟩ := decode_eq_ok_iff.mp hdecode
  have laws := rowLaws hrow
  refine ⟨?_, ?_⟩
  · have hfits : immFits (fieldsOf w).imm = true := decide_eq_true (field_lt w 15 0)
    rw [laws.wellFormed, hfits, Bool.or_true]
  · rw [laws.encode]
    exact ((Uses.tests_iff_carries laws.formatOk w).mp htests).eq_word

/-- Settles O5: each word is what the encoder writes. -/
theorem tableWordsDecode : Obligations.TableWordsDecode :=
  ⟨decodeEncodeRoundTrip (.mov 7 7) rfl, decodeEncodeRoundTrip (.ldb 7 65535) rfl, decodeEncodeRoundTrip (.add 0 1 2) rfl,
    decodeEncodeRoundTrip (.shl 0 1 33) rfl, decodeEncodeRoundTrip (.rem 0 1 2) rfl, decodeEncodeRoundTrip (.msetup 3) rfl,
    decodeEncodeRoundTrip (.modpow 0 1 2 3) rfl⟩

/-! ### The match and mask columns -/

/-- A row of the opcode map for each row of the table; the opcodes and the mnemonics tell the table's rows apart. -/
theorem encodingTable_opcodes :
    (∀ row ∈ encodingTable, (opcodeRow (field row.matchBits 31 24)).isSome) ∧
      (encodingTable.map fun row => field row.matchBits 31 24).Nodup ∧ (encodingTable.map (·.mnemonic)).Nodup := by
  decide

/-- A row of the table accepts the words of its opcode that pass both tests, and its command has its mnemonic. -/
theorem exists_opcodeRow_of_mem_encodingTable {row : EncodingRow} (h : row ∈ encodingTable) :
    ∃ op u mk, opcodeRow op = some (u, mk) ∧ (∀ f, (mk f).mnemonic = row.mnemonic) ∧
      ∀ w, row.accepts w = true ↔ field w 31 24 = op ∧ u.unusedZero w = true ∧ u.regsExist w = true := by
  obtain ⟨hsome, hnodup, -⟩ := encodingTable_opcodes
  obtain ⟨⟨u, mk⟩, hrow⟩ := Option.isSome_iff_exists.mp (hsome row h)
  generalize hop : field row.matchBits 31 24 = op at hrow
  have laws := rowLaws hrow
  obtain ⟨name, hmem, hname⟩ := laws.tableRow
  obtain rfl := List.inj_on_of_nodup_map hnodup h hmem (hop.trans (field_opcodeBits laws.opcode_lt).symm)
  exact ⟨_, u, mk, hrow, hname, fun w => beq_iff_eq.trans (Uses.and_legalMask_eq_iff laws.opcode_lt)⟩

/-- A word that decodes is accepted by the row of its command's mnemonic. -/
theorem exists_accepts_of_decode {w : Word} {i : Instr} (h : decode w = .ok i) :
    ∃ row ∈ encodingTable, row.accepts w = true ∧ i.mnemonic = row.mnemonic := by
  obtain ⟨u, mk, hrow, htests, rfl⟩ := decode_eq_ok_iff.mp h
  have laws := rowLaws hrow
  obtain ⟨name, hmem, hname⟩ := laws.tableRow
  exact ⟨_, hmem, beq_iff_eq.mpr ((Uses.and_legalMask_eq_iff laws.opcode_lt).mpr ⟨rfl, htests⟩), hname _⟩

theorem accepts_iff_decode {w : Word} {row : EncodingRow} (hmem : row ∈ encodingTable) :
    row.accepts w = true ↔ ∃ i, decode w = .ok i ∧ i.mnemonic = row.mnemonic := by
  constructor
  · intro haccepts
    obtain ⟨op, u, mk, hrow, hname, hiff⟩ := exists_opcodeRow_of_mem_encodingTable hmem
    obtain ⟨rfl, htests⟩ := (hiff w).mp haccepts
    exact ⟨mk (fieldsOf w), decode_eq_ok_iff.mpr ⟨u, mk, hrow, htests, rfl⟩, hname _⟩
  · rintro ⟨i, hdecode, hname⟩
    obtain ⟨row', hmem', haccepts, hname'⟩ := exists_accepts_of_decode hdecode
    obtain ⟨-, -, hnodup⟩ := encodingTable_opcodes
    obtain rfl := List.inj_on_of_nodup_map hnodup hmem hmem' (hname.symm.trans hname')
    exact haccepts

/-- A word carries the registers its row uses, each in its field. -/
theorem Uses.Carries.registers {u : Uses} (hu : u.FormatOk) {w : Word} {f : Fields} (h : u.Carries w (u.restrict f)) :
    ∀ p ∈ u.registers f, p.2.val = w.toNat / 2 ^ p.1 % 2 ^ 4 := by
  obtain ⟨hrd, hrs1, hlow⟩ := h
  simp only [Uses.restrict] at hrd hrs1 hlow
  intro p hp
  obtain ⟨hused, rfl⟩ | ⟨hused, rfl⟩ | ⟨hused, rfl⟩ | ⟨hused, rfl⟩ := Uses.mem_registers.mp hp
  · rw [hused] at hrd
    exact hrd.symm
  · rw [hused] at hrs1
    exact hrs1.symm
  · rw [if_neg fun himm => by simp [(hu himm).1] at hused, hused] at hlow
    exact hlow.1.symm
  · rw [if_neg fun himm => by simp [(hu himm).2] at hused, hused] at hlow
    exact hlow.2.1.symm

/-- Settles O3: by the table's row of an opcode, and by the operands that a word carries. -/
theorem legalWordsMatchTable : Obligations.LegalWordsMatchTable := by
  refine ⟨fun w row hmem => accepts_iff_decode hmem, fun w i hdecode => ?_⟩
  obtain ⟨row, hmem, haccepts, -⟩ := exists_accepts_of_decode hdecode
  refine ⟨⟨row, hmem, haccepts⟩, ?_⟩
  obtain ⟨u, mk, hrow, htests, rfl⟩ := decode_eq_ok_iff.mp hdecode
  have laws := rowLaws hrow
  refine ⟨?_, fun v himm => ?_⟩
  · rw [laws.registerFields]
    exact ((Uses.tests_iff_carries laws.formatOk w).mp htests).registers laws.formatOk
  · rw [laws.immediate, Bool.cond_eq_ite, Option.ite_none_right_eq_some] at himm
    obtain ⟨-, himm⟩ := himm
    calc
      v = field w 15 0 := (Option.some.inj himm).symm
      _ = w.toNat % 2 ^ 16 := by rw [field, pow_zero, Nat.div_one]

/-! ### Decode errors -/

/-- The opcodes without a row are those R87 lists. -/
theorem opcodeRow_eq_none_iff {op : Nat} (hop : op < 2 ^ 8) : opcodeRow op = none ↔ IllegalOpcode op := by
  constructor
  · intro h
    unfold opcodeRow at h
    split at h
    case h_20 =>
      simp only [imp_false] at *
      omega
    all_goals cases h
  · intro h
    cases hrow : opcodeRow op with
    | none => rfl
    | some row => exact absurd h (rowLaws hrow).not_illegal

theorem decodeFaultMasks_opcodes :
    (∀ row ∈ decodeFaultMasks, (opcodeRow row.1).isSome) ∧ (decodeFaultMasks.map (·.1)).Nodup := by
  decide

/-- The masks of an opcode are those of the fields its row uses. -/
theorem masks_of_mem_decodeFaultMasks {op : Nat} {unused high : Word} (h : (op, unused, high) ∈ decodeFaultMasks) :
    ∃ u mk, opcodeRow op = some (u, mk) ∧ unused = u.unusedMask ∧ high = u.highMask := by
  obtain ⟨hsome, hnodup⟩ := decodeFaultMasks_opcodes
  obtain ⟨⟨u, mk⟩, hrow⟩ := Option.isSome_iff_exists.mp (hsome _ h)
  have heq := List.inj_on_of_nodup_map hnodup h (rowLaws hrow).faultMasks rfl
  simp only [Prod.mk.injEq, true_and] at heq
  exact ⟨u, mk, hrow, heq⟩

theorem opcodeField_eq (w : Word) : field w 31 24 = w.toNat / 2 ^ 24 :=
  Nat.mod_eq_of_lt (Nat.div_lt_of_lt_mul w.isLt)

/-- What holds of an opcode's masks holds of its row in the list of masks. -/
theorem exists_decodeFaultMasks_iff {op : Nat} {p : Word → Word → Prop} :
    (∃ row ∈ decodeFaultMasks, row.1 = op ∧ p row.2.1 row.2.2) ↔
      ∃ u mk, opcodeRow op = some (u, mk) ∧ p u.unusedMask u.highMask := by
  constructor
  · rintro ⟨⟨_, _, _⟩, hmem, rfl, hp⟩
    obtain ⟨u, mk, hrow, rfl, rfl⟩ := masks_of_mem_decodeFaultMasks hmem
    exact ⟨u, mk, hrow, hp⟩
  · rintro ⟨u, mk, hrow, hp⟩
    exact ⟨_, (rowLaws hrow).faultMasks, rfl, hp⟩

/-- Settles O4: each test of R86 by its mask. -/
theorem decodeErrorsInOrder : Obligations.DecodeErrorsInOrder := by
  intro w
  rw [← opcodeField_eq]
  refine ⟨?_, ?_, ?_⟩
  · rw [decode_eq_illegalOpcode_iff, opcodeRow_eq_none_iff (field_lt w 31 24)]
  · rw [decode_eq_reservedBits_iff, exists_decodeFaultMasks_iff (p := fun a _ => w &&& a ≠ 0)]
    simp only [Uses.unusedZero_iff, ne_eq]
  · rw [decode_eq_badReg_iff, exists_decodeFaultMasks_iff (p := fun a b => w &&& a = 0 ∧ w &&& b ≠ 0)]
    simp only [Uses.unusedZero_iff, Uses.regsExist_iff, ne_eq]

/-! ### The step on a word that does not decode -/

/-- Settles O7: the engine's turn takes the decode error's fault, which names no destination. -/
theorem undecodableWordFaults : Obligations.UndecodableWordFaults := by
  intro s rest e hbusy hnext herror
  have hturn : step s = .next (State.raiseFault { s with events := rest } (decodeCause e) none) := by
    rw [step_of_engineNext hnext]
    exact State.engineTurn_of_error (s := { s with events := rest }) hbusy herror
  obtain ⟨htaken, hctx, hiob⟩ := State.raiseFault_plain { s with events := rest } (decodeCause e) none
  obtain ⟨-, -, hinfo, hcode, -⟩ := id htaken
  refine ⟨_, hturn, htaken, hinfo.trans ?_, hcode.trans ?_, hctx, hiob⟩ <;> cases e <;> rfl

end Sys2Proof

/-! SUPPORT. The conversion family's statements (spec/40_convert.md). First big-endian byte strings as numbers: `bytesOf` and `bytesVal` are
inverse to each other (R103, R105), and a normalized word array is determined by its value, so the byte/word conversions are too (R106).
Then NOP, MOV, LDB and STB: what each answers where no check applies, and the faults of LDB and STB (R100 to R105). -/

namespace Sys2Proof.Machine

open Sys2Proof

/-! ### Byte strings as numbers -/

@[simp] theorem bytesVal_append_singleton (s : List Byte) (b : Byte) : bytesVal (s ++ [b]) = bytesVal s * 2 ^ 8 + b.toNat := by
  simp [bytesVal]

/-- The least-significant byte stands last; `bytesOf` itself recurses on the most-significant one. -/
theorem bytesOf_succ_eq_append (v n : Nat) : bytesOf v (n + 1) = bytesOf (v / 2 ^ 8) n ++ [BitVec.ofNat 8 v] := by
  induction n with
  | zero => simp [bytesOf]
  | succ n ih =>
    have hfirst : v / (2 ^ 8) ^ (n + 1) = v / 2 ^ 8 / (2 ^ 8) ^ n := by rw [Nat.div_div_eq_div_mul, ← pow_succ']
    rw [bytesOf, ih, hfirst]
    rfl

/-- The bytes of a number have its value, modulo `2^(8 n)`. -/
theorem bytesVal_bytesOf (v n : Nat) : bytesVal (bytesOf v n) = v % (2 ^ 8) ^ n := by
  induction n generalizing v with
  | zero => simp [bytesOf, bytesVal, Nat.mod_one]
  | succ n ih =>
    rw [bytesOf_succ_eq_append, bytesVal_append_singleton, ih, BitVec.toNat_ofNat,
      show (2 ^ 8) ^ (n + 1) = 2 ^ 8 * (2 ^ 8) ^ n from pow_succ' _ _, Nat.mod_mul, Nat.add_comm, Nat.mul_comm]

/-- The bytes of a string's own value and length are the string. -/
theorem bytesOf_bytesVal (s : List Byte) : bytesOf (bytesVal s) s.length = s := by
  induction s using List.reverseRecOn with
  | nil => rfl
  | append_singleton s b ih =>
    have hb : b.toNat < 2 ^ 8 := b.isLt
    have hrest : (bytesVal s * 2 ^ 8 + b.toNat) / 2 ^ 8 = bytesVal s := by omega
    have hlast : BitVec.ofNat 8 (bytesVal s * 2 ^ 8 + b.toNat) = b := by
      apply BitVec.eq_of_toNat_eq
      rw [BitVec.toNat_ofNat]
      omega
    rw [List.length_append, List.length_singleton, bytesOf_succ_eq_append, bytesVal_append_singleton, hrest, hlast, ih]

/-- A string of `n` bytes has a value below `2^(8 n)`. -/
theorem bytesVal_lt (s : List Byte) : bytesVal s < (2 ^ 8) ^ s.length := by
  rw [← bytesOf_bytesVal s, bytesVal_bytesOf, bytesOf_length]
  exact Nat.mod_lt _ (Nat.pow_pos (by decide))

/-- Byte `j` of a number's `n` bytes (R105 `b_j`). -/
theorem bytesOf_getD (v : Nat) {n j : Nat} (h : j < n) : (bytesOf v n).getD j 0 = BitVec.ofNat 8 (v / (2 ^ 8) ^ (n - 1 - j)) := by
  induction n generalizing j with
  | zero => omega
  | succ n ih =>
    cases j with
    | zero => simp [bytesOf]
    | succ j =>
      rw [bytesOf, List.getD_cons_succ, ih (by omega)]
      congr 3
      omega

theorem bytesVal_zero_cons (s : List Byte) : bytesVal (0 :: s) = bytesVal s := rfl

theorem bytesVal_dropWhile_zero (s : List Byte) : bytesVal (s.dropWhile (· == 0)) = bytesVal s := by
  induction s with
  | nil => rfl
  | cons b s ih =>
    by_cases hb : b = 0
    · rw [hb, List.dropWhile_cons_of_pos (by rfl), ih, bytesVal_zero_cons]
    · rw [List.dropWhile_cons_of_neg (by simpa using hb)]

theorem bytesVal_replicate_zero_append (k : Nat) (s : List Byte) : bytesVal (List.replicate k 0 ++ s) = bytesVal s := by
  induction k with
  | zero => rfl
  | succ k ih => rw [List.replicate_succ, List.cons_append, bytesVal_zero_cons, ih]

/-- A string with a nonzero first byte has at least that byte's place value. -/
theorem pow_le_bytesVal {b : Byte} (h : b ≠ 0) (s : List Byte) : (2 ^ 8) ^ s.length ≤ bytesVal (b :: s) := by
  induction s using List.reverseRecOn with
  | nil =>
    have hb : b.toNat ≠ 0 := fun e => h (BitVec.eq_of_toNat_eq e)
    simp only [bytesVal, List.foldl_cons, List.foldl_nil, List.length_nil]
    omega
  | append_singleton s c ih =>
    rw [← List.cons_append, bytesVal_append_singleton, List.length_append, List.length_singleton, pow_succ]
    exact (Nat.mul_le_mul_right _ ih).trans (Nat.le_add_right _ _)

/-! ### Normalized word arrays -/

/-- The top word of `words v (l + 1)` is nonzero where `v` needs all `l + 1` words. -/
theorem isNormalized_words {v l : Nat} (hlow : base ^ l ≤ v) (hv : v < base ^ (l + 1)) : isNormalized (words v (l + 1)) = true := by
  have hpos : 0 < v / base ^ l := Nat.div_pos hlow (Nat.pow_pos (by decide))
  have hlt : v / base ^ l < base := Nat.div_lt_of_lt_mul (by rwa [← pow_succ])
  have htop : BitVec.ofNat 32 (v / base ^ l) ≠ 0 := by
    intro hzero
    have hnat := congrArg BitVec.toNat hzero
    rw [BitVec.toNat_ofNat, Nat.mod_eq_of_lt hlt] at hnat
    exact hpos.ne' hnat
  simpa [words, isNormalized] using htop

/-- Against a normalized array, fewer words are a smaller value. -/
theorem val_lt_val_of_length_lt {a b : List Word} (hb : isNormalized b = true) (h : a.length < b.length) : val a < val b := by
  cases b with
  | nil => simp at h
  | cons y ys =>
    have hy : 0 < y.toNat := Nat.pos_of_ne_zero fun e => by
      have hzero : y = 0 := BitVec.eq_of_toNat_eq e
      simp [isNormalized, hzero] at hb
    calc val a < base ^ a.length := val_lt a
      _ ≤ base ^ ys.length := Nat.pow_le_pow_right (by decide) (Nat.le_of_lt_succ h)
      _ ≤ y.toNat * base ^ ys.length := Nat.le_mul_of_pos_left _ hy
      _ ≤ val (y :: ys) := by rw [val_cons]; exact Nat.le_add_right _ _

/-- A normalized array is determined by its value. -/
theorem eq_of_val_eq {a b : List Word} (ha : isNormalized a = true) (hb : isNormalized b = true) (h : val a = val b) : a = b := by
  have hlength : a.length = b.length := by
    obtain hlt | heq | hgt := lt_trichotomy a.length b.length
    · exact absurd h (val_lt_val_of_length_lt hb hlt).ne
    · exact heq
    · exact absurd h (val_lt_val_of_length_lt ha hgt).ne'
  rw [← words_val a, ← words_val b, h, hlength]

/-! ### The conversions -/

/-- A word is four bytes. -/
theorem base_pow_eq (l : Nat) : base ^ l = (2 ^ 8) ^ (4 * l) := by
  rw [pow_mul, ← pow_mul 2 8 4]

theorem bytesToWords_length (s : List Byte) : (bytesToWords s).length = ((s.dropWhile (· == 0)).length + 3) / 4 := words_length _ _

/-- `BytesToWords` keeps the value: four bytes to a word, rounded up, are enough (R103). -/
theorem val_bytesToWords (s : List Byte) : val (bytesToWords s) = bytesVal s := by
  have hfits : bytesVal (s.dropWhile (· == 0)) < base ^ (((s.dropWhile (· == 0)).length + 3) / 4) := by
    rw [base_pow_eq]
    exact (bytesVal_lt _).trans_le (Nat.pow_le_pow_right (by decide) (by omega))
  rw [bytesToWords, val_words, Nat.mod_eq_of_lt hfits, bytesVal_dropWhile_zero]

/-- `BytesToWords` gives a normalized array: after stripping, the first byte is nonzero and lies in the first word (R103). -/
theorem isNormalized_bytesToWords (s : List Byte) : isNormalized (bytesToWords s) = true := by
  have hval := val_bytesToWords s
  rw [← bytesVal_dropWhile_zero] at hval
  cases hstrip : s.dropWhile (· == 0) with
  | nil =>
    have hempty : bytesToWords s = [] := by
      rw [bytesToWords, hstrip]
      rfl
    rw [hempty]
    rfl
  | cons b t =>
    have hb : b ≠ 0 := by
      have hhead := List.head?_dropWhile_not (· == 0) s
      rw [hstrip] at hhead
      simpa using hhead
    have hlength : (bytesToWords s).length = t.length / 4 + 1 := by
      rw [bytesToWords_length, hstrip, List.length_cons]
      omega
    rw [← words_val (bytesToWords s), hlength, hval, hstrip]
    apply isNormalized_words
    · rw [base_pow_eq]
      exact (Nat.pow_le_pow_right (by decide) (by omega)).trans (pow_le_bytesVal hb t)
    · rw [← hstrip, ← hval, ← hlength]
      exact val_lt _

/-- Back to bytes: the stripped string, left-padded with zeros. -/
theorem wordsToBytes_bytesToWords {s : List Byte} {m : Nat} (h : (bytesToWords s).length ≤ m) :
    wordsToBytes (bytesToWords s) m =
      List.replicate (4 * m - (s.dropWhile (· == 0)).length) 0 ++ s.dropWhile (· == 0) := by
  have hlength : (List.replicate (4 * m - (s.dropWhile (· == 0)).length) (0 : Byte) ++ s.dropWhile (· == 0)).length = 4 * m := by
    rw [bytesToWords_length] at h
    rw [List.length_append, List.length_replicate]
    omega
  have hbytes := bytesOf_bytesVal (List.replicate (4 * m - (s.dropWhile (· == 0)).length) 0 ++ s.dropWhile (· == 0))
  rwa [hlength, bytesVal_replicate_zero_append, bytesVal_dropWhile_zero, ← val_bytesToWords] at hbytes

/-- `4 M` bytes give the words of the value's normalized array back: both arrays are normalized, with the same value (R106). -/
theorem bytesToWords_wordsToBytes {a : List Word} {m : Nat} (h : siglen a ≤ m) : bytesToWords (wordsToBytes a m) = norm a := by
  have hfits : val a < (2 ^ 8) ^ (4 * m) := by
    calc val a = val (norm a) := (val_norm a).symm
      _ < base ^ siglen a := val_lt _
      _ ≤ base ^ m := Nat.pow_le_pow_right (by decide) h
      _ = (2 ^ 8) ^ (4 * m) := base_pow_eq m
  apply eq_of_val_eq (isNormalized_bytesToWords _) (isNormalized_norm a)
  rw [val_bytesToWords, wordsToBytes, bytesVal_bytesOf, Nat.mod_eq_of_lt hfits, val_norm]

/-- Settles O49: a string of exactly `4 M` bytes comes back whole because its bytes are those of its value. -/
theorem byteConversionRoundTrip : Obligations.ByteConversionRoundTrip := by
  refine ⟨fun s => ⟨val_bytesToWords s, isNormalized_bytesToWords s, bytesToWords_length s⟩,
    fun s m => wordsToBytes_bytesToWords, fun s m hlength => ?_, fun a m => bytesToWords_wordsToBytes⟩
  rw [wordsToBytes, val_bytesToWords, ← hlength, bytesOf_bytesVal]

/-! ### Commands with their checks made -/

theorem State.command_of_firstFault_eq_none (s : State) {checks : List (Bool × Cause)} (h : firstFault checks = none)
    (rd : Option WReg) (effect : State) : s.command rd checks effect = effect.complete := by
  rw [State.command, h]

theorem State.command_of_firstFault_eq_some (s : State) {checks : List (Bool × Cause)} {c : Cause} (h : firstFault checks = some c)
    (rd : Option WReg) (effect : State) : s.command rd checks effect = s.raiseFault c rd := by
  rw [State.command, h]

/-- With every source valid, the source check alone faults nothing (R213). -/
theorem firstFault_sourceCheck {s : State} {rs : List WReg} (h : s.AllValid rs) : firstFault [s.sourceCheck rs] = none := by
  simp [State.sourceCheck, firstFault_cons, State.someInvalid_eq_false.mpr h]

/-! ### NOP and MOV -/

/-- Settles O31: completing is NOP's only effect. -/
theorem nopResult : Obligations.NopResult := fun s =>
  ⟨s.complete, rfl, s.complete_endedWell, fun r _ => s.reg_complete r, s.complete_flags, s.complete_ctx, fun _ => rfl,
    s.complete_samePort⟩

/-- MOV of a valid source writes its view and completes (R101). -/
theorem exec_mov_of_allValid {s : State} {rs1 : WReg} (h : s.AllValid [rs1]) (rd : WReg) :
    exec (.mov rd rs1) s = .next (s.writeReg rd (s.view rs1)).complete :=
  congrArg Host.Outcome.next (s.command_of_firstFault_eq_none (firstFault_sourceCheck h) _ _)

/-- Settles O32: a view always fits a register. -/
theorem movResult : Obligations.MovResult := fun rd rs1 s hvalid =>
  ⟨_, exec_mov_of_allValid hvalid rd, s.complete_writeReg_wroteOnly rd (s.view_length_le rs1), rfl⟩

/-! ### LDB -/

theorem Memory.readBytes_eq_map (m : Memory) (j n : Nat) : Memory.readBytes m j n = (List.range' j n).map (Memory.read m) := by
  induction n generalizing j with
  | zero => rfl
  | succ n ih => rw [Memory.readBytes, ih, List.range'_succ, List.map_cons]

theorem State.byteString_eq_map (s : State) (n : Nat) : s.byteString n = (List.range n).map (Memory.read s.iob) := by
  rw [State.byteString, Memory.readBytes_eq_map, List.range_eq_range']

/-- LDB inside the buffer writes the word array of the byte string and completes (R102). -/
theorem exec_ldb_of_le {n : Nat} (h : n ≤ Config.iobBytes) (rd : WReg) (s : State) :
    exec (.ldb rd n) s = .next (s.writeReg rd (bytesToWords (s.byteString n))).complete :=
  congrArg Host.Outcome.next (s.command_of_firstFault_eq_none (by simp [firstFault_cons, h]) _ _)

/-- LDB past the buffer faults with IOB_RANGE (R102). -/
theorem exec_ldb_of_lt {n : Nat} (h : Config.iobBytes < n) (rd : WReg) (s : State) :
    exec (.ldb rd n) s = .next (s.raiseFault .iobRange (some rd)) :=
  congrArg Host.Outcome.next (s.command_of_firstFault_eq_some (by simp [firstFault_cons, h]) _ _)

/-- Settles O33: 544 bytes are at most 136 words, so the array fits. -/
theorem ldbResult : Obligations.LdbResult := by
  intro rd n s hn
  have hfits : (bytesToWords (s.byteString n)).length ≤ Config.cap :=
    bytesToWords_length_le (by rwa [State.byteString, Memory.readBytes_length])
  rw [← State.byteString_eq_map]
  exact ⟨_, exec_ldb_of_le hn rd s, s.complete_writeReg_wroteOnly rd hfits, rfl⟩

/-! ### STB -/

section
variable {s : State} {rs1 rs2 : WReg} (hvalid : s.AllValid [rs1, rs2])
include hvalid

/-- STB of a value that fits a width inside the buffer stores the bytes and completes (R104). -/
theorem exec_stb_of_fits (hfits : siglen (s.view rs1) ≤ s.widthWords rs2) (hwidth : 4 * s.widthWords rs2 ≤ Config.iobBytes) :
    exec (.stb rs1 rs2) s =
      .next (s.setIob (Memory.writeBytes s.iob 0 (wordsToBytes (s.view rs1) (s.widthWords rs2)))).complete := by
  simp only [exec, execStb, State.someInvalid_eq_false.mpr hvalid, Bool.false_eq_true, if_false, hfits.not_gt, hwidth.not_gt]

/-- STB of a value with more significant words than the width faults with WIDTH, after scrambling (R104). -/
theorem exec_stb_of_lt (hlong : s.widthWords rs2 < siglen (s.view rs1)) :
    exec (.stb rs1 rs2) s = .next ((s.scrambleIob (s.widthWords rs2)).raiseFault .width none) := by
  simp only [exec, execStb, State.someInvalid_eq_false.mpr hvalid, Bool.false_eq_true, if_false, hlong, if_true]

end

/-- A run of writes from index 0 leaves every byte behind it. -/
theorem Memory.read_writeBytes_zero_of_le {m : Memory} (h : Memory.wf m = true) {bs : List Byte} (hbs : bs.length ≤ Config.iobBytes)
    {j : Nat} (hj : bs.length ≤ j) : Memory.read (Memory.writeBytes m 0 bs) j = Memory.read m j := by
  rw [Memory.read_writeBytes h (by omega), if_neg (by omega)]

theorem Memory.read_writeBytes_zero_of_lt {m : Memory} (h : Memory.wf m = true) {bs : List Byte} (hbs : bs.length ≤ Config.iobBytes)
    {j : Nat} (hj : j < bs.length) : Memory.read (Memory.writeBytes m 0 bs) j = bs.getD j 0 := by
  rw [Memory.read_writeBytes h (by omega), if_pos (by omega), Nat.sub_zero]

@[simp] theorem wordsToBytes_length (a : List Word) (m : Nat) : (wordsToBytes a m).length = 4 * m := bytesOf_length _ _

/-- Settles O34: the stored bytes are the value's (R105), the bytes behind them are not written. -/
theorem stbResult : Obligations.StbResult := by
  intro rs1 rs2 s hvalid hwf hlen hfits width
  have hwidth : width ≤ Config.iobBytes := by
    have hbytes : Config.iobBytes = 4 * 136 := rfl
    omega
  have hstored : (wordsToBytes (s.view rs1) (s.widthWords rs2)).length = width := wordsToBytes_length _ _
  refine ⟨_, exec_stb_of_fits hvalid hfits hwidth, State.complete_endedWell _, fun j hj => ?_, fun j hj => ?_, fun _ _ => rfl,
    rfl, rfl, ⟨rfl, rfl, rfl, rfl⟩⟩
  · rw [State.complete_iob, State.setIob_iob, Memory.read_writeBytes_zero_of_lt hwf (hstored.trans_le hwidth) (hj.trans_eq hstored.symm),
      wordsToBytes, bytesOf_getD _ (show j < 4 * s.widthWords rs2 from hj), BitVec.toNat_ofNat, pow_mul]
    rfl
  · exact Memory.read_writeBytes_zero_of_le hwf (hstored.trans_le hwidth) (hstored.trans_le hj)

/-- WIDTH leaves every byte at the width and above: the scrambled ones are those below it (R104, U2). -/
theorem State.read_scrambleIob_of_le {s : State} (h : Memory.wf s.iob = true) {wd : Nat} (hwd : 4 * wd ≤ Config.iobBytes) {j : Nat}
    (hj : 4 * wd ≤ j) : Memory.read (s.scrambleIob wd).iob j = Memory.read s.iob j :=
  Memory.read_writeBytes_zero_of_le h (by simpa using hwd) (by simpa using hj)

/-- Settles O23: a width below the significant words of a view is below 136 words, so the scrambled bytes lie inside the buffer. -/
theorem byteCommandFaults : Obligations.ByteCommandFaults := by
  refine ⟨fun rd n s hn => ⟨_, exec_ldb_of_lt hn rd s, s.raiseFault_plain _ _⟩, fun rs1 rs2 s hvalid hwf hlong => ?_⟩
  have hwidth : 4 * s.widthWords rs2 ≤ Config.iobBytes := by
    have hview : siglen (s.view rs1) ≤ Config.cap := (norm_length_le _).trans (s.view_length_le rs1)
    have hbytes : Config.iobBytes = 4 * Config.cap := rfl
    have hshort : s.widthWords rs2 < Config.cap := hlong.trans_le hview
    omega
  exact ⟨_, exec_stb_of_lt hvalid hlong, State.raiseFault_taken (s.scrambleIob _) _ _, rfl, fun _ =>
    State.read_scrambleIob_of_le hwf hwidth⟩

end Sys2Proof.Machine

/-! SUPPORT. The word-array family's statements (spec/41_wordarray.md). First the word-level units: each loop is given one equation on values,
least-significant word first, and its words are then those of that value, since an array is determined by its value and length. The adder and
the subtractor (R123, R124), the shifter (R125 to R129), the multiplier and the squarer (R133 to R135), the comparison (R121, R122). Then
what CMP, ADD, SUB, SHL, SHR, NORM, MUL and SQR answer where no check applies, and the faults of their own checks. -/

namespace Sys2Proof.Machine

open Sys2Proof

/-! ### Arrays by value and length -/

/-- An array is the words of its value in its length. -/
theorem eq_words_of_val_eq {a : List Word} {v l : Nat} (hlength : a.length = l) (hval : val a = v) : a = words v l := by
  rw [← hval, ← hlength, words_val]

/-- `words` sees a number modulo `2^(32 l)` only. -/
theorem words_mod (v l : Nat) : words (v % base ^ l) l = words v l :=
  (eq_words_of_val_eq (words_length v l) (val_words v l)).symm

theorem val_words_of_lt {v l : Nat} (h : v < base ^ l) : val (words v l) = v := (val_words v l).trans (Nat.mod_eq_of_lt h)

@[simp] theorem val_singleton (x : Word) : val [x] = x.toNat := by
  simp [val_cons]

/-- The value of an array taken least-significant word first. -/
@[simp] theorem val_reverse_cons (x : Word) (xs : List Word) : val (x :: xs).reverse = x.toNat + val xs.reverse * base := by
  rw [List.reverse_cons, val_append, val_cons, List.length_singleton, List.length_nil, val_nil]
  ring

theorem val_replicate_zero (k : Nat) : val (List.replicate k 0) = 0 := by
  rw [← List.append_nil (List.replicate k 0), val_replicate_zero_append, val_nil]

theorem val_append_replicate_zero (a : List Word) (k : Nat) : val (a ++ List.replicate k 0) = val a * base ^ k := by
  rw [val_append, val_replicate_zero, List.length_replicate, Nat.add_zero]

/-- The words above the `q` least-significant ones hold the value divided by their place. -/
theorem val_take_sub (a : List Word) (q : Nat) : val (a.take (a.length - q)) = val a / base ^ q := by
  obtain hq | hq := Nat.le_total q a.length
  · have hlow : (a.drop (a.length - q)).length = q := by rw [List.length_drop]; omega
    have hlt := val_lt (a.drop (a.length - q))
    rw [hlow] at hlt
    have hsplit : val a = val (a.take (a.length - q)) * base ^ q + val (a.drop (a.length - q)) := by
      conv_lhs => rw [← List.take_append_drop (a.length - q) a, val_append, hlow]
    rw [hsplit, Nat.add_comm, Nat.add_mul_div_right _ _ (Nat.zero_lt_of_lt hlt), Nat.div_eq_of_lt hlt, Nat.zero_add]
  · have hlt : val a < base ^ q := (val_lt a).trans_le (Nat.pow_le_pow_right (by decide) hq)
    rw [Nat.sub_eq_zero_of_le hq, List.take_zero, val_nil, Nat.div_eq_of_lt hlt]

theorem toNat_toWord (v : Nat) : (toWord v).toNat = v % base := BitVec.toNat_ofNat v 32

/-! ### Adder and subtractor -/

theorem addLoop_length {xs ys : List Word} (h : xs.length = ys.length) (carry : Nat) :
    (addLoop xs ys carry).1.length = xs.length := by
  induction xs generalizing ys carry with
  | nil => rw [addLoop]; simp
  | cons x xs ih =>
    cases ys with
    | nil => simp at h
    | cons y ys => rw [addLoop, List.length_cons, List.length_cons, ih (Nat.succ.inj h)]

/-- The adder's loop loses nothing: its words and the carry above them are the sum (R123). -/
theorem val_addLoop {xs ys : List Word} (h : xs.length = ys.length) (carry : Nat) :
    val (addLoop xs ys carry).1.reverse + (addLoop xs ys carry).2 * base ^ xs.length =
      val xs.reverse + val ys.reverse + carry := by
  induction xs generalizing ys carry with
  | nil =>
    obtain rfl := List.length_eq_zero_iff.mp h.symm
    simp [addLoop]
  | cons x xs ih =>
    cases ys with
    | nil => simp at h
    | cons y ys =>
      have hrest := ih (Nat.succ.inj h) ((x.toNat + y.toNat + carry) / base)
      have hword := Nat.mod_add_div (x.toNat + y.toNat + carry) base
      rw [addLoop]
      simp only [val_reverse_cons, toNat_toWord, List.length_cons, pow_succ]
      linear_combination base * hrest + hword

/-- The adder's words and carry (R123). -/
theorem adder_eq {a b : List Word} (h : a.length = b.length) :
    adder a b = (words (val a + val b) a.length, (val a + val b) / base ^ a.length) := by
  have hreverse : a.reverse.length = b.reverse.length := by simpa using h
  have hlength : (adder a b).1.length = a.length := by simp [adder, addLoop_length hreverse]
  have hsum : val (adder a b).1 + (adder a b).2 * base ^ a.length = val a + val b := by
    simpa [adder] using val_addLoop hreverse 0
  have hlt : val (adder a b).1 < base ^ a.length := hlength ▸ val_lt _
  refine Prod.ext ?_ ?_
  · rw [← words_mod, ← hsum, Nat.add_mul_mod_self_right, Nat.mod_eq_of_lt hlt]
    exact eq_words_of_val_eq hlength rfl
  · rw [← hsum, Nat.add_mul_div_right _ _ (Nat.zero_lt_of_lt hlt), Nat.div_eq_of_lt hlt, Nat.zero_add]

theorem subLoop_length {xs ys : List Word} (h : xs.length = ys.length) (borrow : Nat) :
    (subLoop xs ys borrow).1.length = xs.length := by
  induction xs generalizing ys borrow with
  | nil => rw [subLoop]; simp
  | cons x xs ih =>
    cases ys with
    | nil => simp at h
    | cons y ys => rw [subLoop, List.length_cons, List.length_cons, ih (Nat.succ.inj h)]

/-- One word of the subtractor: what it wraps around by is the borrow it hands on (R124). -/
theorem toNat_subWord (x y : Word) {borrow : Nat} (h : borrow ≤ 1) :
    (toWord (((x.toNat : Int) - y.toNat - borrow) % base).toNat).toNat + y.toNat + borrow =
      x.toNat + (if (x.toNat : Int) - y.toNat - borrow < 0 then 1 else 0) * base := by
  have hx := x.isLt
  have hy := y.isLt
  rw [toNat_toWord, show base = 4294967296 from rfl]
  split <;> omega

/-- The subtractor's loop hands on at most one borrow, and its words are the difference wrapped by it (R124). -/
theorem val_subLoop {xs ys : List Word} (h : xs.length = ys.length) {borrow : Nat} (hborrow : borrow ≤ 1) :
    (subLoop xs ys borrow).2 ≤ 1 ∧
      val (subLoop xs ys borrow).1.reverse + val ys.reverse + borrow =
        val xs.reverse + (subLoop xs ys borrow).2 * base ^ xs.length := by
  induction xs generalizing ys borrow with
  | nil =>
    obtain rfl := List.length_eq_zero_iff.mp h.symm
    simpa [subLoop] using hborrow
  | cons x xs ih =>
    cases ys with
    | nil => simp at h
    | cons y ys =>
      have hnext : (if (x.toNat : Int) - y.toNat - borrow < 0 then 1 else 0) ≤ 1 := by split <;> omega
      obtain ⟨hlast, hrest⟩ := ih (Nat.succ.inj h) hnext
      have hword := toNat_subWord x y hborrow
      rw [subLoop]
      refine ⟨hlast, ?_⟩
      simp only [val_reverse_cons, List.length_cons, pow_succ]
      linear_combination base * hrest + hword

/-- The subtractor's words and borrow (R124). -/
theorem subtractor_eq {a b : List Word} (h : a.length = b.length) :
    subtractor a b = (words (val a + base ^ a.length - val b) a.length, if val a < val b then 1 else 0) := by
  have hreverse : a.reverse.length = b.reverse.length := by simpa using h
  have hlength : (subtractor a b).1.length = a.length := by simp [subtractor, subLoop_length hreverse]
  obtain ⟨hborrow, hdiff⟩ : (subtractor a b).2 ≤ 1 ∧
      val (subtractor a b).1 + val b = val a + (subtractor a b).2 * base ^ a.length := by
    simpa [subtractor] using val_subLoop hreverse (Nat.zero_le 1)
  have hlt : val (subtractor a b).1 < base ^ a.length := hlength ▸ val_lt _
  have ha := val_lt a
  have hb : val b < base ^ a.length := h ▸ val_lt b
  obtain hzero | hone := Nat.le_one_iff_eq_zero_or_eq_one.mp hborrow
  · rw [hzero] at hdiff
    have hle : ¬ val a < val b := by omega
    have hwrap : val a + base ^ a.length - val b = val (subtractor a b).1 + base ^ a.length := by omega
    refine Prod.ext ?_ (hzero.trans (if_neg hle).symm)
    rw [← words_mod, hwrap, Nat.add_mod_right, Nat.mod_eq_of_lt hlt]
    exact eq_words_of_val_eq hlength rfl
  · rw [hone] at hdiff
    have hborrows : val a < val b := by omega
    have hexact : val (subtractor a b).1 = val a + base ^ a.length - val b := by omega
    exact Prod.ext (eq_words_of_val_eq hlength hexact) (hone.trans (if_pos hborrows).symm)

/-- Settles O50, by the loops' equations on values. -/
theorem adderSubtractorValues : Obligations.AdderSubtractorValues :=
  fun _ _ h => ⟨adder_eq h, subtractor_eq h⟩

/-! ### Shifter -/

theorem topWord_cons (x : Word) (xs : List Word) : topWord (x :: xs) = x := rfl

@[simp] theorem shlStep_length (r : Nat) (a : List Word) : (shlStep r a).length = a.length := by
  induction a with
  | nil => rfl
  | cons x xs ih =>
    cases xs with
    | nil => rfl
    | cons y ys => simpa [shlStep] using ih

/-- `r` bits of a word and the `32 - r` above them. -/
theorem base_eq_pow_mul {r : Nat} (h : r ≤ 32) : base = 2 ^ (32 - r) * 2 ^ r := by
  rw [← pow_add, Nat.sub_add_cancel h]

/-- A word shifted left splits into what stays in the word and what the word above receives (R127). -/
theorem shl_word_split (x : Word) {r : Nat} (h : r ≤ 32) :
    x.toNat * 2 ^ r % base + x.toNat / 2 ^ (32 - r) * base = x.toNat * 2 ^ r := by
  have hout : x.toNat * 2 ^ r / base = x.toNat / 2 ^ (32 - r) := by
    rw [base_eq_pow_mul h, Nat.mul_div_mul_right _ _ (Nat.two_pow_pos r)]
  rw [← hout]
  exact Nat.mod_add_div' _ _

/-- The bits an output word receives from the word below fall into its `r` low bits, which are zero (R127). -/
theorem shl_word_lt (x y : Word) {r : Nat} (h : r ≤ 32) : x.toNat * 2 ^ r % base + y.toNat / 2 ^ (32 - r) < base := by
  have hy : y.toNat / 2 ^ (32 - r) < 2 ^ r := Nat.div_lt_of_lt_mul (by rw [← base_eq_pow_mul h]; exact y.isLt)
  have hx : x.toNat % 2 ^ (32 - r) + 1 ≤ 2 ^ (32 - r) := Nat.mod_lt _ (Nat.two_pow_pos _)
  rw [base_eq_pow_mul h, Nat.mul_mod_mul_right]
  calc x.toNat % 2 ^ (32 - r) * 2 ^ r + y.toNat / 2 ^ (32 - r)
      < (x.toNat % 2 ^ (32 - r) + 1) * 2 ^ r := by rw [Nat.succ_mul]; exact Nat.add_lt_add_left hy _
    _ ≤ 2 ^ (32 - r) * 2 ^ r := Nat.mul_le_mul_right _ hx

/-- The left primitive step loses only what it pushes out of the top (R127). -/
theorem val_shlStep {r : Nat} (h : r ≤ 32) (a : List Word) :
    val (shlStep r a) + (topWord a).toNat / 2 ^ (32 - r) * base ^ a.length = val a * 2 ^ r := by
  induction a with
  | nil => simp [shlStep, topWord]
  | cons x xs ih =>
    have hx := shl_word_split x h
    cases xs with
    | nil =>
      rw [shlStep, val_singleton, val_singleton, toNat_toWord, topWord_cons, List.length_singleton, pow_one]
      exact hx
    | cons y ys =>
      have hword : (toWord (x.toNat * 2 ^ r % base + y.toNat / 2 ^ (32 - r))).toNat =
          x.toNat * 2 ^ r % base + y.toNat / 2 ^ (32 - r) := Nat.mod_eq_of_lt (shl_word_lt x y h)
      rw [topWord_cons] at ih ⊢
      rw [shlStep, val_cons, val_cons x, hword, shlStep_length, show (x :: y :: ys).length = (y :: ys).length + 1 from rfl,
        pow_succ]
      linear_combination ih + base ^ (y :: ys).length * hx

/-- The word the left primitive step pushes out is put in front where it is nonzero (R126, R127). -/
theorem shlPrimitive_length (r : Nat) (a : List Word) : (shlPrimitive r a).length =
    a.length + if 0 < r ∧ (topWord a).toNat / 2 ^ (32 - r) ≠ 0 then 1 else 0 := by
  unfold shlPrimitive
  by_cases hr : r = 0
  · simp [hr]
  · by_cases hout : (topWord a).toNat / 2 ^ (32 - r) = 0 <;> simp [hr, hout, Nat.pos_of_ne_zero hr]

theorem val_shlPrimitive {r : Nat} (h : r ≤ 32) (a : List Word) : val (shlPrimitive r a) = val a * 2 ^ r := by
  have hstep := val_shlStep h a
  unfold shlPrimitive
  dsimp only
  split
  next hr => simp [hr]
  next hr =>
    split
    next hout => simpa [hout] using hstep
    next hout =>
      have hlt : (topWord a).toNat / 2 ^ (32 - r) < base := (Nat.div_le_self _ _).trans_lt (topWord a).isLt
      rw [val_cons, shlStep_length, toNat_toWord, Nat.mod_eq_of_lt hlt, ← hstep, Nat.add_comm]

/-- `n` bits are the whole words and the bits of the primitive step (R125). -/
theorem pow_words_bits (n : Nat) : 2 ^ n = 2 ^ (n % 32) * base ^ (n / 32) := by
  rw [← pow_mul, ← pow_add, Nat.mod_add_div]

theorem shifterLeft_length (a : List Word) (n : Nat) : (shifterLeft a n).length = shlLength a n := by
  unfold shifterLeft shlLength
  by_cases ha : a = []
  · simp [ha]
  · simp only [ha, List.length_eq_zero_iff, if_false, List.length_append, List.length_replicate, shlPrimitive_length]
    omega

theorem val_shifterLeft (a : List Word) (n : Nat) : val (shifterLeft a n) = val a * 2 ^ n := by
  have hr : n % 32 ≤ 32 := (Nat.mod_lt n (by decide)).le
  unfold shifterLeft
  split
  next ha => simp [ha]
  next => rw [val_append_replicate_zero, val_shlPrimitive hr, pow_words_bits n, mul_assoc]

/-- A left shift fits the length of R126: the shifter reaches it. -/
theorem val_mul_two_pow_lt (a : List Word) (n : Nat) : val a * 2 ^ n < base ^ shlLength a n := by
  rw [← val_shifterLeft, ← shifterLeft_length]
  exact val_lt _

@[simp] theorem shrStep_length (r : Nat) (prev : Word) (a : List Word) : (shrStep r prev a).length = a.length := by
  induction a generalizing prev with
  | nil => rfl
  | cons x xs ih => simp [shrStep, ih]

/-- An output word of the right primitive step: its input word below the `r` low bits of the word before, shifted (R129). -/
theorem toNat_shrWord (prev x : Word) {r : Nat} (h : r ≤ 32) :
    (toWord (x.toNat / 2 ^ r + prev.toNat * 2 ^ (32 - r) % base)).toNat = (prev.toNat % 2 ^ r * base + x.toNat) / 2 ^ r := by
  have hpos := Nat.two_pow_pos r
  have hbase : base = 2 ^ r * 2 ^ (32 - r) := by rw [base_eq_pow_mul h, mul_comm]
  have hin : prev.toNat * 2 ^ (32 - r) % base = prev.toNat % 2 ^ r * 2 ^ (32 - r) := by rw [hbase, Nat.mul_mod_mul_right]
  have hsum : x.toNat / 2 ^ r + prev.toNat % 2 ^ r * 2 ^ (32 - r) = (prev.toNat % 2 ^ r * base + x.toNat) / 2 ^ r := by
    rw [hbase, mul_left_comm, Nat.mul_add_div hpos, Nat.add_comm]
  have hlt : (prev.toNat % 2 ^ r * base + x.toNat) / 2 ^ r < base := by
    refine Nat.div_lt_of_lt_mul ?_
    have hprev : prev.toNat % 2 ^ r + 1 ≤ 2 ^ r := Nat.mod_lt _ hpos
    calc prev.toNat % 2 ^ r * base + x.toNat < (prev.toNat % 2 ^ r + 1) * base := by
          rw [Nat.succ_mul]
          exact Nat.add_lt_add_left x.isLt _
      _ ≤ 2 ^ r * base := Nat.mul_le_mul_right _ hprev
  rw [hin, hsum, toNat_toWord, Nat.mod_eq_of_lt hlt]

/-- The right primitive step divides, the `r` low bits of the word before standing above the array (R129). -/
theorem val_shrStep {r : Nat} (h : r ≤ 32) (prev : Word) (a : List Word) :
    val (shrStep r prev a) = (prev.toNat % 2 ^ r * base ^ a.length + val a) / 2 ^ r := by
  induction a generalizing prev with
  | nil => simp [shrStep, Nat.div_eq_of_lt (Nat.mod_lt _ (Nat.two_pow_pos r))]
  | cons x xs ih =>
    have hlow : (prev.toNat % 2 ^ r * base + x.toNat) % 2 ^ r = x.toNat % 2 ^ r := by
      rw [base_eq_pow_mul h, ← mul_assoc, Nat.mul_add_mod']
    have hsplit := Nat.div_add_mod (prev.toNat % 2 ^ r * base + x.toNat) (2 ^ r)
    rw [hlow] at hsplit
    have hsum : prev.toNat % 2 ^ r * base ^ (xs.length + 1) + (x.toNat * base ^ xs.length + val xs) =
        2 ^ r * ((prev.toNat % 2 ^ r * base + x.toNat) / 2 ^ r * base ^ xs.length) +
          (x.toNat % 2 ^ r * base ^ xs.length + val xs) := by
      rw [pow_succ]
      linear_combination base ^ xs.length * hsplit.symm
    rw [shrStep, val_cons, val_cons, toNat_shrWord prev x h, shrStep_length, ih, List.length_cons, hsum,
      Nat.mul_add_div (Nat.two_pow_pos r)]

/-- A top word emptied by the right primitive step is removed (R128, R129). -/
theorem shrPrimitive_length (r : Nat) (a : List Word) : (shrPrimitive r a).length =
    a.length - if 0 < r ∧ (topWord a).toNat / 2 ^ r = 0 then 1 else 0 := by
  unfold shrPrimitive
  by_cases hr : r = 0
  · simp [hr]
  · by_cases hout : (topWord a).toNat / 2 ^ r = 0 <;> simp [hr, hout, Nat.pos_of_ne_zero hr]

/-- An emptied top word is zero, so removing it keeps the value (R129). -/
theorem val_drop_one_shrStep {r : Nat} {a : List Word} (h : (topWord a).toNat / 2 ^ r = 0) :
    val ((shrStep r 0 a).drop 1) = val (shrStep r 0 a) := by
  cases a with
  | nil => rfl
  | cons x xs =>
    rw [topWord_cons] at h
    simp [shrStep, h, val_cons]

theorem val_shrPrimitive {r : Nat} (h : r ≤ 32) (a : List Word) : val (shrPrimitive r a) = val a / 2 ^ r := by
  have hstep : val (shrStep r 0 a) = val a / 2 ^ r := by simpa using val_shrStep h 0 a
  unfold shrPrimitive
  split
  next hr => simp [hr]
  next hr =>
    split
    next htop => rw [val_drop_one_shrStep htop, hstep]
    next => exact hstep

theorem shifterRight_length (a : List Word) (n : Nat) : (shifterRight a n).length = shrLength a n := by
  rw [shifterRight, shrPrimitive_length, List.length_take, Nat.min_eq_left (Nat.sub_le _ _), shrLength]
  by_cases hall : a.length ≤ n / 32
  · rw [if_pos hall, Nat.sub_eq_zero_of_le hall, Nat.zero_sub]
  · have htop : topWord (a.take (a.length - n / 32)) = topWord a := by
      rw [topWord, topWord, List.head?_take, if_neg (by omega)]
    rw [if_neg hall, htop]

theorem val_shifterRight (a : List Word) (n : Nat) : val (shifterRight a n) = val a / 2 ^ n := by
  have hr : n % 32 ≤ 32 := (Nat.mod_lt n (by decide)).le
  rw [shifterRight, val_shrPrimitive hr, val_take_sub, Nat.div_div_eq_div_mul, mul_comm, ← pow_words_bits]

/-- A right shift fits the length of R128: the shifter reaches it. -/
theorem val_div_two_pow_lt (a : List Word) (n : Nat) : val a / 2 ^ n < base ^ shrLength a n := by
  rw [← val_shifterRight, ← shifterRight_length]
  exact val_lt _

/-- Settles O51, by the lengths and the values of the two shifters. -/
theorem shifterValues : Obligations.ShifterValues := fun a n =>
  ⟨eq_words_of_val_eq (shifterLeft_length a n) (val_shifterLeft a n), val_mul_two_pow_lt a n,
    eq_words_of_val_eq (shifterRight_length a n) (val_shifterRight a n), val_div_two_pow_lt a n⟩

/-! ### Multiplier and squarer -/

@[simp] theorem mulRow_length (x : Word) (ys zs : List Word) (carry : Nat) : (mulRow x ys zs carry).length = zs.length := by
  induction zs generalizing ys carry with
  | nil => cases ys <;> rfl
  | cons z zs ih =>
    cases ys with
    | nil => rfl
    | cons y ys => rw [mulRow, List.length_cons, ih, List.length_cons]

theorem mulRow_nil (x z : Word) (zs : List Word) (carry : Nat) : mulRow x [] (z :: zs) carry = toWord carry :: zs := rfl

/-- A row leaves the words above its last carry alone (R133). -/
theorem mulRow_append {x w : Word} {ys zs : List Word} (h : ys.length = zs.length) (rest : List Word) (carry : Nat) :
    mulRow x ys (zs ++ w :: rest) carry = mulRow x ys (zs ++ [w]) carry ++ rest := by
  induction ys generalizing zs carry with
  | nil =>
    obtain rfl := List.length_eq_zero_iff.mp h.symm
    rfl
  | cons y ys ih =>
    cases zs with
    | nil => simp at h
    | cons z zs => simp only [List.cons_append, mulRow, ih (Nat.succ.inj h)]

/-- Two words multiplied, with a word and a carry of a word added, carry less than a word on. -/
theorem mulRow_carry_lt (x y z : Word) {carry : Nat} (h : carry < base) :
    (z.toNat + x.toNat * y.toNat + carry) / base < base := by
  refine Nat.div_lt_of_lt_mul ?_
  have hx : x.toNat + 1 ≤ base := x.isLt
  have hy : y.toNat + 1 ≤ base := y.isLt
  have hz : z.toNat + 1 ≤ base := z.isLt
  nlinarith [Nat.mul_le_mul hx hy]

/-- A row adds one word's multiple of the multiplicand; the word its last carry is stored in takes no part (R133). -/
theorem val_mulRow {x w : Word} {ys zs : List Word} (h : ys.length = zs.length) {carry : Nat} (hcarry : carry < base) :
    val (mulRow x ys (zs ++ [w]) carry).reverse = val zs.reverse + x.toNat * val ys.reverse + carry := by
  induction ys generalizing zs carry with
  | nil =>
    obtain rfl := List.length_eq_zero_iff.mp h.symm
    rw [List.nil_append, mulRow_nil, List.reverse_singleton, val_singleton, toNat_toWord, Nat.mod_eq_of_lt hcarry]
    simp
  | cons y ys ih =>
    cases zs with
    | nil => simp at h
    | cons z zs =>
      have hrest := ih (Nat.succ.inj h) (mulRow_carry_lt x y z hcarry)
      have hword := Nat.mod_add_div (z.toNat + x.toNat * y.toNat + carry) base
      rw [List.cons_append, mulRow]
      simp only [val_reverse_cons, toNat_toWord]
      linear_combination base * hrest + hword

theorem mulRows_cons_of_eq {x z0 : Word} {xs b z zs : List Word} (h : mulRow x b z 0 = z0 :: zs) :
    mulRows (x :: xs) b z = z0 :: mulRows xs b zs := by
  rw [mulRows, h]

/-- The rows over a running product of the multiplicand's length, zeros above it: each word's row lets the next start one word further
up on a running product of that length again (R133). -/
theorem mulRows_spec {xs b z : List Word} (h : z.length = b.length) :
    (mulRows xs b (z ++ List.replicate xs.length 0)).length = xs.length + b.length ∧
      val (mulRows xs b (z ++ List.replicate xs.length 0)).reverse = val z.reverse + val xs.reverse * val b.reverse := by
  induction xs generalizing z with
  | nil => simp [mulRows, h]
  | cons x xs ih =>
    obtain ⟨z0, zs, hrow⟩ : ∃ z0 zs, mulRow x b (z ++ [0]) 0 = z0 :: zs := by
      refine List.exists_cons_of_length_pos ?_
      simp
    have hlength : zs.length = b.length := by
      have := congrArg List.length hrow
      simp only [mulRow_length, List.length_append, List.length_cons] at this
      simpa [h] using this.symm
    have hval : z0.toNat + val zs.reverse * base = val z.reverse + x.toNat * val b.reverse := by
      rw [← val_reverse_cons, ← hrow]
      exact val_mulRow h.symm (by decide)
    have hfirst : mulRow x b (z ++ List.replicate (x :: xs).length 0) 0 = z0 :: (zs ++ List.replicate xs.length 0) := by
      rw [List.length_cons, List.replicate_succ, mulRow_append h.symm, hrow, List.cons_append]
    obtain ⟨hlen, hrest⟩ := ih hlength
    rw [mulRows_cons_of_eq hfirst]
    refine ⟨by rw [List.length_cons, hlen, List.length_cons]; omega, ?_⟩
    simp only [val_reverse_cons, hrest]
    linear_combination hval

/-- The multiplier's length and value (R133). -/
theorem multiplier_spec (a b : List Word) :
    (multiplier a b).length = a.length + b.length ∧ val (multiplier a b) = val a * val b := by
  have hzeros : List.replicate (a.length + b.length) (0 : Word) =
      List.replicate b.length 0 ++ List.replicate a.reverse.length 0 := by
    rw [← List.replicate_add, List.length_reverse, Nat.add_comm]
  obtain ⟨hlength, hval⟩ := mulRows_spec (xs := a.reverse) (b := b.reverse) (z := List.replicate b.length 0) (by simp)
  rw [← hzeros] at hlength hval
  rw [List.reverse_replicate, val_replicate_zero, Nat.zero_add, List.reverse_reverse, List.reverse_reverse] at hval
  exact ⟨by simpa [multiplier] using hlength, hval⟩

/-- A square is twice its cross-products plus its diagonal (R135). -/
theorem two_mul_crossProducts_add_diagonal (xs : List Word) : 2 * crossProducts xs + diagonal xs = val xs.reverse ^ 2 := by
  induction xs with
  | nil => rfl
  | cons x xs ih =>
    rw [crossProducts, diagonal, val_reverse_cons]
    linear_combination base ^ 2 * ih

/-- Settles O52: the squarer and the multiplier agree because both give the square in twice the length. -/
theorem multiplierSquarerValues : Obligations.MultiplierSquarerValues := by
  have hsquare (a : List Word) : 2 * crossProducts a.reverse + diagonal a.reverse = val a ^ 2 := by
    simpa using two_mul_crossProducts_add_diagonal a.reverse
  refine ⟨multiplier_spec, hsquare, fun a => ?_⟩
  obtain ⟨hlength, hval⟩ := multiplier_spec a a
  rw [squarer, hsquare, eq_words_of_val_eq hlength hval, two_mul, pow_two]

/-! ### The comparison -/

/-- Where the first words differ, they decide the comparison of two values in equally many words. -/
theorem val_cons_lt_val_cons {x y : Word} {xs ys : List Word} (h : xs.length = ys.length) (hxy : x.toNat < y.toNat) :
    val (x :: xs) < val (y :: ys) := by
  have hxs := val_lt xs
  rw [val_cons, val_cons, ← h]
  calc x.toNat * base ^ xs.length + val xs < (x.toNat + 1) * base ^ xs.length := by
        rw [Nat.succ_mul]
        exact Nat.add_lt_add_left hxs _
    _ ≤ y.toNat * base ^ xs.length := Nat.mul_le_mul_right _ hxy
    _ ≤ y.toNat * base ^ xs.length + val ys := Nat.le_add_right _ _

/-- In equal lengths the lexicographic comparison is that of the values, leading zeros or not (R121, R122). -/
theorem compareEqualLength_eq_compare {a b : List Word} (h : a.length = b.length) :
    compareEqualLength a b = compare (val a) (val b) := by
  induction a generalizing b with
  | nil =>
    obtain rfl := List.length_eq_zero_iff.mp h.symm
    rfl
  | cons x xs ih =>
    cases b with
    | nil => simp at h
    | cons y ys =>
      have hrest : xs.length = ys.length := Nat.succ.inj h
      obtain hlt | heq | hgt := lt_trichotomy x.toNat y.toNat
      · have hne : x ≠ y := fun e => hlt.ne (congrArg BitVec.toNat e)
        rw [compareEqualLength, if_neg hne, if_neg hlt.not_gt, Nat.compare_eq_lt.mpr (val_cons_lt_val_cons hrest hlt)]
      · obtain rfl := BitVec.eq_of_toNat_eq heq
        rw [compareEqualLength, if_pos rfl, ih hrest, val_cons, val_cons, hrest]
        simp [Nat.compare_eq_ite_lt]
      · have hne : x ≠ y := fun e => hgt.ne' (congrArg BitVec.toNat e)
        rw [compareEqualLength, if_neg hne, if_pos hgt, Nat.compare_eq_gt.mpr (val_cons_lt_val_cons hrest.symm hgt)]

theorem compareArrays_of_length_gt {a b : List Word} (h : b.length < a.length) : compareArrays a b = .gt := if_pos h

theorem compareArrays_of_length_lt {a b : List Word} (h : a.length < b.length) : compareArrays a b = .lt := by
  rw [compareArrays, if_neg h.not_gt, if_pos h]

theorem compareArrays_of_length_eq {a b : List Word} (h : a.length = b.length) :
    compareArrays a b = compare (val a) (val b) := by
  rw [compareArrays, if_neg h.not_gt, if_neg h.not_lt, compareEqualLength_eq_compare h]

/-- Settles O48: of two normalized arrays the longer has the greater value. -/
theorem compareIsNumeric : Obligations.CompareIsNumeric := by
  intro a b ha hb
  obtain hlt | heq | hgt := lt_trichotomy a.length b.length
  · rw [compareArrays_of_length_lt hlt, Nat.compare_eq_lt.mpr (val_lt_val_of_length_lt hb hlt)]
  · exact compareArrays_of_length_eq heq
  · rw [compareArrays_of_length_gt hgt, Nat.compare_eq_gt.mpr (val_lt_val_of_length_lt ha hgt)]

/-! ### Checks -/

/-- With every source valid, the first fault is that of the command's own checks (R213, R218). -/
theorem firstFault_sourceCheck_cons {s : State} {rs : List WReg} (h : s.AllValid rs) (rest : List (Bool × Cause)) :
    firstFault (s.sourceCheck rs :: rest) = firstFault rest := by
  rw [State.sourceCheck, firstFault_cons, State.someInvalid_eq_false.mpr h, if_neg Bool.false_ne_true]

/-- The one check of a command with valid sources decides between its fault and its completion (R218). -/
theorem State.command_of_sources_valid {s : State} {rs : List WReg} (h : s.AllValid rs) (applies : Bool) (c : Cause)
    (rd : Option WReg) (effect : State) :
    s.command rd [s.sourceCheck rs, (applies, c)] effect = if applies then s.raiseFault c rd else effect.complete := by
  rw [State.command, firstFault_sourceCheck_cons h, firstFault_cons]
  cases applies <;> rfl

/-- A command with valid sources and the capacity check of a result of `l` words (R126, R132, R134). -/
theorem State.command_overCapacity {s : State} {rs : List WReg} (h : s.AllValid rs) (l : Nat) (rd : Option WReg)
    (effect : State) : s.command rd [s.sourceCheck rs, overCapacity l] effect =
      if Config.cap < l then s.raiseFault .capacity rd else effect.complete := by
  rw [overCapacity, s.command_of_sources_valid h]
  simp only [decide_eq_true_eq]

theorem State.AllValid.left {s : State} {rs1 rs2 : WReg} (h : s.AllValid [rs1, rs2]) : s.AllValid [rs1] :=
  fun r hr => h r (List.mem_cons.mpr (.inl (List.mem_singleton.mp hr)))

/-! ### What the commands answer with valid sources -/

section
variable {s : State} {rs1 rs2 : WReg} (h : s.AllValid [rs1, rs2])
include h

/-- CMP writes the comparison's flag and completes (R121). -/
theorem exec_cmp_of_allValid :
    exec (.cmp rs1 rs2) s = .next (s.setCmp (cmpFlag (compareArrays (s.view rs1) (s.view rs2)))).complete :=
  congrArg Host.Outcome.next (s.command_of_firstFault_eq_none (firstFault_sourceCheck h) _ _)

/-- ADD faults on views of different length, else writes the sum and its carry (R123). -/
theorem exec_add_of_allValid (rd : WReg) : exec (.add rd rs1 rs2) s =
    .next (if (s.view rs1).length = (s.view rs2).length then
      ((s.writeReg rd (sumArray (s.view rs1) (s.view rs2) (s.view rs1).length)).setCarry
        (carryOut (s.view rs1) (s.view rs2) (s.view rs1).length)).complete
    else s.raiseFault .lenMismatch (some rd)) := by
  refine congrArg Host.Outcome.next ((s.command_of_sources_valid h _ _ _ _).trans ?_)
  simp only [bne_iff_ne, ne_eq, ite_not]

/-- SUB faults on views of different length, else writes the difference and its borrow (R124). -/
theorem exec_sub_of_allValid (rd : WReg) : exec (.sub rd rs1 rs2) s =
    .next (if (s.view rs1).length = (s.view rs2).length then
      ((s.writeReg rd (differenceArray (s.view rs1) (s.view rs2) (s.view rs1).length)).setCarry
        (borrowOut (s.view rs1) (s.view rs2))).complete
    else s.raiseFault .lenMismatch (some rd)) := by
  refine congrArg Host.Outcome.next ((s.command_of_sources_valid h _ _ _ _).trans ?_)
  simp only [bne_iff_ne, ne_eq, ite_not]

/-- MUL by the length of its result, which an empty operand makes zero (R132). -/
theorem exec_mul_of_allValid (rd : WReg) {l : Nat}
    (hl : l = if (s.view rs1).length = 0 ∨ (s.view rs2).length = 0 then 0 else (s.view rs1).length + (s.view rs2).length) :
    exec (.mul rd rs1 rs2) s = .next (if Config.cap < l then s.raiseFault .capacity (some rd)
      else (s.writeReg rd (words (val (s.view rs1) * val (s.view rs2)) l)).complete) := by
  subst hl
  exact congrArg Host.Outcome.next (s.command_overCapacity h _ _ _)

end

section
variable {s : State} {rs1 : WReg} (h : s.AllValid [rs1])
include h

/-- SHL faults where the length of R126 exceeds a register (R126). -/
theorem exec_shl_of_allValid (rd : WReg) (n : Nat) : exec (.shl rd rs1 n) s =
    .next (if Config.cap < shlLength (s.view rs1) n then s.raiseFault .capacity (some rd)
      else (s.writeReg rd (shlArray (s.view rs1) n)).complete) :=
  congrArg Host.Outcome.next (s.command_overCapacity h _ _ _)

/-- SHR writes the quotient in the length of R128 and completes (R128). -/
theorem exec_shr_of_allValid (rd : WReg) (n : Nat) :
    exec (.shr rd rs1 n) s = .next (s.writeReg rd (shrArray (s.view rs1) n)).complete :=
  congrArg Host.Outcome.next (s.command_of_firstFault_eq_none (firstFault_sourceCheck h) _ _)

/-- NORM moves the view's bounds and completes (R130). -/
theorem exec_norm_of_allValid : exec (.norm rs1) s = .next (s.setReg rs1 (s.reg rs1).dropLeadingZeros).complete :=
  congrArg Host.Outcome.next (s.command_of_firstFault_eq_none (firstFault_sourceCheck h) _ _)

/-- SQR faults where twice the view's length exceeds a register (R134). -/
theorem exec_sqr_of_allValid (rd : WReg) : exec (.sqr rd rs1) s =
    .next (if Config.cap < 2 * (s.view rs1).length then s.raiseFault .capacity (some rd)
      else (s.writeReg rd (words (val (s.view rs1) ^ 2) (2 * (s.view rs1).length))).complete) :=
  congrArg Host.Outcome.next (s.command_overCapacity h _ _ _)

end

/-- Settles O24: each fault is the one check that applies after the source check. -/
theorem arrayCommandFaults : Obligations.ArrayCommandFaults := by
  intro rd rs1 rs2 s hvalid
  have hfault (c : Cause) : PlainFault s (s.raiseFault c (some rd)) c (some rd) := s.raiseFault_plain c (some rd)
  exact ⟨fun hlength =>
      ⟨⟨_, (exec_add_of_allValid hvalid rd).trans (congrArg _ (if_neg hlength)), hfault _⟩,
        ⟨_, (exec_sub_of_allValid hvalid rd).trans (congrArg _ (if_neg hlength)), hfault _⟩⟩,
    fun n hlong => ⟨_, (exec_shl_of_allValid hvalid.left rd n).trans (congrArg _ (if_pos hlong)), hfault _⟩,
    fun ha hb hlong =>
      ⟨_, (exec_mul_of_allValid hvalid rd (if_neg (by omega)).symm).trans (congrArg _ (if_pos hlong)), hfault _⟩,
    fun hlong => ⟨_, (exec_sqr_of_allValid hvalid.left rd).trans (congrArg _ (if_pos hlong)), hfault _⟩⟩

/-! ### CMP -/

/-- In equal lengths the first word that differs decides the comparison (R121). -/
theorem compareArrays_append_cons {p u v : List Word} {x y : Word} (h : u.length = v.length) (hxy : x ≠ y) :
    compareArrays (p ++ x :: u) (p ++ y :: v) = if y.toNat < x.toNat then .gt else .lt := by
  rw [compareArrays_of_length_eq (by simp [h]), val_append, val_append, List.length_cons, List.length_cons, h]
  have hne : x.toNat ≠ y.toNat := fun e => hxy (BitVec.eq_of_toNat_eq e)
  split
  next hgt => exact Nat.compare_eq_gt.mpr (Nat.add_lt_add_left (val_cons_lt_val_cons h.symm hgt) _)
  next hle => exact Nat.compare_eq_lt.mpr (Nat.add_lt_add_left (val_cons_lt_val_cons h (by omega)) _)

theorem compareArrays_self (a : List Word) : compareArrays a a = .eq := by
  rw [compareArrays_of_length_eq rfl, Nat.compare_eq_eq]

/-- Settles O35: the first difference, in length or in a word, decides the flag. -/
theorem cmpResult : Obligations.CmpResult := by
  intro rs1 rs2 s hvalid a b
  have hflag {o : Ordering} (ho : compareArrays a b = o) :
      (s.setCmp (cmpFlag (compareArrays a b))).complete.flags.cmp = cmpFlag o := by rw [← ho]; rfl
  refine ⟨_, exec_cmp_of_allValid hvalid, State.complete_endedWell _, fun hgt => hflag (compareArrays_of_length_gt hgt),
    fun hlt => hflag (compareArrays_of_length_lt hlt), fun heq => hflag (o := .eq) (by rw [heq, compareArrays_self]),
    fun p u v x y ha hb hlength => ?_, rfl, fun _ _ => rfl, rfl, fun _ => rfl, ⟨rfl, rfl, rfl, rfl⟩⟩
  have hdiffer (hxy : x ≠ y) : compareArrays a b = if y.toNat < x.toNat then .gt else .lt := by
    rw [ha, hb, compareArrays_append_cons hlength hxy]
  refine ⟨fun hgt => hflag ((hdiffer ?_).trans (if_pos hgt)), fun hlt => hflag ((hdiffer ?_).trans (if_neg hlt.not_gt))⟩
  · rintro rfl
    exact hgt.false
  · rintro rfl
    exact hlt.false

/-! ### ADD and SUB -/

theorem two_pow_eq_base_pow (l : Nat) : 2 ^ (32 * l) = base ^ l := pow_mul 2 32 l

/-- A command that writes an array of at most `CAP` words and the carry (R123, R124). -/
theorem State.complete_setCarry_wroteOnly (s : State) (rd : WReg) {a : List Word} (h : a.length ≤ Config.cap) (c : Bool) :
    WroteOnly s ((s.writeReg rd a).setCarry c).complete rd a :=
  ⟨State.complete_endedWell _, s.writeReg_holds rd h, s.writeReg_sameRegsBut rd a, rfl, fun _ => rfl, ⟨rfl, rfl, rfl, rfl⟩⟩

/-- The carry out is the sum's quotient: two values of `l` words sum below `2 × 2^(32 l)` (R123). -/
theorem carryOut_eq {a b : List Word} (h : a.length = b.length) :
    (if carryOut a b a.length then 1 else 0) = (val a + val b) / base ^ a.length := by
  have hquotient : (val a + val b) / base ^ a.length < 2 := by
    refine Nat.div_lt_of_lt_mul ?_
    have ha := val_lt a
    have hb : val b < base ^ a.length := h ▸ val_lt b
    omega
  simp only [carryOut, decide_eq_true_eq]
  generalize (val a + val b) / base ^ a.length = quotient at hquotient ⊢
  split <;> omega

/-- Settles O36: the sum has as many words as a view, so it fits. -/
theorem addResult : Obligations.AddResult := by
  intro rd rs1 rs2 s hvalid hlength l sum
  have hfits : (sumArray (s.view rs1) (s.view rs2) l).length ≤ Config.cap := (words_length _ _).trans_le (s.view_length_le rs1)
  rw [two_pow_eq_base_pow]
  exact ⟨_, (exec_add_of_allValid hvalid rd).trans (congrArg _ (if_pos hlength)), s.complete_setCarry_wroteOnly rd hfits _,
    carryOut_eq hlength, rfl⟩

theorem differenceArray_of_le {a b : List Word} (h : val b ≤ val a) (l : Nat) :
    differenceArray a b l = words (val a - val b) l := if_pos h

theorem differenceArray_of_lt {a b : List Word} (h : val a < val b) (l : Nat) :
    differenceArray a b l = words (val a + base ^ l - val b) l := if_neg h.not_ge

/-- Settles O37, by whether the difference borrows. -/
theorem subResult : Obligations.SubResult := by
  intro rd rs1 rs2 s hvalid hlength l a b
  have hfits : (differenceArray (s.view rs1) (s.view rs2) l).length ≤ Config.cap :=
    (differenceArray_length _ _ _).trans_le (s.view_length_le rs1)
  have hwrote := s.complete_setCarry_wroteOnly rd hfits (borrowOut (s.view rs1) (s.view rs2))
  refine ⟨_, (exec_sub_of_allValid hvalid rd).trans (congrArg _ (if_pos hlength)), fun hle => ⟨?_, decide_eq_false hle.not_gt⟩,
    fun hlt => ⟨?_, decide_eq_true hlt⟩, rfl⟩
  · rw [← differenceArray_of_le hle l]
    exact hwrote
  · rw [two_pow_eq_base_pow, ← differenceArray_of_lt hlt l]
    exact hwrote

/-! ### SHL and SHR -/

theorem topWord_eq_headD (a : List Word) : topWord a = a.headD 0 := by
  cases a <;> rfl

/-- Settles O38: nothing is lost since the shifter reaches the length of R126. -/
theorem shlResult : Obligations.ShlResult := by
  intro rd rs1 n s hvalid a extra l hl
  have hlength : shlLength a n = l := by simp only [shlLength, List.length_eq_zero_iff, topWord_eq_headD, l, extra]
  rw [← hlength] at hl ⊢
  have hfits : (shlArray a n).length ≤ Config.cap := (words_length _ _).trans_le hl
  exact ⟨(val_mul_two_pow_lt a n).trans_eq (two_pow_eq_base_pow _).symm, _,
    (exec_shl_of_allValid hvalid rd n).trans (congrArg _ (if_neg hl.not_gt)), s.complete_writeReg_wroteOnly rd hfits, rfl⟩

/-- Settles O39: a right shift is no longer than the view, so it fits. -/
theorem shrResult : Obligations.ShrResult := by
  intro rd rs1 n s hvalid a drop l
  have hlength : shrLength a n = l := by simp only [shrLength, topWord_eq_headD, l, drop]
  rw [← hlength]
  have hfits : (shrArray a n).length ≤ Config.cap := (shrArray_length_le a n).trans (s.view_length_le rs1)
  exact ⟨(val_div_two_pow_lt a n).trans_eq (two_pow_eq_base_pow _).symm, _, exec_shr_of_allValid hvalid rd n,
    s.complete_writeReg_wroteOnly rd hfits, rfl⟩

/-! ### NORM -/

/-- `norm` drops as many words from the front as its length falls short. -/
theorem norm_eq_drop (a : List Word) : norm a = a.drop (a.length - siglen a) :=
  List.suffix_iff_eq_drop.mp (List.dropWhile_suffix _)

theorem siglen_eq_zero_iff {a : List Word} : siglen a = 0 ↔ norm a = [] := List.length_eq_zero_iff

/-- Moving `OFF` and `LEN` by `k` words inside the register drops the view's first `k` words. -/
theorem WideReg.view_drop (r : WideReg) (k : Nat) :
    r.view.drop k = (r.data.toList.drop (r.off.toNat + k)).take (r.len.toNat - k) := by
  rw [WideReg.view, List.drop_take, List.drop_drop]

theorem WideReg.dropLeadingZeros_data (r : WideReg) : r.dropLeadingZeros.data = r.data := by
  unfold WideReg.dropLeadingZeros
  dsimp only
  split <;> rfl

theorem WideReg.dropLeadingZeros_valid (r : WideReg) : r.dropLeadingZeros.valid = r.valid := by
  unfold WideReg.dropLeadingZeros
  dsimp only
  split <;> rfl

/-- What NORM leaves of a register whose view lies inside it (R130). -/
theorem WideReg.dropLeadingZeros_spec {r : WideReg} (h : r.Inside) :
    r.dropLeadingZeros.view = norm r.view ∧
      r.dropLeadingZeros.len.toNat = r.len.toNat - (r.view.length - siglen r.view) ∧
      r.dropLeadingZeros.off.toNat = if norm r.view = [] then 0 else r.off.toNat + (r.view.length - siglen r.view) := by
  have hlength := WideReg.view_length h
  have hsig : siglen r.view ≤ r.view.length := norm_length_le _
  have hcap : r.off.toNat + r.len.toNat ≤ 136 := h
  have hkept : r.len.toNat - (r.view.length - siglen r.view) = siglen r.view := by omega
  by_cases hempty : norm r.view = []
  · have hzero := siglen_eq_zero_iff.mpr hempty
    have heq : r.dropLeadingZeros = { r with off := 0, len := 0 } := if_pos (hkept.trans hzero)
    rw [heq, hkept, hzero, if_pos hempty, hempty]
    exact ⟨rfl, rfl, rfl⟩
  · have hpos : siglen r.view ≠ 0 := fun e => hempty (siglen_eq_zero_iff.mp e)
    have heq : r.dropLeadingZeros = { r with
        off := BitVec.ofNat 8 (r.off.toNat + (r.view.length - siglen r.view)),
        len := BitVec.ofNat 8 (r.len.toNat - (r.view.length - siglen r.view)) } := if_neg (hkept.trans_ne hpos)
    have hoff : r.dropLeadingZeros.off.toNat = r.off.toNat + (r.view.length - siglen r.view) := by
      rw [heq]
      exact Nat.mod_eq_of_lt (by omega)
    have hlen : r.dropLeadingZeros.len.toNat = r.len.toNat - (r.view.length - siglen r.view) := by
      rw [heq]
      exact Nat.mod_eq_of_lt (by omega)
    refine ⟨?_, hlen, by rw [if_neg hempty, hoff]⟩
    rw [norm_eq_drop, WideReg.view_drop, WideReg.view, hoff, hlen, WideReg.dropLeadingZeros_data]

/-- Settles O40: NORM moves the view's bounds only. -/
theorem normResult : Obligations.NormResult := by
  intro rd s hvalid hinside k
  obtain ⟨hview, hlen, hoff⟩ := WideReg.dropLeadingZeros_spec hinside
  have hreg : (s.setReg rd (s.reg rd).dropLeadingZeros).complete.reg rd = (s.reg rd).dropLeadingZeros := by
    rw [State.reg_complete, State.reg_setReg_self]
  refine ⟨_, exec_norm_of_allValid hvalid, State.complete_endedWell _, ?_, ?_, ?_, ?_, ?_, s.setReg_sameRegsBut rd _,
    rfl, rfl, fun _ => rfl, ⟨rfl, rfl, rfl, rfl⟩⟩
  · rw [State.view, hreg, hview, State.view]
  · rw [hreg, WideReg.dropLeadingZeros_data]
  · rw [hreg, WideReg.dropLeadingZeros_valid, hvalid rd (List.mem_singleton_self rd)]
  · rw [hreg, hlen]
    rfl
  · rw [hreg, hoff]
    rfl

/-! ### MUL and SQR -/

theorem val_mul_lt (a b : List Word) : val a * val b < base ^ (a.length + b.length) := by
  rw [pow_add]
  exact Nat.mul_lt_mul'' (val_lt a) (val_lt b)

theorem val_sq_lt (a : List Word) : val a ^ 2 < base ^ (2 * a.length) := by
  rw [pow_two, two_mul]
  exact val_mul_lt a a

/-- Settles O41: a product is below the product of the operands' bounds, so its words hold it. -/
theorem mulSqrResult : Obligations.MulSqrResult := by
  intro rd rs1 rs2 s hvalid a b
  refine ⟨fun hempty => ?_, fun ha hb hfits => ?_, fun hfits => ?_⟩
  · have hlength : 0 = if a.length = 0 ∨ b.length = 0 then 0 else a.length + b.length :=
      (if_pos (hempty.imp List.length_eq_zero_iff.mpr List.length_eq_zero_iff.mpr)).symm
    exact ⟨_, exec_mul_of_allValid hvalid rd hlength, s.complete_writeReg_wroteOnly rd (Nat.zero_le _), rfl⟩
  · have hlength : a.length + b.length = if a.length = 0 ∨ b.length = 0 then 0 else a.length + b.length :=
      (if_neg (not_or.mpr ⟨mt List.length_eq_zero_iff.mp ha, mt List.length_eq_zero_iff.mp hb⟩)).symm
    exact ⟨_, words (val a * val b) (a.length + b.length),
      (exec_mul_of_allValid hvalid rd hlength).trans (congrArg _ (if_neg hfits.not_gt)),
      s.complete_writeReg_wroteOnly rd ((words_length _ _).trans_le hfits), words_length _ _,
      val_words_of_lt (val_mul_lt a b), rfl⟩
  · exact ⟨_, words (val a ^ 2) (2 * a.length), (exec_sqr_of_allValid hvalid.left rd).trans (congrArg _ (if_neg hfits.not_gt)),
      s.complete_writeReg_wroteOnly rd ((words_length _ _).trans_le hfits), words_length _ _,
      val_words_of_lt (val_sq_lt a), rfl⟩

end Sys2Proof.Machine

/-! SUPPORT. The divide family's statements (spec/42_divide.md). First REM: the remainder array, what REM answers with valid sources, its
faults and its result (R150). Then the divider: each step of the policy gives that same array, since a normalized array is determined by its
value (R151 to R159). -/

namespace Sys2Proof.Machine

open Sys2Proof

/-! ### The remainder array -/

/-- A normalized non-empty array has a nonzero value. -/
theorem val_pos_of_isNormalized {b : List Word} (h : isNormalized b = true) (hne : b ≠ []) : 0 < val b :=
  val_lt_val_of_length_lt (a := []) h (List.length_pos_iff.mpr hne)

theorem isNormalized_remArray (a b : List Word) : isNormalized (remArray a b) = true := isNormalized_norm _

/-- The remainder fits the divisor's length. -/
theorem val_remArray (a : List Word) {b : List Word} (h : 0 < val b) : val (remArray a b) = val a % val b := by
  rw [remArray, val_norm, val_words_of_lt ((Nat.mod_lt _ h).trans (val_lt b))]

/-! ### REM -/

/-- REM tests the divisor's length before the operands' form (R150, R151). -/
theorem exec_rem_of_allValid {s : State} {rs1 rs2 : WReg} (h : s.AllValid [rs1, rs2]) (rd : WReg) :
    exec (.rem rd rs1 rs2) s = .next (if s.view rs2 = [] then s.raiseFault .divisorEmpty (some rd)
      else if isNormalized (s.view rs1) = true ∧ isNormalized (s.view rs2) = true then
        (s.writeReg rd (remArray (s.view rs1) (s.view rs2))).complete
      else s.raiseFault .notNormalized (some rd)) := by
  refine congrArg Host.Outcome.next ?_
  simp only [State.command, firstFault_sourceCheck_cons h, firstFault_cons, firstFault_nil, List.length_eq_zero_iff]
  by_cases hempty : s.view rs2 = []
  · simp [hempty]
  · by_cases hform : isNormalized (s.view rs1) = true ∧ isNormalized (s.view rs2) = true
    · simp [hempty, hform]
    · have hfault : (!isNormalized (s.view rs1) || !isNormalized (s.view rs2)) = true := by simpa [imp_iff_not_or] using hform
      simp [hempty, hform, hfault]

/-- Settles O25: the test of the divisor's length stands before that of the operands' form. -/
theorem remFaults : Obligations.RemFaults := by
  intro rd rs1 rs2 s hvalid
  refine ⟨fun hempty => ⟨_, (exec_rem_of_allValid hvalid rd).trans (congrArg _ (if_pos hempty)), s.raiseFault_plain _ _⟩,
    fun hne hform => ⟨_, (exec_rem_of_allValid hvalid rd).trans (congrArg _ ?_), s.raiseFault_plain .notNormalized (some rd)⟩⟩
  have hnot : ¬ (isNormalized (s.view rs1) = true ∧ isNormalized (s.view rs2) = true) := by
    obtain ha | hb := hform
    · simp [ha]
    · simp [hb]
  rw [if_neg hne, if_neg hnot]

/-- Settles O42: the remainder fits the divisor's length, and so a register. -/
theorem remResult : Obligations.RemResult := by
  intro rd rs1 rs2 s hvalid hne ha hb
  have hexec := exec_rem_of_allValid hvalid rd
  rw [if_neg hne, if_pos ⟨ha, hb⟩] at hexec
  exact ⟨_, remArray (s.view rs1) (s.view rs2), hexec,
    s.complete_writeReg_wroteOnly rd ((remArray_length_le _ _).trans (s.view_length_le rs2)),
    val_remArray _ (val_pos_of_isNormalized hb hne), isNormalized_remArray _ _, rfl⟩

/-! ### Single-word divisor -/

/-- The running remainder of the long division by one word (R153). -/
theorem shortRemainder_eq {d rem : Nat} (h : rem < d) (a : List Word) :
    shortRemainder d rem a = (rem * base ^ a.length + val a) % d := by
  induction a generalizing rem with
  | nil => simp [shortRemainder, Nat.mod_eq_of_lt h]
  | cons x xs ih =>
    have hplace : rem * base ^ (x :: xs).length + val (x :: xs) = (rem * base + x.toNat) * base ^ xs.length + val xs := by
      rw [val_cons, List.length_cons, pow_succ]
      ring
    rw [shortRemainder, ih (Nat.mod_lt _ (Nat.zero_lt_of_lt h)), hplace]
    exact ((Nat.mod_modEq _ d).mul_right _).add_right _

/-- Step 3 gives the remainder in at most one word, normalized (R153). -/
theorem remBySingle_spec (a : List Word) {d : Word} (h : 0 < d.toNat) :
    val (remBySingle a d) = val a % d.toNat ∧ isNormalized (remBySingle a d) = true := by
  have hrem : shortRemainder d.toNat 0 a = val a % d.toNat := by rw [shortRemainder_eq h, Nat.zero_mul, Nat.zero_add]
  have hword : (toWord (val a % d.toNat)).toNat = val a % d.toNat :=
    (toNat_toWord _).trans (Nat.mod_eq_of_lt ((Nat.mod_lt _ h).trans d.isLt))
  unfold remBySingle
  dsimp only
  rw [hrem]
  split
  next hzero => exact ⟨hzero.symm, rfl⟩
  next hne =>
    refine ⟨(val_singleton _).trans hword, bne_iff_ne.mpr fun e => hne ?_⟩
    rw [← hword, e]
    rfl

/-! ### The digit estimate -/

/-- The downward corrections find the largest digit, from `qhat` down, whose product with the divisor's top two words is not above the
window's top three words: `qhat × vh + rhat` stays the window's top two words, and the fuel lasts until `rhat` exceeds a word (R156). -/
theorem correctDigit_eq {vh vl : Nat} (hvh : 0 < vh) (hvl : vl < base) (nl : Nat) {fuel qhat rhat : Nat} (hq : qhat < base)
    (hfuel : base ≤ rhat + fuel * vh) :
    correctDigit vh vl nl fuel qhat rhat = min qhat (((qhat * vh + rhat) * base + nl) / (vh * base + vl)) := by
  have hpos : 0 < vh * base + vl := Nat.add_pos_left (Nat.mul_pos hvh (by decide)) _
  have hsplit (q r : Nat) : (q * vh + r) * base + nl = q * vh * base + (r * base + nl) := by ring
  have hdigit (q : Nat) : q * (vh * base + vl) = q * vh * base + q * vl := by ring
  have hexact (q r : Nat) (h : q * vl ≤ r * base + nl) : q = min q (((q * vh + r) * base + nl) / (vh * base + vl)) := by
    refine (Nat.min_eq_left ((Nat.le_div_iff_mul_le hpos).mpr ?_)).symm
    rw [hsplit, hdigit]
    exact Nat.add_le_add_left h _
  have hwide (q r : Nat) (hq : q < base) (hr : base ≤ r) : q * vl ≤ r * base + nl :=
    (Nat.mul_le_mul (hq.le.trans hr) hvl.le).trans (Nat.le_add_right _ _)
  induction fuel generalizing qhat rhat with
  | zero => exact hexact _ _ (hwide _ _ hq (by simpa using hfuel))
  | succ fuel ih =>
    rw [correctDigit]
    split
    next htest =>
      obtain ⟨-, hlarge⟩ := htest
      obtain ⟨q, rfl⟩ : ∃ q, qhat = q + 1 := Nat.exists_eq_succ_of_ne_zero (by rintro rfl; simp at hlarge)
      have hsame : q * vh + (rhat + vh) = (q + 1) * vh + rhat := by ring
      have hbelow : (((q + 1) * vh + rhat) * base + nl) / (vh * base + vl) < q + 1 := by
        refine (Nat.div_lt_iff_lt_mul hpos).mpr ?_
        rw [hsplit, hdigit]
        exact Nat.add_lt_add_left hlarge _
      rw [Nat.add_sub_cancel, ih (Nat.lt_of_succ_lt hq) (by linarith), hsame, Nat.min_eq_right hbelow.le,
        Nat.min_eq_right (Nat.le_of_lt_succ hbelow)]
    next htest =>
      refine hexact _ _ ?_
      by_cases hr : rhat < base
      · exact Nat.le_of_not_lt fun hlarge => htest ⟨hr, hlarge⟩
      · exact hwide _ _ hq (Nat.le_of_not_lt hr)

/-- The quotient of leading parts is at least the whole quotient. -/
theorem div_le_div_of_leading {a d p x : Nat} (hd : 0 < d) (hx : x < p) (y : Nat) : (a * p + x) / (d * p + y) ≤ a / d := by
  have hp : 0 < p := Nat.zero_lt_of_lt hx
  calc (a * p + x) / (d * p + y) ≤ (a * p + x) / (p * d) :=
        Nat.div_le_div_left (by rw [Nat.mul_comm]; exact Nat.le_add_right _ _) (Nat.mul_pos hp hd)
    _ = a / d := by
        rw [← Nat.div_div_eq_div_mul, Nat.mul_comm, Nat.mul_add_div hp, Nat.div_eq_of_lt hx, Nat.add_zero]

/-- The digit estimate is the quotient of the window's top three words by the divisor's top two, cut to a word, where the divisor's top
bit is set and the window's top word is at most the divisor's (R156). -/
theorem estimateDigit_eq {vh vl nh nm nl : Word} (htop : base ≤ 2 * vh.toNat) (hnh : nh.toNat ≤ vh.toNat) :
    estimateDigit vh.toNat vl.toNat nh.toNat nm.toNat nl.toNat =
      min (base - 1) (((nh.toNat * base + nm.toNat) * base + nl.toNat) / (vh.toNat * base + vl.toNat)) := by
  have hpos : 0 < vh.toNat := by
    rw [show base = 4294967296 from rfl] at htop
    omega
  unfold estimateDigit
  dsimp only
  split
  next heq =>
    have htwo : (base - 1) * vh.toNat + (nh.toNat + nm.toNat) = nh.toNat * base + nm.toNat := by
      rw [heq, show base = 4294967296 from rfl]
      omega
    have hfuel : base ≤ nh.toNat + nm.toNat + 2 * vh.toNat := htop.trans (Nat.le_add_left _ _)
    rw [correctDigit_eq hpos vl.isLt nl.toNat (by decide) hfuel, htwo]
  next hne =>
    have hdigit : (nh.toNat * base + nm.toNat) / vh.toNat < base := by
      refine (Nat.div_lt_iff_lt_mul hpos).mpr ?_
      rw [show base = 4294967296 from rfl]
      omega
    have hle := div_le_div_of_leading (a := nh.toNat * base + nm.toNat) hpos nl.isLt vl.toNat
    rw [Nat.min_eq_right (hle.trans (Nat.le_sub_one_of_lt hdigit))]
    split
    next hzero => exact (Nat.le_zero.mp (hzero ▸ hle)).symm
    next =>
      rw [correctDigit_eq hpos vl.isLt nl.toNat hdigit (by omega), Nat.div_add_mod', Nat.min_eq_right hle]

/-- The quotient of leading parts, cut to a word, is the quotient digit or one more: `p` is the place of the leading parts, `x` and `y` the
words below them (R156). -/
theorem digit_bounds {u d p x y : Nat} (hd : base ≤ d) (hx : x < p) (hy : y < p) (hwindow : u * p + x < (d * p + y) * base) :
    (u * p + x) / (d * p + y) ≤ min (base - 1) (u / d) ∧ min (base - 1) (u / d) ≤ (u * p + x) / (d * p + y) + 1 := by
  have hdpos : 0 < d := (show 0 < base by decide).trans_le hd
  have hpos : 0 < d * p + y := Nat.add_pos_left (Nat.mul_pos hdpos (Nat.zero_lt_of_lt hx)) y
  have hword : (u * p + x) / (d * p + y) < base := (Nat.div_lt_iff_lt_mul hpos).mpr (hwindow.trans_eq (Nat.mul_comm _ _))
  refine ⟨le_min (Nat.le_sub_one_of_lt hword) (div_le_div_of_leading hdpos hx y), ?_⟩
  generalize hq : min (base - 1) (u / d) = q
  cases q with
  | zero => exact Nat.zero_le _
  | succ q =>
    have hqd : (q + 1) * d ≤ u := (Nat.le_div_iff_mul_le hdpos).mp (hq.ge.trans (Nat.min_le_right _ _))
    have hqle : q ≤ d := by
      have := hq.ge.trans (Nat.min_le_left _ _)
      omega
    refine Nat.succ_le_succ ((Nat.le_div_iff_mul_le hpos).mpr ?_)
    calc q * (d * p + y) = q * d * p + q * y := by ring
      _ ≤ q * d * p + d * p := Nat.add_le_add_left (Nat.mul_le_mul hqle hy.le) _
      _ = (q + 1) * d * p := by ring
      _ ≤ u * p + x := (Nat.mul_le_mul_right p hqd).trans (Nat.le_add_right _ _)

/-! ### One round -/

theorem mulSubLoop_length {vs rs : List Word} (h : vs.length = rs.length) (qhat borrow : Nat) :
    (mulSubLoop qhat vs rs borrow).1.length = rs.length := by
  induction vs generalizing rs borrow with
  | nil =>
    obtain rfl := List.length_eq_zero_iff.mp h.symm
    rfl
  | cons v vs ih =>
    cases rs with
    | nil => simp at h
    | cons r rs => rw [mulSubLoop, List.length_cons, List.length_cons, ih (Nat.succ.inj h)]

/-- One word of the multiply-and-subtract: what it wraps around by is added to the product's high part (R157). -/
theorem toNat_mulSubWord (r : Word) (p : Nat) :
    (toWord (((r.toNat : Int) - (p % base : Nat)) % base).toNat).toNat + p =
      r.toNat + (p / base + if (r.toNat : Int) - (p % base : Nat) < 0 then 1 else 0) * base := by
  have hr := r.isLt
  rw [toNat_toWord, show base = 4294967296 from rfl]
  split <;> omega

/-- Multiply-and-subtract loses nothing: its words are the window less the multiple of the divisor, wrapped by the borrow (R157). -/
theorem val_mulSubLoop {vs rs : List Word} (h : vs.length = rs.length) (qhat borrow : Nat) :
    val (mulSubLoop qhat vs rs borrow).1.reverse + qhat * val vs.reverse + borrow =
      val rs.reverse + (mulSubLoop qhat vs rs borrow).2 * base ^ rs.length := by
  induction vs generalizing rs borrow with
  | nil =>
    obtain rfl := List.length_eq_zero_iff.mp h.symm
    simp [mulSubLoop]
  | cons v vs ih =>
    cases rs with
    | nil => simp at h
    | cons r rs =>
      have hword := toNat_mulSubWord r (qhat * v.toNat + borrow)
      have hrest := ih (Nat.succ.inj h) ((qhat * v.toNat + borrow) / base +
        if (r.toNat : Int) - ((qhat * v.toNat + borrow) % base : Nat) < 0 then 1 else 0)
      rw [mulSubLoop]
      simp only [val_reverse_cons, List.length_cons, pow_succ]
      linear_combination base * hrest + hword

theorem exists_cons_cons_of_length {a : List Word} (h : 2 ≤ a.length) : ∃ x y rest, a = x :: y :: rest := by
  obtain ⟨x, rest, rfl⟩ := List.exists_cons_of_length_pos (l := a) (by omega)
  obtain ⟨y, rest, rfl⟩ := List.exists_cons_of_length_pos (l := rest) (Nat.le_of_succ_le_succ h)
  exact ⟨x, y, rest, rfl⟩

/-- An array is below its top word's successor at that word's place. -/
theorem val_cons_lt (x : Word) (xs : List Word) : val (x :: xs) < (x.toNat + 1) * base ^ xs.length := by
  rw [val_cons, Nat.succ_mul]
  exact Nat.add_lt_add_left (val_lt xs) _

/-- An array that fills its length to the top bit has a top word that does. -/
theorem base_le_two_mul_of_top_bit {x : Word} {xs : List Word} (h : base ^ (x :: xs).length ≤ 2 * val (x :: xs)) :
    base ≤ 2 * x.toNat := by
  have hlt : base < 2 * (x.toNat + 1) := by
    refine Nat.lt_of_mul_lt_mul_right (a := base ^ xs.length) ?_
    calc base * base ^ xs.length = base ^ (x :: xs).length := (pow_succ' _ _).symm
      _ ≤ 2 * val (x :: xs) := h
      _ < 2 * ((x.toNat + 1) * base ^ xs.length) := Nat.mul_lt_mul_of_pos_left (val_cons_lt x xs) (by decide)
      _ = 2 * (x.toNat + 1) * base ^ xs.length := by ring
  rw [show base = 4294967296 from rfl] at hlt ⊢
  omega

/-- A window below the divisor one word further up has a top word of at most the divisor's (R156). -/
theorem toNat_le_of_window {x y : Word} {xs w : List Word} (h : w.length = (x :: xs).length)
    (hwindow : val (y :: w) < val (x :: xs) * base) : y.toNat ≤ x.toNat := by
  refine Nat.le_of_lt_succ (Nat.lt_of_mul_lt_mul_right (a := base ^ w.length) ?_)
  calc y.toNat * base ^ w.length ≤ val (y :: w) := by
        rw [val_cons]
        exact Nat.le_add_right _ _
    _ < val (x :: xs) * base := hwindow
    _ ≤ (x.toNat + 1) * base ^ xs.length * base := Nat.mul_le_mul_right _ (val_cons_lt x xs).le
    _ = (x.toNat + 1) * base ^ w.length := by rw [h, mul_assoc, ← pow_succ, List.length_cons]

/-- The digit estimate of a divisor and a window's top word `nh` and words below it, as a round takes it (R156). -/
def windowDigit (v : List Word) (nh : Word) (w : List Word) : Nat :=
  estimateDigit (topWord v).toNat ((v.drop 1).headD 0).toNat nh.toNat (w.headD 0).toNat ((w.drop 1).headD 0).toNat

/-- The window's words below its top word, after the multiply-and-subtract and the add-back (R157). -/
def subtractDigit (qhat : Nat) (v : List Word) (nh : Word) (w : List Word) : List Word :=
  let m := mulSubLoop qhat v.reverse w.reverse 0
  if nh.toNat < m.2 then (adder m.1.reverse v).1 else m.1.reverse

/-- A round by its window of `nh` and the words `w`, and the words below it (R156, R157). -/
theorem divideRound_window {v w : List Word} (h : w.length = v.length) (hlong : 2 ≤ v.length) (nh : Word) (below : List Word) :
    divideRound v (nh :: (w ++ below)) =
      if windowDigit v nh w = 0 then w ++ below else subtractDigit (windowDigit v nh w) v nh w ++ below := by
  obtain ⟨nm, nl, ws, rfl⟩ := exists_cons_cons_of_length (h ▸ hlong)
  rw [divideRound, ← h, List.take_left, List.drop_left]
  rfl

/-- The estimate is the quotient digit or one more, where the divisor's top bit is set (R156). -/
theorem windowDigit_bounds {v w : List Word} (h : w.length = v.length) (hlong : 2 ≤ v.length)
    (htop : base ^ v.length ≤ 2 * val v) {nh : Word} (hwindow : val (nh :: w) < val v * base) :
    val (nh :: w) / val v ≤ windowDigit v nh w ∧ windowDigit v nh w ≤ val (nh :: w) / val v + 1 := by
  obtain ⟨vh, vl, vs, rfl⟩ := exists_cons_cons_of_length hlong
  obtain ⟨nm, nl, ws, rfl⟩ := exists_cons_cons_of_length (h ▸ hlong)
  have hbelow : ws.length = vs.length := Nat.succ.inj (Nat.succ.inj h)
  have hvalv : val (vh :: vl :: vs) = (vh.toNat * base + vl.toNat) * base ^ vs.length + val vs := by
    rw [val_cons, val_cons, List.length_cons, pow_succ]
    ring
  have hvalw : val (nh :: nm :: nl :: ws) =
      ((nh.toNat * base + nm.toNat) * base + nl.toNat) * base ^ vs.length + val ws := by
    rw [val_cons, val_cons, val_cons, List.length_cons, List.length_cons, hbelow, pow_succ, pow_succ]
    ring
  have hvh := base_le_two_mul_of_top_bit htop
  have hnh := toNat_le_of_window h hwindow
  have hdigit : windowDigit (vh :: vl :: vs) nh (nm :: nl :: ws) = _ := estimateDigit_eq (vl := vl) (nm := nm) (nl := nl) hvh hnh
  have htwo : base ≤ vh.toNat * base + vl.toNat := by
    rw [show base = 4294967296 from rfl] at hvh ⊢
    omega
  rw [hvalv, hvalw] at hwindow
  rw [hdigit, hvalv, hvalw]
  exact digit_bounds htwo (hbelow ▸ val_lt ws) (val_lt vs) hwindow

/-- Two numbers that differ by a multiple of the length's bound have the same words. -/
theorem words_eq_of_add_mul_eq {x y i j l : Nat} (h : x + i * base ^ l = y + j * base ^ l) : words x l = words y l := by
  rw [← words_mod x, ← words_mod y, ← Nat.add_mul_mod_self_right x i, h, Nat.add_mul_mod_self_right]

/-- Subtracting the quotient digit or one more leaves the remainder: the borrow exceeds the window's top word exactly in the second case,
and the add-back's carry cancels it (R157). -/
theorem subtractDigit_eq {qhat : Nat} {v w : List Word} (h : w.length = v.length) (hv : 0 < val v) {nh : Word}
    (hlow : val (nh :: w) / val v ≤ qhat) (hhigh : qhat ≤ val (nh :: w) / val v + 1) :
    subtractDigit qhat v nh w = words (val (nh :: w) % val v) v.length := by
  have hreverse : v.reverse.length = w.reverse.length := by simp [h]
  have hlength : (mulSubLoop qhat v.reverse w.reverse 0).1.reverse.length = v.length := by
    rw [List.length_reverse, mulSubLoop_length hreverse, List.length_reverse, h]
  have hloop := val_mulSubLoop hreverse qhat 0
  have hdiv := Nat.div_add_mod (val (nh :: w)) (val v)
  have hrem := Nat.mod_lt (val (nh :: w)) hv
  have hmlt := val_lt (mulSubLoop qhat v.reverse w.reverse 0).1.reverse
  rw [hlength] at hmlt
  rw [List.reverse_reverse, List.reverse_reverse, List.length_reverse, h] at hloop
  rw [subtractDigit]
  generalize mulSubLoop qhat v.reverse w.reverse 0 = m at *
  generalize val (nh :: w) % val v = r at *
  generalize val (nh :: w) / val v = q at *
  rw [val_cons, h] at hdiv
  obtain rfl | rfl : qhat = q ∨ qhat = q + 1 := by omega
  · have hexact : val m.1.reverse + nh.toNat * base ^ v.length = r + m.2 * base ^ v.length := by linarith
    have hborrow : ¬ nh.toNat < m.2 := fun hlt => by
      have := Nat.mul_le_mul_right (base ^ v.length) (Nat.succ_le_of_lt hlt)
      rw [Nat.succ_mul] at this
      omega
    rw [if_neg hborrow, ← words_eq_of_add_mul_eq hexact, ← hlength, words_val]
  · have hover : val m.1.reverse + val v + nh.toNat * base ^ v.length = r + m.2 * base ^ v.length := by linarith
    have hborrow : nh.toNat < m.2 := by
      by_contra hle
      have := Nat.mul_le_mul_right (base ^ v.length) (Nat.le_of_not_lt hle)
      omega
    rw [if_pos hborrow, adder_eq hlength, hlength, words_eq_of_add_mul_eq hover]

/-- A round leaves the window's remainder by the divisor, one word shorter, and the words below it alone (R156, R157). -/
theorem divideRound_eq {v w : List Word} (h : w.length = v.length) (hlong : 2 ≤ v.length)
    (htop : base ^ v.length ≤ 2 * val v) {nh : Word} (hwindow : val (nh :: w) < val v * base) (below : List Word) :
    divideRound v (nh :: (w ++ below)) = words (val (nh :: w) % val v) v.length ++ below := by
  have hv : 0 < val v := Nat.pos_of_ne_zero fun hzero => by simp [hzero] at hwindow
  obtain ⟨hlow, hhigh⟩ := windowDigit_bounds h hlong htop hwindow
  rw [divideRound_window h hlong]
  split
  next hzero =>
    have hsmall : val (nh :: w) < val v := (Nat.div_eq_zero_iff_lt hv).mp (Nat.le_zero.mp (hzero ▸ hlow))
    have hwords : words (val (nh :: w)) v.length = words (val w) v.length :=
      words_eq_of_add_mul_eq (i := 0) (j := nh.toNat) (by rw [val_cons, h]; ring)
    rw [Nat.mod_eq_of_lt hsmall, hwords, ← h, words_val]
  next => rw [subtractDigit_eq h hv hlow hhigh]

/-- The rounds leave the remainder: before each, the words of the first window's length hold less than the divisor (R156). -/
theorem divideRounds_eq {v : List Word} (hlong : 2 ≤ v.length) (htop : base ^ v.length ≤ 2 * val v) {k : Nat} {r : List Word}
    (hlength : r.length = v.length + k) (hval : val r < val v * base ^ k) :
    divideRounds v k r = words (val r % val v) v.length := by
  induction k generalizing r with
  | zero =>
    rw [pow_zero, Nat.mul_one] at hval
    rw [divideRounds, Nat.mod_eq_of_lt hval, ← Nat.add_zero v.length, ← hlength, words_val]
  | succ k ih =>
    obtain ⟨nh, rest, rfl⟩ := List.exists_cons_of_length_pos (l := r) (by omega)
    have hrest : rest.length = v.length + k := Nat.succ.inj hlength
    obtain ⟨w, below, rfl, hw⟩ : ∃ w below, rest = w ++ below ∧ w.length = v.length :=
      ⟨rest.take v.length, rest.drop v.length, (List.take_append_drop _ _).symm, by rw [List.length_take]; omega⟩
    have hbelow : below.length = k := by
      rw [List.length_append] at hrest
      omega
    have hsplit : val (nh :: (w ++ below)) = val (nh :: w) * base ^ k + val below := by
      rw [← List.cons_append, val_append, hbelow]
    have hwindow : val (nh :: w) < val v * base := by
      refine Nat.lt_of_mul_lt_mul_right (a := base ^ k) ?_
      calc val (nh :: w) * base ^ k ≤ val (nh :: (w ++ below)) := hsplit ▸ Nat.le_add_right _ _
        _ < val v * base ^ (k + 1) := hval
        _ = val v * base * base ^ k := by rw [pow_succ', mul_assoc]
    have hv : 0 < val v := Nat.pos_of_ne_zero fun hzero => by simp [hzero] at hwindow
    have hmod := Nat.mod_lt (val (nh :: w)) hv
    have hnext : val (words (val (nh :: w) % val v) v.length ++ below) = val (nh :: w) % val v * base ^ k + val below := by
      rw [val_append, hbelow, val_words_of_lt (hmod.trans (val_lt v))]
    rw [divideRounds, divideRound_eq hw hlong htop hwindow, ih (by simp [hbelow]), hnext, hsplit]
    · exact congrArg (words · _) (((Nat.mod_modEq _ _).mul_right _).add_right _)
    · calc val (words (val (nh :: w) % val v) v.length ++ below) < (val (nh :: w) % val v + 1) * base ^ k := by
            rw [hnext, Nat.succ_mul]
            exact Nat.add_lt_add_left (hbelow ▸ val_lt below) _
        _ ≤ val v * base ^ k := Nat.mul_le_mul_right _ hmod

/-! ### Algorithm D -/

theorem bitlen_of_ne_zero {v : Nat} (h : v ≠ 0) : bitlen v = Nat.log2 v + 1 := if_neg h

/-- The normalising shift of a nonzero word sets its top bit and loses none (R156). -/
theorem clz32_spec {x : Word} (h : x.toNat ≠ 0) :
    base ≤ 2 * (x.toNat * 2 ^ clz32 x) ∧ (x.toNat + 1) * 2 ^ clz32 x ≤ base := by
  have hlow := Nat.log2_self_le h
  have hhigh : x.toNat + 1 ≤ 2 ^ (Nat.log2 x.toNat + 1) := Nat.lt_log2_self
  have hbits : Nat.log2 x.toNat + 1 ≤ 32 := (Nat.log2_lt h).mpr x.isLt
  have hbase : base = 2 ^ (Nat.log2 x.toNat + 1) * 2 ^ clz32 x := by
    rw [clz32, bitlen_of_ne_zero h, ← pow_add, Nat.add_sub_cancel' hbits]
  rw [hbase]
  refine ⟨?_, Nat.mul_le_mul_right _ hhigh⟩
  calc 2 ^ (Nat.log2 x.toNat + 1) * 2 ^ clz32 x = 2 * (2 ^ Nat.log2 x.toNat * 2 ^ clz32 x) := by ring
    _ ≤ 2 * (x.toNat * 2 ^ clz32 x) := Nat.mul_le_mul_left _ (Nat.mul_le_mul_right _ hlow)

theorem toNat_ne_zero_of_isNormalized {x : Word} {xs : List Word} (h : isNormalized (x :: xs) = true) : x.toNat ≠ 0 := fun hzero =>
  bne_iff_ne.mp h (BitVec.eq_of_toNat_eq hzero)

/-- The divisor shifted by its top word's leading zeros fills its length (R156). -/
theorem normalised_divisor_spec {b : List Word} (hb : isNormalized b = true) (hne : b ≠ []) :
    base ^ b.length ≤ 2 * (val b * 2 ^ clz32 (topWord b)) ∧ val b * 2 ^ clz32 (topWord b) < base ^ b.length := by
  obtain ⟨x, xs, rfl⟩ := List.exists_cons_of_ne_nil hne
  obtain ⟨hset, hfits⟩ := clz32_spec (toNat_ne_zero_of_isNormalized hb)
  rw [topWord_cons, List.length_cons, pow_succ']
  constructor
  · calc base * base ^ xs.length ≤ 2 * (x.toNat * 2 ^ clz32 x) * base ^ xs.length := Nat.mul_le_mul_right _ hset
      _ = 2 * (x.toNat * base ^ xs.length * 2 ^ clz32 x) := by ring
      _ ≤ 2 * (val (x :: xs) * 2 ^ clz32 x) := by
          rw [val_cons]
          exact Nat.mul_le_mul_left _ (Nat.mul_le_mul_right _ (Nat.le_add_right _ _))
  · calc val (x :: xs) * 2 ^ clz32 x < (x.toNat + 1) * base ^ xs.length * 2 ^ clz32 x :=
          Nat.mul_lt_mul_of_pos_right (val_cons_lt x xs) (Nat.two_pow_pos _)
      _ = (x.toNat + 1) * 2 ^ clz32 x * base ^ xs.length := by ring
      _ ≤ base * base ^ xs.length := Nat.mul_le_mul_right _ hfits

/-- A normalized non-empty array needs all its words. -/
theorem pow_length_le_val_mul {b : List Word} (hb : isNormalized b = true) (hne : b ≠ []) : base ^ b.length ≤ val b * base := by
  obtain ⟨x, xs, rfl⟩ := List.exists_cons_of_ne_nil hne
  have hx := Nat.pos_of_ne_zero (toNat_ne_zero_of_isNormalized hb)
  rw [List.length_cons, pow_succ, val_cons]
  exact Nat.mul_le_mul_right _ ((Nat.le_mul_of_pos_left _ hx).trans (Nat.le_add_right _ _))

/-- Algorithm D gives the remainder array: the shift by the divisor's leading zeros multiplies the remainder too, and is undone (R155 to
R158). -/
theorem algorithmD_eq {a b : List Word} (hb : isNormalized b = true) (hlong : 2 ≤ b.length) (hlength : b.length ≤ a.length) :
    algorithmD a b = remArray a b := by
  have hne : b ≠ [] := by
    rintro rfl
    simp at hlong
  obtain ⟨hset, hfits⟩ := normalised_divisor_spec hb hne
  have hshift : 2 ^ clz32 (topWord b) ≤ base := Nat.pow_le_pow_right (by decide) (Nat.sub_le _ _)
  have hdivisor := val_words_of_lt hfits
  have hdividend : val (words (val a * 2 ^ clz32 (topWord b)) (a.length + 1)) = val a * 2 ^ clz32 (topWord b) := by
    refine val_words_of_lt ?_
    rw [pow_succ]
    exact Nat.mul_lt_mul_of_lt_of_le (val_lt a) hshift (by decide)
  have hwindow : val a < val b * base ^ (a.length - b.length + 1) :=
    calc val a < base ^ a.length := val_lt a
      _ = base ^ b.length * base ^ (a.length - b.length) := by rw [← pow_add, Nat.add_sub_cancel' hlength]
      _ ≤ val b * base * base ^ (a.length - b.length) := Nat.mul_le_mul_right _ (pow_length_le_val_mul hb hne)
      _ = val b * base ^ (a.length - b.length + 1) := by rw [pow_succ', mul_assoc]
  have hrounds := divideRounds_eq (v := words (val b * 2 ^ clz32 (topWord b)) b.length) (k := a.length - b.length + 1)
    (r := words (val a * 2 ^ clz32 (topWord b)) (a.length + 1)) (by simpa using hlong) (by simpa [hdivisor] using hset)
    (by simp only [words_length]; omega) (by
      rw [hdividend, hdivisor, mul_right_comm]
      exact Nat.mul_lt_mul_of_pos_right hwindow (Nat.two_pow_pos _))
  rw [hdividend, hdivisor, words_length, Nat.mul_mod_mul_right] at hrounds
  have hremainder : val a % val b * 2 ^ clz32 (topWord b) < base ^ b.length :=
    (Nat.mul_le_mul_right _ (Nat.mod_lt _ (val_pos_of_isNormalized hb hne)).le).trans_lt hfits
  unfold algorithmD
  dsimp only
  rw [hrounds, val_words_of_lt hremainder, Nat.mul_div_cancel _ (Nat.two_pow_pos _), remArray]

/-! ### Shared trailing zeros -/

theorem pow_ctzFuel_dvd (fuel v : Nat) : 2 ^ ctzFuel fuel v ∣ v := by
  induction fuel generalizing v with
  | zero => exact one_dvd v
  | succ fuel ih =>
    rw [ctzFuel]
    split
    next => exact one_dvd v
    next heven =>
      have hdouble : v = v / 2 * 2 := by omega
      conv_rhs => rw [hdouble]
      rw [pow_succ]
      exact Nat.mul_dvd_mul_right (ih _) 2

theorem div_pow_ctzFuel_odd {fuel v : Nat} (h : v ≠ 0) (hfuel : v < 2 ^ fuel) : v / 2 ^ ctzFuel fuel v % 2 = 1 := by
  induction fuel generalizing v with
  | zero => exact absurd (Nat.lt_one_iff.mp hfuel) h
  | succ fuel ih =>
    rw [ctzFuel]
    split
    next hodd => simpa using hodd
    next heven =>
      rw [pow_succ', ← Nat.div_div_eq_div_mul]
      exact ih (by omega) (by rw [pow_succ] at hfuel; omega)

theorem pow_ctz_dvd (v : Nat) : 2 ^ ctz v ∣ v := pow_ctzFuel_dvd _ _

/-- Shifted right by its trailing zeros, a nonzero number is odd (R11). -/
theorem div_pow_ctz_odd {v : Nat} (h : v ≠ 0) : v / 2 ^ ctz v % 2 = 1 :=
  div_pow_ctzFuel_odd h (by rw [bitlen_of_ne_zero h]; exact Nat.lt_log2_self)

theorem ctz_of_odd {v : Nat} (h : v % 2 = 1) : ctz v = 0 := by
  rw [ctz, bitlen_of_ne_zero (by omega), ctzFuel, if_pos h]

/-- The trailing zeros two numbers share (R154). -/
def sharedZeros (a b : List Word) : Nat := min (ctz (val a)) (ctz (val b))

/-- An array shifted right within its length, normalized (R154). -/
def shiftedDown (tz : Nat) (a : List Word) : List Word := norm (words (val a / 2 ^ tz) a.length)

theorem val_shiftedDown (tz : Nat) (a : List Word) : val (shiftedDown tz a) = val a / 2 ^ tz := by
  rw [shiftedDown, val_norm, val_words_of_lt ((Nat.div_le_self _ _).trans_lt (val_lt a))]

theorem isNormalized_shiftedDown (tz : Nat) (a : List Word) : isNormalized (shiftedDown tz a) = true := isNormalized_norm _

theorem pow_sharedZeros_dvd (a b : List Word) : 2 ^ sharedZeros a b ∣ val a ∧ 2 ^ sharedZeros a b ∣ val b :=
  ⟨(Nat.pow_dvd_pow 2 (Nat.min_le_left _ _)).trans (pow_ctz_dvd _), (Nat.pow_dvd_pow 2 (Nat.min_le_right _ _)).trans (pow_ctz_dvd _)⟩

/-- After the shared zeros are shifted out, one of the two is odd: the recursion is one level deep (R154). -/
theorem sharedZeros_shiftedDown {a b : List Word} (ha : 0 < val a) (hb : 0 < val b) :
    sharedZeros (shiftedDown (sharedZeros a b) a) (shiftedDown (sharedZeros a b) b) = 0 := by
  rw [sharedZeros, val_shiftedDown, val_shiftedDown]
  obtain hle | hle := Nat.le_total (ctz (val a)) (ctz (val b))
  · rw [sharedZeros, Nat.min_eq_left hle, ctz_of_odd (div_pow_ctz_odd ha.ne'), Nat.zero_min]
  · rw [sharedZeros, Nat.min_eq_right hle, ctz_of_odd (div_pow_ctz_odd hb.ne'), Nat.min_zero]

theorem shlLength_cons (x : Word) (xs : List Word) (n : Nat) : shlLength (x :: xs) n =
    xs.length + 1 + n / 32 + if 0 < n % 32 ∧ x.toNat / 2 ^ (32 - n % 32) ≠ 0 then 1 else 0 := if_neg (Nat.succ_ne_zero _)

/-- A left shift of a normalized array is normalized: the length of R126 has a word more exactly where the top word needs it. -/
theorem isNormalized_shlArray {a : List Word} (h : isNormalized a = true) (n : Nat) : isNormalized (shlArray a n) = true := by
  cases a with
  | nil => rfl
  | cons x xs =>
    obtain ⟨c, hlength, htop⟩ : ∃ c, shlLength (x :: xs) n = xs.length + c + n / 32 + 1 ∧ base ^ c ≤ x.toNat * 2 ^ (n % 32) := by
      by_cases hout : 0 < n % 32 ∧ x.toNat / 2 ^ (32 - n % 32) ≠ 0
      · refine ⟨1, ?_, ?_⟩
        · rw [shlLength_cons, if_pos hout]
        · rw [pow_one, base_eq_pow_mul (Nat.mod_lt n (by decide)).le]
          exact Nat.mul_le_mul_right _ (Nat.div_ne_zero_iff.mp hout.2).2
      · refine ⟨0, ?_, ?_⟩
        · rw [shlLength_cons, if_neg hout]
          omega
        · exact Nat.mul_pos (Nat.pos_of_ne_zero (toNat_ne_zero_of_isNormalized h)) (Nat.two_pow_pos _)
    have hfits := val_mul_two_pow_lt (x :: xs) n
    rw [hlength] at hfits
    rw [shlArray, hlength]
    refine isNormalized_words ?_ hfits
    calc base ^ (xs.length + c + n / 32) = base ^ c * base ^ xs.length * base ^ (n / 32) := by ring
      _ ≤ x.toNat * 2 ^ (n % 32) * base ^ xs.length * base ^ (n / 32) := Nat.mul_le_mul_right _ (Nat.mul_le_mul_right _ htop)
      _ = x.toNat * base ^ xs.length * 2 ^ n := by rw [pow_words_bits n]; ring
      _ ≤ val (x :: xs) * 2 ^ n := Nat.mul_le_mul_right _ (by rw [val_cons]; exact Nat.le_add_right _ _)

/-! ### The policy -/

/-- The remainder array is the only normalized array of the remainder's value. -/
theorem eq_remArray {a b r : List Word} (hb : 0 < val b) (hr : isNormalized r = true) (h : val r = val a % val b) : r = remArray a b :=
  eq_of_val_eq hr (isNormalized_remArray a b) (h.trans (val_remArray a hb).symm)

/-- Shifting the divisor down by a shared power of two keeps it nonzero (R151). -/
theorem val_shiftedDown_sharedZeros_pos (a : List Word) {b : List Word} (hb : 0 < val b) :
    0 < val (shiftedDown (sharedZeros a b) b) := by
  rw [val_shiftedDown]
  exact Nat.div_pos (Nat.le_of_dvd hb (pow_sharedZeros_dvd a b).2) (Nat.two_pow_pos _)

/-- The remainder of the operands shifted down, shifted back up, is that of the operands (R154). -/
theorem shlArray_remArray_shiftedDown (a : List Word) {b : List Word} (hb : 0 < val b) :
    shlArray (remArray (shiftedDown (sharedZeros a b) a) (shiftedDown (sharedZeros a b) b)) (sharedZeros a b) = remArray a b := by
  obtain ⟨hda, hdb⟩ := pow_sharedZeros_dvd a b
  refine eq_remArray hb (isNormalized_shlArray (isNormalized_remArray _ _) _) ?_
  rw [shlArray, val_words_of_lt (val_mul_two_pow_lt _ _), val_remArray _ (val_shiftedDown_sharedZeros_pos a hb), val_shiftedDown,
    val_shiftedDown, ← Nat.mul_mod_mul_right, Nat.div_mul_cancel hda, Nat.div_mul_cancel hdb]

/-- One level of the policy gives the remainder array, where the level below does on the operands that step 4 hands it (R152 to R155). -/
theorem dividePolicyAt_succ {depth : Nat} {a b : List Word} (ha : isNormalized a = true) (hb : isNormalized b = true) (hne : b ≠ [])
    (hbelow : val b < val a → Config.pow2MinZeros ≤ sharedZeros a b →
      dividePolicyAt depth (shiftedDown (sharedZeros a b) a) (shiftedDown (sharedZeros a b) b) =
        remArray (shiftedDown (sharedZeros a b) a) (shiftedDown (sharedZeros a b) b)) :
    dividePolicyAt (depth + 1) a b = remArray a b := by
  have hpos := val_pos_of_isNormalized hb hne
  rw [dividePolicyAt, compareIsNumeric a b ha hb]
  cases hcompare : compare (val a) (val b) with
  | lt => exact eq_remArray hpos ha (Nat.mod_eq_of_lt (Nat.compare_eq_lt.mp hcompare)).symm
  | eq => exact eq_remArray hpos rfl (by rw [Nat.compare_eq_eq.mp hcompare, Nat.mod_self, val_nil])
  | gt =>
    have hgt : val b < val a := Nat.compare_eq_gt.mp hcompare
    dsimp only
    split
    next hone =>
      obtain ⟨d, rfl⟩ := List.length_eq_one_iff.mp hone
      rw [val_singleton] at hpos
      obtain ⟨hval, hnormalized⟩ := remBySingle_spec a hpos
      exact eq_remArray (by rwa [val_singleton]) hnormalized (by rw [val_singleton]; exact hval)
    next hone =>
      split
      next hfactor =>
        obtain ⟨-, -, hzeros⟩ := hfactor
        exact (congrArg (shlArray · (sharedZeros a b)) (hbelow hgt hzeros)).trans (shlArray_remArray_shiftedDown a hpos)
      next =>
        have hlong : 2 ≤ b.length := by
          have := List.length_pos_iff.mpr hne
          omega
        have hlength : b.length ≤ a.length := Nat.le_of_not_lt fun hlt => hgt.not_gt (val_lt_val_of_length_lt hb hlt)
        exact algorithmD_eq hb hlong hlength

/-- The divide policy gives the array that REM writes: two levels are enough, since step 4 leaves no shared zero (R150, R154, R159). -/
theorem dividePolicy_eq_remArray {a b : List Word} (ha : isNormalized a = true) (hb : isNormalized b = true) (hne : b ≠ []) :
    dividePolicy a b = some (remArray a b) := by
  have hpos := val_pos_of_isNormalized hb hne
  rw [dividePolicy, if_neg (mt List.length_eq_zero_iff.mp hne)]
  refine congrArg some (dividePolicyAt_succ ha hb hne fun hgt _ => ?_)
  refine dividePolicyAt_succ (isNormalized_shiftedDown _ _) (isNormalized_shiftedDown _ _) (fun hempty => ?_) fun _ hzeros => ?_
  · have hshifted := val_shiftedDown_sharedZeros_pos a hpos
    rw [hempty] at hshifted
    exact hshifted.ne rfl
  · rw [sharedZeros_shiftedDown (hpos.trans hgt) hpos] at hzeros
    exact absurd hzeros (by decide)

/-- Settles O53: the policy gives the array that REM's meaning writes. -/
theorem dividePolicyIsRemainder : Obligations.DividePolicyIsRemainder :=
  ⟨fun a _ ha hb hne => ⟨_, dividePolicy_eq_remArray ha hb hne, val_remArray a (val_pos_of_isNormalized hb hne),
    isNormalized_remArray _ _⟩, fun _ => rfl⟩

end Sys2Proof.Machine

/-! SUPPORT. The Montgomery family's statements (spec/43_montgomery.md). First the word-serial reduction: each loop is given one equation on
the value it leaves, and the rounds follow the word positions of the value-level reduction (R174). Then the value of the reduction and the
laws that follow from it (R175, R180), and last the five commands: what each answers with valid sources, its faults and its result (R172,
R173, R177 to R179). -/

namespace Sys2Proof.Machine

open Sys2Proof

/-! ### The loops of the word-serial reduction -/

/-- A word stored and its carry passed on: the low word of a sum `s`, above it what the words above become with `s`'s carry. -/
theorem val_reverse_toWord_cons {s x l : Nat} {above : List Word} (h : val above.reverse = (x + s / base) % base ^ l) :
    val (toWord s :: above).reverse = (s + x * base) % base ^ (l + 1) := by
  rw [val_reverse_cons, toNat_toWord, h, pow_succ', Nat.mod_mul, Nat.add_mul_mod_self_right,
    Nat.add_mul_div_right _ _ (by decide), Nat.add_comm x, Nat.mul_comm base]

@[simp] theorem propagate_length (ts : List Word) (carry : Nat) : (propagate ts carry).length = ts.length := by
  induction ts generalizing carry with
  | nil => rfl
  | cons t ts ih =>
    rw [propagate]
    split
    · rfl
    · simp [ih]

/-- Carry propagation adds the carry, in the words there are (R174). -/
theorem val_propagate (ts : List Word) (carry : Nat) :
    val (propagate ts carry).reverse = (val ts.reverse + carry) % base ^ ts.length := by
  induction ts generalizing carry with
  | nil => simp [propagate, Nat.mod_one]
  | cons t ts ih =>
    rw [propagate]
    split
    next hzero =>
      have hlt := val_lt (t :: ts).reverse
      rw [List.length_reverse] at hlt
      rw [hzero, Nat.add_zero, Nat.mod_eq_of_lt hlt]
    next =>
      rw [val_reverse_toWord_cons (ih _), val_reverse_cons, List.length_cons]
      congr 1
      ring

@[simp] theorem reduceRow_length (q : Nat) (ns ts : List Word) (carry : Nat) : (reduceRow q ns ts carry).length = ts.length := by
  induction ns generalizing ts carry with
  | nil => simp [reduceRow]
  | cons n ns ih =>
    cases ts with
    | nil => simp [reduceRow]
    | cons t ts => simp [reduceRow, ih]

/-- A row adds `q` times the modulus, in the words there are (R174). -/
theorem val_reduceRow (q : Nat) (ns ts : List Word) (carry : Nat) :
    val (reduceRow q ns ts carry).reverse = (val ts.reverse + q * val ns.reverse + carry) % base ^ ts.length := by
  induction ns generalizing ts carry with
  | nil => simp [reduceRow, val_propagate]
  | cons n ns ih =>
    cases ts with
    | nil => simp [reduceRow, propagate, Nat.mod_one]
    | cons t ts =>
      rw [reduceRow, val_reverse_toWord_cons (ih _ _), val_reverse_cons, val_reverse_cons, List.length_cons]
      congr 1
      ring

theorem toNat_headD_eq (ts : List Word) : (ts.headD 0).toNat = val ts.reverse % base := by
  cases ts with
  | nil => rfl
  | cons t ts =>
    rw [val_reverse_cons, Nat.add_mul_mod_self_right]
    exact (Nat.mod_eq_of_lt t.isLt).symm

/-- Leaving the low word behind divides by the base. -/
theorem val_reverse_drop_one (ts : List Word) : val (ts.drop 1).reverse = val ts.reverse / base := by
  cases ts with
  | nil => rfl
  | cons t ts =>
    rw [val_reverse_cons, Nat.add_mul_div_right _ _ (by decide), Nat.div_eq_of_lt t.isLt, Nat.zero_add]
    rfl

/-! ### The rounds follow the word positions -/

/-- The reduction multiplier of a running value, from its low word (R174). -/
def reductionMultiplier (ninv32 v : Nat) : Nat := v % base * ninv32 % base

theorem reductionMultiplier_lt (ninv32 v : Nat) : reductionMultiplier ninv32 v < base := Nat.mod_lt _ (by decide)

theorem reductionMultiplier_eq (ninv32 : Nat) (ts : List Word) :
    reductionMultiplier ninv32 (val ts.reverse) = (ts.headD 0).toNat * ninv32 % base := by
  rw [reductionMultiplier, toNat_headD_eq]

/-- A word position as seen from that position on: the multiple of the modulus added, the low word left behind (R174). -/
theorem montPosition_div (n : Nat) (ninv : DWord) (t j : Nat) :
    montPosition n ninv t j / base ^ (j + 1) =
      (t / base ^ j + reductionMultiplier (ninv.toNat % base) (t / base ^ j) * n) / base := by
  rw [montPosition, pow_succ, ← Nat.div_div_eq_div_mul, Nat.add_mul_div_right _ _ (Nat.pow_pos (by decide)), reductionMultiplier]

/-- With `k + 1` rounds to go, the running value and a row stay below `base ^ (m + k + 1) + base ^ (m + 1)`: one carry word is enough. -/
theorem add_mul_lt_of_round {v q n m k : Nat} (hv : v < base ^ (m + (k + 1)) + base ^ m) (hq : q < base) (hn : n < base ^ m) :
    v + q * n < base ^ (m + k + 1) + base ^ (m + 1) := by
  have hrow : q * n + base ^ m ≤ base ^ (m + 1) :=
    calc q * n + base ^ m ≤ q * base ^ m + base ^ m := Nat.add_le_add_right (Nat.mul_le_mul_left q hn.le) _
      _ = (q + 1) * base ^ m := by ring
      _ ≤ base * base ^ m := Nat.mul_le_mul_right _ hq
      _ = base ^ (m + 1) := by ring
  rw [← Nat.add_assoc] at hv
  omega

/-- The running value with `k` rounds to go: as many words, and a value that those rounds keep in them (R174). -/
structure RunningValue (m k : Nat) (u : List Word) : Prop where
  length : u.length = m + k + 1
  bound : val u.reverse < base ^ (m + k) + base ^ m

/-- The words one round leaves: a row for the current low word, which is then left behind (R174). -/
def reduceRound (n : List Word) (ninv32 : Nat) (u : List Word) : List Word :=
  (reduceRow ((u.headD 0).toNat * ninv32 % base) n u 0).drop 1

theorem reduceRounds_succ (n : List Word) (ninv32 k : Nat) (u : List Word) :
    reduceRounds n ninv32 (k + 1) u = reduceRounds n ninv32 k (reduceRound n ninv32 u) := rfl

section
variable {n u : List Word} {k : Nat} (h : RunningValue n.length (k + 1) u) (ninv32 : Nat)
include h

/-- The value below which a row leaves the running value, which its words hold. -/
theorem RunningValue.row_lt : val u.reverse + reductionMultiplier ninv32 (val u.reverse) * val n.reverse <
    base ^ (n.length + k + 1) + base ^ (n.length + 1) :=
  add_mul_lt_of_round h.bound (reductionMultiplier_lt _ _) ((val_lt n.reverse).trans_eq (by rw [List.length_reverse]))

/-- One round on the value: nothing is lost above the carry word (R174). -/
theorem RunningValue.val_reduceRound : val (reduceRound n ninv32 u).reverse =
    (val u.reverse + reductionMultiplier ninv32 (val u.reverse) * val n.reverse) / base := by
  have hfits : base ^ (n.length + k + 1) + base ^ (n.length + 1) ≤ base ^ u.length := by
    have hlow : base ^ (n.length + 1) ≤ base ^ (n.length + k + 1) := Nat.pow_le_pow_right (by decide) (by omega)
    calc base ^ (n.length + k + 1) + base ^ (n.length + 1) ≤ base ^ (n.length + k + 1) * 2 := by omega
      _ ≤ base ^ (n.length + k + 1) * base := Nat.mul_le_mul_left _ (by decide)
      _ = base ^ u.length := by rw [h.length, ← pow_succ, ← Nat.add_assoc]
  rw [reduceRound, ← reductionMultiplier_eq, val_reverse_drop_one, val_reduceRow, Nat.add_zero,
    Nat.mod_eq_of_lt ((h.row_lt ninv32).trans_le hfits)]

theorem RunningValue.next : RunningValue n.length k (reduceRound n ninv32 u) where
  length := by
    rw [reduceRound, List.length_drop, reduceRow_length, h.length]
    omega
  bound := by
    rw [h.val_reduceRound, Nat.div_lt_iff_lt_mul (by decide), Nat.add_mul, ← pow_succ, ← pow_succ]
    exact h.row_lt ninv32

end

/-- The remaining rounds take the running value through the remaining word positions (R174). -/
theorem val_reduceRounds {n : List Word} (ninv : DWord) {t j k : Nat} {u : List Word} (h : RunningValue n.length k u)
    (hval : val u.reverse = montPositions (val n.reverse) ninv t j / base ^ j) :
    val (reduceRounds n (ninv.toNat % base) k u).reverse = montPositions (val n.reverse) ninv t (j + k) / base ^ (j + k) := by
  induction k generalizing j u with
  | zero => exact hval
  | succ k ih =>
    have hnext : val (reduceRound n (ninv.toNat % base) u).reverse = montPositions (val n.reverse) ninv t (j + 1) / base ^ (j + 1) := by
      rw [h.val_reduceRound, hval, montPositions, montPosition_div]
    rw [reduceRounds_succ, ih (h.next _) hnext, Nat.add_right_comm, Nat.add_assoc]

/-- The array to reduce, with the carry word above it. -/
theorem runningValue_start {t : List Word} {m : Nat} (h : t.length = 2 * m) : RunningValue m m (t.reverse ++ [0]) where
  length := by
    rw [List.length_append, List.length_reverse, List.length_singleton, h]
    omega
  bound := by
    have hlt := val_lt t
    rw [h, two_mul] at hlt
    have hval : val (t.reverse ++ [0]).reverse = val t := by simp [val_cons]
    omega

/-- Settles O54: the rounds follow the word positions, with no word lost above the carry word. -/
theorem serialReductionAgrees : Obligations.SerialReductionAgrees := by
  intro n ninv t hlength
  have hstart : RunningValue n.reverse.length n.length (t.reverse ++ [0]) := by
    rw [List.length_reverse]
    exact runningValue_start hlength
  have hval : val (t.reverse ++ [0]).reverse = montPositions (val n.reverse.reverse) ninv (val t) 0 / base ^ 0 := by
    simp [val_cons, montPositions]
  have hrounds := val_reduceRounds ninv hstart hval
  rw [List.reverse_reverse, Nat.zero_add] at hrounds
  rw [montRedSerial, montRed, hrounds]

/-! ### The value of the reduction -/

/-- A result reduced modulo the modulus fits the modulus's length. -/
theorem val_words_mod {n : List Word} (h : 0 < val n) (x : Nat) : val (words (x % val n) n.length) = x % val n :=
  val_words_of_lt ((Nat.mod_lt x h).trans (val_lt n))

theorem val_montRed_lt {n : List Word} (h : 0 < val n) (ninv : DWord) (t : Nat) : val (montRed n ninv t) < val n := by
  rw [montRed, val_words_mod h]
  exact Nat.mod_lt _ h

/-- The reduction of `t`, times `R`, is `t` modulo the modulus (R175). -/
theorem val_montRed_mul_modEq {n : List Word} {ninv : DWord} (h : low64 n * ninv = -1) (t : Nat) :
    val (montRed n ninv t) * base ^ n.length ≡ t [MOD val n] := by
  have hdvd := pow_dvd_montPositions (base_dvd_val_mul_ninv h) t n.length
  rw [montRed, val_words_mod (val_pos_of_const h)]
  calc montPositions (val n) ninv t n.length / base ^ n.length % val n * base ^ n.length
      ≡ montPositions (val n) ninv t n.length / base ^ n.length * base ^ n.length [MOD val n] := (Nat.mod_modEq _ _).mul_right _
    _ = montPositions (val n) ninv t n.length := Nat.div_mul_cancel hdvd
    _ ≡ t [MOD val n] := montPositions_modEq _ _ _ _

/-- Settles O55: the reduction of 1 is an inverse of `R`, and the reduction of `t R^(-1) R` is `t R^(-1)`. -/
theorem montRedIsCanonicalResidue : Obligations.MontRedIsCanonicalResidue := by
  intro n ninv t hconst _
  refine ⟨montRed_length _ _ _, ⟨val (montRed n ninv 1), val_montRed_mul_modEq hconst 1⟩, fun rinv hrinv => ?_⟩
  have hresidue : val t ≡ val t * rinv * base ^ n.length [MOD val n] :=
    calc val t = val t * 1 := (Nat.mul_one _).symm
      _ ≡ val t * (rinv * base ^ n.length) [MOD val n] := Nat.ModEq.mul_left _ (Nat.ModEq.symm hrinv)
      _ = val t * rinv * base ^ n.length := (Nat.mul_assoc _ _ _).symm
  rw [montRed_of_modEq hconst hresidue, val_words_mod (val_pos_of_const hconst)]

/-! ### The laws -/

/-- The Montgomery product of the form of `x` with `y` is `x y` modulo the modulus: the form's `R` is the one reduced away (R180). -/
theorem montRed_montForm_mul {n : List Word} {ninv : DWord} (h : low64 n * ninv = -1) (x y : Nat) :
    montRed n ninv (val (montForm n x) * y) = words (x * y % val n) n.length := by
  refine montRed_of_modEq h ?_
  rw [val_montForm (val_pos_of_const h)]
  calc x * base ^ n.length % val n * y ≡ x * base ^ n.length * y [MOD val n] := (Nat.mod_modEq _ _).mul_right _
    _ = x * y * base ^ n.length := by ring

/-- Settles O56: every law is the product of a form with a number, or that of two forms. -/
theorem montgomeryLaws : Obligations.MontgomeryLaws := by
  intro n ninv x y _ hconst m mto mmul
  have hpos := val_pos_of_const hconst
  have hproduct (x y : Nat) : mmul (val (mto x)) y = words (x * y % val n) m := montRed_montForm_mul hconst x y
  refine ⟨montMul_montForm hconst x y, montMul_montForm hconst x x, ?_, hproduct x y, ?_, ?_, val_montRed_lt hpos ninv (x * y),
    val_montRed_lt hpos ninv x⟩
  · calc montRed n ninv (val (mto x)) = mmul (val (mto x)) 1 := congrArg (montRed n ninv) (Nat.mul_one _).symm
      _ = words (x * 1 % val n) m := hproduct x 1
      _ = words (x % val n) m := by rw [Nat.mul_one]
  · calc mmul x (val (mto 1)) = mmul (val (mto 1)) x := congrArg (montRed n ninv) (Nat.mul_comm _ _)
      _ = words (1 * x % val n) m := hproduct 1 x
      _ = words (x % val n) m := by rw [Nat.one_mul]
  · calc val (mto x) = x * base ^ n.length % val n := val_montForm hpos x
      _ < val n := Nat.mod_lt _ hpos

/-! ### Checks -/

/-- The first check decides, or leaves it to the others (R218). -/
theorem State.command_cons (s : State) (rd : Option WReg) (applies : Bool) (c : Cause) (rest : List (Bool × Cause)) (effect : State) :
    s.command rd ((applies, c) :: rest) effect = if applies then s.raiseFault c rd else s.command rd rest effect := by
  cases applies <;> rfl

@[simp] theorem State.command_nil (s : State) (rd : Option WReg) (effect : State) : s.command rd [] effect = effect.complete := rfl

section
variable {s : State} {rs : List WReg} (h : s.AllValid rs) (rest : List (Bool × Cause)) (rd : Option WReg) (effect : State)
include h

/-- With valid sources the command's own checks decide (R213). -/
theorem State.command_sourceCheck_cons : s.command rd (s.sourceCheck rs :: rest) effect = s.command rd rest effect := by
  rw [State.command, State.command, firstFault_sourceCheck_cons h]

/-- With valid sources and no context a Montgomery command faults, whatever its other checks (R173, R177 to R179). -/
theorem State.command_of_ctx_invalid (hctx : s.ctx.mvalid = false) :
    s.command rd (s.sourceCheck rs :: s.ctxCheck :: rest) effect = s.raiseFault .ctxInvalid rd := by
  rw [s.command_sourceCheck_cons h, State.ctxCheck, s.command_cons, hctx]
  rfl

/-- With valid sources and a context the checks of the operands decide (R173, R177 to R179). -/
theorem State.command_of_ctx_valid (hctx : s.ctx.mvalid = true) :
    s.command rd (s.sourceCheck rs :: s.ctxCheck :: rest) effect = s.command rd rest effect := by
  rw [s.command_sourceCheck_cons h, State.ctxCheck, s.command_cons, hctx]
  rfl

end

/-! ### What the commands answer with valid sources -/

/-- MSETUP tests the form, the length, the parity (R172). -/
theorem exec_msetup_of_allValid {s : State} {rs1 : WReg} (h : s.AllValid [rs1]) : exec (.msetup rs1) s =
    .next (if isNormalized (s.view rs1) = false then s.raiseFault .notNormalized none
      else if (s.view rs1).length = 0 ∨ Config.maxW < (s.view rs1).length then s.raiseFault .modLen none
      else if (lowWord (s.view rs1)).toNat % 2 = 0 then s.raiseFault .modEven none
      else (s.loadCtx (s.view rs1)).complete) := by
  refine congrArg Host.Outcome.next ((s.command_sourceCheck_cons h _ _ _).trans ?_)
  simp only [s.command_cons, State.command_nil, lowWordEven, Bool.not_eq_true', Bool.or_eq_true, decide_eq_true_eq]

section
variable {s : State} (hctx : s.ctx.mvalid = true)
include hctx

/-- MTO with a context, by the length of the shifted operand (R173). -/
theorem exec_mto_of_ctx_valid {rs1 : WReg} (h : s.AllValid [rs1]) (rd : WReg) : exec (.mto rd rs1) s =
    .next (if Config.cap < siglen (s.view rs1) + s.mlen + 1 then s.raiseFault .capacity (some rd)
      else (s.writeReg rd (montForm s.modulus (val (s.view rs1)))).complete) := by
  refine congrArg Host.Outcome.next ((s.command_of_ctx_valid h _ _ _ hctx).trans ?_)
  simp only [baseTooLong, s.command_cons, State.command_nil, decide_eq_true_eq]

/-- MMUL with a context, by the lengths of its operands (R177). -/
theorem exec_mmul_of_ctx_valid {rs1 rs2 : WReg} (h : s.AllValid [rs1, rs2]) (rd : WReg) : exec (.mmul rd rs1 rs2) s =
    .next (if s.mlen < (s.view rs1).length ∨ s.mlen < (s.view rs2).length then
        s.raiseFault .operandTooLong (some rd)
      else (s.writeReg rd (montRed s.modulus s.ctx.ninv (val (s.view rs1) * val (s.view rs2)))).complete) := by
  refine congrArg Host.Outcome.next ((s.command_of_ctx_valid h _ _ _ hctx).trans ?_)
  simp only [tooLong, s.command_cons, State.command_nil, decide_eq_true_eq, ite_or]

/-- MSQR with a context, by the length of its operand (R178). -/
theorem exec_msqr_of_ctx_valid {rs1 : WReg} (h : s.AllValid [rs1]) (rd : WReg) : exec (.msqr rd rs1) s =
    .next (if s.mlen < (s.view rs1).length then s.raiseFault .operandTooLong (some rd)
      else (s.writeReg rd (montRed s.modulus s.ctx.ninv (val (s.view rs1) ^ 2))).complete) := by
  refine congrArg Host.Outcome.next ((s.command_of_ctx_valid h _ _ _ hctx).trans ?_)
  simp only [tooLong, s.command_cons, State.command_nil, decide_eq_true_eq]

/-- MRED with a context, by the length of its operand (R179). -/
theorem exec_mred_of_ctx_valid {rs1 : WReg} (h : s.AllValid [rs1]) (rd : WReg) : exec (.mred rd rs1) s =
    .next (if 2 * s.mlen < (s.view rs1).length then s.raiseFault .operandTooLong (some rd)
      else (s.writeReg rd (montRed s.modulus s.ctx.ninv (val (s.view rs1)))).complete) := by
  refine congrArg Host.Outcome.next ((s.command_of_ctx_valid h _ _ _ hctx).trans ?_)
  simp only [tooLong, s.command_cons, State.command_nil, decide_eq_true_eq]

end

/-! ### The faults -/

/-- A command that answers with a fault leaves the context and the I/O buffer (R214). -/
theorem exists_plainFault {s : State} {o : Host.Outcome State Fault Refusal} {c : Cause} {rd : Option WReg}
    (h : o = .next (s.raiseFault c rd)) : ∃ t, o = .next t ∧ PlainFault s t c rd := ⟨_, h, s.raiseFault_plain c rd⟩

/-- A command that tests the context after its valid sources faults without one (R173, R177 to R179). -/
theorem exists_ctxInvalid {s : State} {rs : List WReg} (h : s.AllValid rs) (hctx : s.ctx.mvalid = false)
    {o : Host.Outcome State Fault Refusal} {rd : Option WReg} {rest : List (Bool × Cause)} {effect : State}
    (ho : o = .next (s.command rd (s.sourceCheck rs :: s.ctxCheck :: rest) effect)) :
    ∃ t, o = .next t ∧ PlainFault s t .ctxInvalid rd :=
  exists_plainFault (ho.trans (congrArg _ (s.command_of_ctx_invalid h rest rd effect hctx)))

/-- Settles O26: MSETUP's tests in their order, the context's test, then that of the operands. -/
theorem montgomeryFaults : Obligations.MontgomeryFaults := by
  intro rd rs1 rs2 s hvalid
  have hmsetup := exec_msetup_of_allValid hvalid.left
  refine ⟨fun hform => ?_, fun hform hlength => ?_, fun hform hpos hlength heven => ?_, fun hctx => ?_, fun hctx => ?_⟩
  · rw [if_pos hform] at hmsetup
    exact exists_plainFault hmsetup
  · rw [if_neg (ne_false_of_eq_true hform), if_pos hlength] at hmsetup
    exact exists_plainFault hmsetup
  · rw [if_neg (ne_false_of_eq_true hform), if_neg (not_or.mpr ⟨Nat.one_le_iff_ne_zero.mp hpos, hlength.not_gt⟩),
      if_pos heven] at hmsetup
    exact exists_plainFault hmsetup
  · exact ⟨exists_ctxInvalid hvalid.left hctx rfl, exists_ctxInvalid hvalid hctx rfl, exists_ctxInvalid hvalid.left hctx rfl,
      exists_ctxInvalid hvalid.left hctx rfl⟩
  · exact ⟨fun hlong => exists_plainFault ((exec_mto_of_ctx_valid hctx hvalid.left rd).trans (congrArg _ (if_pos hlong))),
      fun hlong => exists_plainFault ((exec_mmul_of_ctx_valid hctx hvalid rd).trans (congrArg _ (if_pos hlong))),
      fun hlong => exists_plainFault ((exec_msqr_of_ctx_valid hctx hvalid.left rd).trans (congrArg _ (if_pos hlong))),
      fun hlong => exists_plainFault ((exec_mred_of_ctx_valid hctx hvalid.left rd).trans (congrArg _ (if_pos hlong)))⟩

/-! ### The results -/

/-- A context loaded with an acceptable modulus holds it (R172). -/
theorem MontCtx.ofModulus_holdsModulus (ctr : Nat) {n : List Word} (h : ModulusOk n) : (MontCtx.ofModulus ctr n).HoldsModulus n := by
  have ⟨_, hlength, _, _⟩ := h
  obtain ⟨_, hholds⟩ := (MontCtx.ofModulus_sound ctr h).1 rfl
  rwa [MontCtx.modulus_ofModulus ctr hlength] at hholds

/-- Settles O43: no test of MSETUP applies to an acceptable modulus. -/
theorem msetupResult : Obligations.MsetupResult := by
  intro rs1 s hvalid hmodulus
  have hexec := exec_msetup_of_allValid hvalid
  have ⟨hpos, hlength, hform, hodd⟩ := hmodulus
  rw [if_neg (ne_false_of_eq_true hform), if_neg (not_or.mpr ⟨Nat.one_le_iff_ne_zero.mp hpos, hlength.not_gt⟩),
    if_neg (Nat.mod_two_ne_zero.mpr hodd)] at hexec
  exact ⟨_, hexec, State.complete_endedWell _, MontCtx.ofModulus_holdsModulus _ hmodulus, fun _ _ => rfl, rfl, fun _ => rfl,
    ⟨rfl, rfl, rfl, rfl⟩⟩

/-- A sound valid context holds as many modulus words as it says, and their constant (R33, R171). -/
theorem MontCtx.Sound.length_and_const {c : MontCtx} (h : c.Sound) (hvalid : c.mvalid = true) :
    c.modulus.length = c.mlen.toNat ∧ low64 c.modulus * c.ninv = -1 := by
  obtain ⟨_, _, hlength, _, hconst⟩ := h.1 hvalid
  exact ⟨hlength.symm, hconst⟩

/-- Settles O44: the form has the modulus's length, so it fits a register. -/
theorem mtoResult : Obligations.MtoResult := by
  intro rd rs1 s hvalid hsound hctx m hfits
  obtain ⟨hlength, -⟩ := hsound.length_and_const hctx
  have hform : montForm s.modulus (val (s.view rs1)) = words (val (s.view rs1) * 2 ^ (32 * m) % val s.ctx.modulus) m := by
    rw [two_pow_eq_base_pow, show m = s.ctx.modulus.length from hlength.symm]
    rfl
  rw [← hform]
  exact ⟨_, (exec_mto_of_ctx_valid hctx hvalid rd).trans (congrArg _ (if_neg hfits.not_gt)),
    s.complete_writeReg_wroteOnly rd ((montForm_length _ _).trans_le s.modulus_length_le), rfl⟩

/-- A command that writes the reduction of `v` under a sound context writes its residue times the inverse of `R` (R175). -/
theorem exists_wroteResidue {s : State} (hsound : s.ctx.Sound) (hctx : s.ctx.mvalid = true)
    {o : Host.Outcome State Fault Refusal} {rd : WReg} {v : Nat}
    (h : o = .next (s.writeReg rd (montRed s.modulus s.ctx.ninv v)).complete) :
    ∃ t r, o = .next t ∧ WroteOnly s t rd r ∧ r.length = s.ctx.mlen.toNat ∧ val r < val s.ctx.modulus ∧
      val r * 2 ^ (32 * s.ctx.mlen.toNat) % val s.ctx.modulus = v % val s.ctx.modulus ∧ t.flags = s.flags := by
  obtain ⟨hlength, hconst⟩ := hsound.length_and_const hctx
  rw [two_pow_eq_base_pow, ← hlength]
  exact ⟨_, montRed s.modulus s.ctx.ninv v, h,
    s.complete_writeReg_wroteOnly rd ((montRed_length _ _ _).trans_le s.modulus_length_le), montRed_length _ _ _,
    val_montRed_lt (val_pos_of_const hconst) _ _, val_montRed_mul_modEq hconst v, rfl⟩

/-- Settles O45: each command writes the reduction of its product, square or operand. -/
theorem montgomeryResults : Obligations.MontgomeryResults := by
  intro rd rs1 rs2 s hvalid hsound hctx m nv a b
  refine ⟨fun ha hb => ?_, fun ha => ?_, fun ha => ?_⟩
  · exact exists_wroteResidue hsound hctx
      ((exec_mmul_of_ctx_valid hctx hvalid rd).trans (congrArg _ (if_neg (not_or.mpr ⟨ha.not_gt, hb.not_gt⟩))))
  · rw [← pow_two]
    exact exists_wroteResidue hsound hctx ((exec_msqr_of_ctx_valid hctx hvalid.left rd).trans (congrArg _ (if_neg ha.not_gt)))
  · exact exists_wroteResidue hsound hctx ((exec_mred_of_ctx_valid hctx hvalid.left rd).trans (congrArg _ (if_neg ha.not_gt)))

end Sys2Proof.Machine

/-! SUPPORT. The exponentiation family's statements (spec/44_modpow.md). First the windows' widths and what they ask of the table (R193 to
R195). Then the scan: squarings, a table entry, the trimmed window, and the loop's invariant of R197, which give the power (R199). Last the
command: the key guard's answer (R191), what MODPOW answers at each of its ends, its faults and its results (R190, R192, R195, R198). -/

namespace Sys2Proof.Machine

open Sys2Proof

/-! ### Window widths -/

/-- The seven ranges that the thresholds cut out of the bit lengths (R193). -/
theorem windowOfBits_cases (ebits : Nat) :
    ebits ≤ 7 ∧ windowOfBits ebits = 1 ∨ 8 ≤ ebits ∧ ebits ≤ 25 ∧ windowOfBits ebits = 2 ∨
      26 ≤ ebits ∧ ebits ≤ 81 ∧ windowOfBits ebits = 3 ∨ 82 ≤ ebits ∧ ebits ≤ 241 ∧ windowOfBits ebits = 4 ∨
      242 ≤ ebits ∧ ebits ≤ 673 ∧ windowOfBits ebits = 5 ∨ 674 ≤ ebits ∧ ebits ≤ 1793 ∧ windowOfBits ebits = 6 ∨
      1794 ≤ ebits ∧ windowOfBits ebits = 7 := by
  have hcount : windowOfBits ebits =
      1 + ((((((0 + if 1793 < ebits then 1 else 0) + if 673 < ebits then 1 else 0) + if 241 < ebits then 1 else 0) +
        if 81 < ebits then 1 else 0) + if 25 < ebits then 1 else 0) + if 7 < ebits then 1 else 0) := by
    simp only [windowOfBits, ← List.countP_eq_length_filter, List.countP_cons, List.countP_nil, decide_eq_true_eq]
  split_ifs at hcount
  all_goals omega

theorem windowWidth_of_ne {e : Nat} (h : e ≠ 65537) : windowWidth e = windowOfBits (bitlen e) := if_neg h

/-- Settles O58: the bit length lies in one range only. -/
theorem windowWidths : Obligations.WindowWidths := by
  refine ⟨rfl, fun e hne _ => ?_⟩
  have hcases := windowOfBits_cases (bitlen e)
  rw [windowWidth_of_ne hne]
  omega

/-- A window has at least one bit and at most `WMAX` (R8, R193). -/
theorem windowWidth_bounds (e : Nat) : 1 ≤ windowWidth e ∧ windowWidth e ≤ Config.wMax := by
  have hmax : Config.wMax = 7 := rfl
  by_cases he : e = 65537
  · rw [he]
    decide
  · have hcases := windowOfBits_cases (bitlen e)
    rw [windowWidth_of_ne he]
    omega

/-- No window needs more entries than the hardware has (R195). -/
theorem tableEntries_windowWidth_le (e : Nat) : tableEntries (windowWidth e) ≤ Config.tblSlots := by
  obtain ⟨-, hmax⟩ := windowWidth_bounds e
  calc 2 ^ (windowWidth e - 1) ≤ 2 ^ (Config.wMax - 1) := Nat.pow_le_pow_right (by decide) (Nat.sub_le_sub_right hmax 1)
    _ = Config.tblSlots := rfl

/-! ### The window's bits -/

/-- Trimming ends at a set bit, not below where it starts nor above the window's top bit (R197). -/
theorem trimWindow_spec {e i : Nat} (htop : e.testBit i = true) {fuel l : Nat} (hl : l ≤ i) (hfuel : i ≤ l + fuel) :
    l ≤ trimWindow e fuel l ∧ trimWindow e fuel l ≤ i ∧ e.testBit (trimWindow e fuel l) = true := by
  induction fuel generalizing l with
  | zero =>
    obtain rfl : l = i := by omega
    exact ⟨le_rfl, le_rfl, htop⟩
  | succ fuel ih =>
    rw [trimWindow]
    split
    next hset => exact ⟨le_rfl, hl, hset⟩
    next hclear =>
      have hne : l ≠ i := fun heq => hclear (heq ▸ htop)
      obtain ⟨hlo, hhi, hset⟩ := ih (l := l + 1) (by omega) (by omega)
      exact ⟨by omega, hhi, hset⟩

/-- The number in bits `i .. l` of the exponent (R197 `k`). -/
def windowBits (e i l : Nat) : Nat := e / 2 ^ l % 2 ^ (i - l + 1)

/-- The bits above a window, then the window. -/
theorem div_two_pow_eq_add_windowBits (e : Nat) {i l : Nat} (h : l ≤ i) :
    e / 2 ^ l = e / 2 ^ (i + 1) * 2 ^ (i - l + 1) + windowBits e i l := by
  have hsum : l + (i - l + 1) = i + 1 := by omega
  rw [windowBits, ← hsum, pow_add, ← Nat.div_div_eq_div_mul, Nat.div_add_mod']

/-- A window that ends at a set bit is odd, so it is the power that its table index stands for (R196, R197). -/
theorem two_mul_index_add_one {e i l : Nat} (h : e.testBit l = true) : 2 * ((windowBits e i l - 1) / 2) + 1 = windowBits e i l := by
  have hodd : windowBits e i l % 2 = 1 := by
    rw [windowBits, Nat.mod_mod_of_dvd _ (dvd_pow_self 2 (Nat.succ_ne_zero _))]
    simpa [Nat.testBit_eq_decide_div_mod_eq] using h
  omega

/-- A window of at most `w` bits has its power in the table (R195). -/
theorem index_lt_tableEntries {e i l w : Nat} (hw : 1 ≤ w) (h : i - l + 1 ≤ w) : (windowBits e i l - 1) / 2 < tableEntries w := by
  have hlt : windowBits e i l < 2 ^ w := (Nat.mod_lt _ (Nat.two_pow_pos _)).trans_le (Nat.pow_le_pow_right (by decide) h)
  have hsplit : 2 ^ w = 2 ^ (w - 1) * 2 := by rw [← pow_succ, Nat.sub_add_cancel hw]
  have hpos : 0 < 2 ^ (w - 1) := Nat.two_pow_pos _
  rw [tableEntries]
  omega

/-! ### The scan -/

section
variable {n : List Word} {ninv : DWord} (h : low64 n * ninv = -1)
include h

theorem squareTimes_montForm (x k : Nat) : squareTimes n ninv k (montForm n x) = montForm n (x ^ 2 ^ k) := by
  induction k generalizing x with
  | zero => rw [squareTimes, pow_zero, pow_one]
  | succ k ih => rw [squareTimes, montSqr, montMul_montForm h, ih, ← pow_two, ← pow_mul, pow_succ']

/-- Multiplying by table entry `j` multiplies by the odd power `2 j + 1`: the slot's zero words do not count (R196). -/
theorem montMul_tableEntry (x b : Nat) {j entries : Nat} (hj : j < entries) :
    montMul n ninv (montForm n x) ((powerTable n ninv (montForm n b) entries).getD j []) = montForm n (x * b ^ (2 * j + 1)) := by
  have hentry : (powerTable n ninv (montForm n b) entries).getD j [] = List.replicate n.length 0 ++ montForm n (b ^ (2 * j + 1)) := by
    simp [powerTable_montForm h, hj]
  rw [hentry, montMul, val_replicate_zero_append]
  exact montMul_montForm h _ _

/-- A zero bit outside any window: the squaring doubles the exponent's part consumed (R197). -/
theorem montSqr_of_clear_bit (b : Nat) {e i : Nat} (hclear : e.testBit i = false) :
    montSqr n ninv (montForm n (b ^ (e / 2 ^ (i + 1)))) = montForm n (b ^ (e / 2 ^ i)) := by
  have hbit : e / 2 ^ i % 2 = 0 := by simpa [Nat.testBit_eq_decide_div_mod_eq] using hclear
  have hdouble : e / 2 ^ (i + 1) + e / 2 ^ (i + 1) = e / 2 ^ i := by
    rw [pow_succ, ← Nat.div_div_eq_div_mul]
    omega
  rw [montSqr, montMul_montForm h, ← pow_add, hdouble]

/-- A window of at most `w` bits that ends at a set bit: its squarings shift the exponent's part consumed, its table entry adds the window's
bits (R197). -/
theorem montMul_of_window (b : Nat) {e i l w : Nat} (hw : 1 ≤ w) (hli : l ≤ i) (hwidth : i - l + 1 ≤ w) (hlow : e.testBit l = true) :
    montMul n ninv (squareTimes n ninv (i - l + 1) (montForm n (b ^ (e / 2 ^ (i + 1)))))
      ((powerTable n ninv (montForm n b) (tableEntries w)).getD ((windowBits e i l - 1) / 2) []) = montForm n (b ^ (e / 2 ^ l)) := by
  rw [squareTimes_montForm h, montMul_tableEntry h _ b (index_lt_tableEntries hw hwidth), two_mul_index_add_one hlow, ← pow_mul,
    ← pow_add, ← div_two_pow_eq_add_windowBits e hli]

/-- The loop's invariant (R197): with `i` bits to go and the accumulator the Montgomery form of `b ^ (e div 2^i)`, the scan ends in that of
`b ^ e`. -/
theorem scanFuel_montForm (b e : Nat) {w : Nat} (hw : 1 ≤ w) {fuel i : Nat} (hfuel : i ≤ fuel) :
    scanFuel n ninv (powerTable n ninv (montForm n b) (tableEntries w)) e w fuel i (montForm n (b ^ (e / 2 ^ i))) =
      montForm n (b ^ e) := by
  induction fuel generalizing i with
  | zero =>
    obtain rfl : i = 0 := by omega
    rw [scanFuel, pow_zero, Nat.div_one]
  | succ fuel ih =>
    cases i with
    | zero => rw [scanFuel, pow_zero, Nat.div_one]
    | succ i =>
      rw [scanFuel]
      split
      next hset =>
        obtain ⟨hlo, hhi, hlow⟩ := trimWindow_spec hset (fuel := w) (l := i + 1 - w) (by omega) (by omega)
        generalize trimWindow e w (i + 1 - w) = l at hlo hhi hlow
        dsimp only
        rw [← windowBits, montMul_of_window h b hw hhi (by omega) hlow]
        exact ih (by omega)
      next hclear =>
        rw [montSqr_of_clear_bit h b (Bool.eq_false_of_not_eq_true hclear)]
        exact ih (by omega)

/-- Out of Montgomery form (R180). -/
theorem montRed_montForm (x : Nat) : montRed n ninv (val (montForm n x)) = words (x % val n) n.length := by
  have hproduct := montRed_montForm_mul h x 1
  rwa [Nat.mul_one, Nat.mul_one] at hproduct

end

/-- Above the bit length nothing is left of a number. -/
theorem div_two_pow_bitlen (v : Nat) : v / 2 ^ bitlen v = 0 := by
  by_cases hv : v = 0
  · rw [hv, Nat.zero_div]
  · rw [bitlen_of_ne_zero hv]
    exact Nat.div_eq_of_lt Nat.lt_log2_self

/-- The engine reaches the power, whatever the width of its windows (R199). -/
theorem windowedPowWith_eq {n : List Word} (hodd : (lowWord n).toNat % 2 = 1) {w : Nat} (hw : 1 ≤ w) (b e : List Word) :
    windowedPowWith w b e n = norm (words (val b ^ val e % val n) n.length) := by
  have hconst := low64_mul_montConst hodd
  have hscan := scanFuel_montForm hconst (val b) (val e) hw (le_refl (bitlen (val e)))
  rw [div_two_pow_bitlen, pow_zero] at hscan
  rw [windowedPowWith, hscan, montRed_montForm hconst]

/-- Settles O57: the width the engine picks is one of those the scan is right for. -/
theorem windowedPowIsPower : Obligations.WindowedPowIsPower := by
  intro b e n _ _ hodd _
  have hwidth (w : Nat) (hw : 1 ≤ w) := windowedPowWith_eq hodd hw b e
  obtain ⟨hpos, -⟩ := windowWidth_bounds (val e)
  exact ⟨hwidth, hwidth _ hpos⟩

/-! ### The key guard -/

/-- An array has no significant word exactly when its value is zero. -/
theorem siglen_eq_zero_iff_val {a : List Word} : siglen a = 0 ↔ val a = 0 := by
  rw [siglen_eq_zero_iff]
  constructor
  · intro hempty
    rw [← val_norm, hempty, val_nil]
  · intro hzero
    exact eq_of_val_eq (isNormalized_norm a) rfl ((val_norm a).trans hzero)

/-- The comparison of normalized arrays fails the guard's last test exactly where it does on the values (R122, R191). -/
theorem compareArrays_ne_lt_iff {a b : List Word} (ha : isNormalized a = true) (hb : isNormalized b = true) :
    compareArrays a b ≠ .lt ↔ val b ≤ val a := by
  rw [compareIsNumeric a b ha hb, ne_eq, Nat.compare_eq_lt, not_lt]

section
variable {s : State} {rs1 rs2 rs3 : WReg} (h : s.AllValid [rs1, rs2, rs3])
include h

/-- With valid sources the first of the five tests of R191 that applies is the guard's answer. -/
theorem firstFault_keyGuard : firstFault (s.keyGuard rs1 rs2 rs3) =
    if ¬ (((s.view rs3).length = 32 ∨ (s.view rs3).length = 64) ∧ isNormalized (s.view rs3) = true) then some .modLen
    else if ¬ (lowWord (s.view rs3)).toNat % 2 = 1 then some .modEven
    else if val (s.view rs2) = 0 then some .expZero
    else if isNormalized (s.view rs2) = false then some .notNormalized
    else if compareArrays (s.view rs2) (s.view rs3) ≠ .lt then some .expGeMod
    else none := by
  have hlength : (!Config.keyWords.contains (s.view rs3).length || !isNormalized (s.view rs3)) = true ↔
      ¬ (((s.view rs3).length = 32 ∨ (s.view rs3).length = 64) ∧ isNormalized (s.view rs3) = true) := by
    simp [Bool.or_eq_true, imp_iff_not_or]
  simp only [State.keyGuard, firstFault_sourceCheck_cons h, firstFault_cons, firstFault_nil, hlength, lowWordEven,
    siglen_eq_zero_iff_val, decide_eq_true_eq, Bool.not_eq_true', Nat.mod_two_not_eq_one]

/-- A key that passes the guard (R191). -/
theorem firstFault_keyGuard_of_keyOk (hkey : KeyOk (s.view rs2) (s.view rs3)) :
    firstFault (s.keyGuard rs1 rs2 rs3) = none := by
  obtain ⟨hlength, hform, hodd, hsig, hexp, hlt⟩ := hkey
  rw [firstFault_keyGuard h, if_neg (not_not.mpr ⟨hlength, hform⟩), if_neg (not_not.mpr hodd),
    if_neg (mt siglen_eq_zero_iff_val.mpr hsig), if_neg (ne_false_of_eq_true hexp),
    if_neg (mt (compareArrays_ne_lt_iff hexp hform).mp hlt.not_ge)]

end

/-- The modulus of a key that passes the guard is acceptable to the context (R191, R192). -/
theorem modulusOk_of_keyOk {e n : List Word} (h : KeyOk e n) : ModulusOk n := by
  obtain ⟨hlength, hform, hodd, -⟩ := h
  have hmax : Config.maxW = 64 := rfl
  exact ⟨by omega, by omega, hform, hodd⟩

/-! ### What MODPOW answers -/

/-- MODPOW with a failing guard only faults (R191). -/
theorem State.modpowWith_of_guard {s : State} {rs1 rs2 rs3 : WReg} {c : Cause} (h : firstFault (s.keyGuard rs1 rs2 rs3) = some c)
    (slots : Nat) (rd : WReg) : s.modpowWith slots rd rs1 rs2 rs3 = s.raiseFault c (some rd) := by
  simp only [State.modpowWith, h]

section
variable {s : State} {rs1 rs2 rs3 : WReg} (h : s.AllValid [rs1, rs2, rs3]) (hkey : KeyOk (s.view rs2) (s.view rs3))
  (slots : Nat) (rd : WReg)
include h hkey

/-- MODPOW past the guard with the exponent `[1]` (R198). -/
theorem State.modpowWith_of_one (hone : s.view rs2 = [1]) :
    s.modpowWith slots rd rs1 rs2 rs3 = (s.writeReg rd (s.view rs1)).complete := by
  simp only [State.modpowWith, firstFault_keyGuard_of_keyOk h hkey, if_pos hone]

/-- MODPOW past the guard and the exponent-1 exit: the context written, then the tests of the base and of the table (R192, R195). -/
theorem State.modpowWith_of_ne_one (hne : s.view rs2 ≠ [1]) : s.modpowWith slots rd rs1 rs2 rs3 =
    if Config.cap < siglen (s.view rs1) + (s.view rs3).length + 1 then (s.loadCtx (s.view rs3)).raiseFault .capacity (some rd)
    else if slots < tableEntries (windowWidth (val (s.view rs2))) then (s.loadCtx (s.view rs3)).raiseFault .tableAlloc (some rd)
    else ((s.loadCtx (s.view rs3)).writeReg rd (powArray (s.view rs1) (s.view rs2) (s.view rs3))).complete := by
  simp only [State.modpowWith, firstFault_keyGuard_of_keyOk h hkey, if_neg hne, baseTooLong, tableCheck, State.command_cons,
    State.command_nil, decide_eq_true_eq]

end

/-! ### The faults -/

/-- Settles O27: each clause is the first of the guard's tests that applies. -/
theorem modpowGuardFaults : Obligations.ModpowGuardFaults := by
  intro rd rs1 rs2 rs3 s hvalid e n faults lenOk odd
  have hguard := firstFault_keyGuard hvalid
  have hfaults {c : Cause} (hc : firstFault (s.keyGuard rs1 rs2 rs3) = some c) : faults c :=
    exists_plainFault (congrArg Host.Outcome.next (State.modpowWith_of_guard hc Config.tblSlots rd))
  refine ⟨fun hlen => ?_, fun hlen hodd => ?_, fun hlen hodd hzero => ?_, fun hlen hodd hne hform => ?_,
    fun hlen hodd hne hform hge => ?_⟩
  · rw [if_pos hlen] at hguard
    exact hfaults hguard
  · rw [if_neg (not_not.mpr hlen), if_pos hodd] at hguard
    exact hfaults hguard
  · rw [if_neg (not_not.mpr hlen), if_neg (not_not.mpr hodd), if_pos hzero] at hguard
    exact hfaults hguard
  · rw [if_neg (not_not.mpr hlen), if_neg (not_not.mpr hodd), if_neg hne, if_pos hform] at hguard
    exact hfaults hguard
  · obtain ⟨-, hnorm⟩ := id hlen
    rw [if_neg (not_not.mpr hlen), if_neg (not_not.mpr hodd), if_neg hne, if_neg (ne_false_of_eq_true hform),
      if_pos ((compareArrays_ne_lt_iff hform hnorm).mpr hge)] at hguard
    exact hfaults hguard

/-- A fault taken after the context was written leaves the modulus there; the rest is as in any fault (R192, R214). -/
theorem State.raiseFault_loadCtx (s : State) {n : List Word} (h : ModulusOk n) (c : Cause) (rd : Option WReg) :
    FaultTaken s ((s.loadCtx n).raiseFault c rd) c rd ∧ ((s.loadCtx n).raiseFault c rd).ctx.HoldsModulus n ∧
      SameIob s ((s.loadCtx n).raiseFault c rd) := by
  obtain ⟨htaken, hctx, hiob⟩ := (s.loadCtx n).raiseFault_plain c rd
  rw [hctx]
  exact ⟨htaken, MontCtx.ofModulus_holdsModulus _ h, hiob⟩

/-- Settles O28: the base's test stands behind the context write. -/
theorem modpowCapacityFault : Obligations.ModpowCapacityFault := by
  intro rd rs1 rs2 rs3 s hvalid hkey hne hlong
  have hanswer := State.modpowWith_of_ne_one hvalid hkey Config.tblSlots rd hne
  rw [if_pos hlong] at hanswer
  exact ⟨_, congrArg Host.Outcome.next hanswer, s.raiseFault_loadCtx (modulusOk_of_keyOk hkey) _ _⟩

/-- Settles O29: the table's test stands behind that of the base; no width is above `WMAX`. -/
theorem tableAllocFault : Obligations.TableAllocFault := by
  refine ⟨fun slots rd rs1 rs2 rs3 s hvalid hkey hne hfits hslots => ?_, tableEntries_windowWidth_le⟩
  rw [State.modpowWith_of_ne_one hvalid hkey slots rd hne, if_neg hfits.not_gt, tableEntries, if_pos hslots]
  exact s.raiseFault_loadCtx (modulusOk_of_keyOk hkey) _ _

/-! ### The results -/

theorem val_powArray (b e : List Word) {n : List Word} (h : 0 < val n) : val (powArray b e n) = val b ^ val e % val n := by
  rw [powArray, val_norm, powMod_eq, val_words_mod h]

/-- Settles O46: no test applies on the hardware's engine, and the power fits the modulus's length. -/
theorem modpowResult : Obligations.ModpowResult := by
  intro rd rs1 rs2 rs3 s hvalid hkey hne hfits
  have hmodulus := modulusOk_of_keyOk hkey
  have ⟨hpos, _, hform, _⟩ := hmodulus
  have hanswer := State.modpowWith_of_ne_one hvalid hkey Config.tblSlots rd hne
  rw [if_neg hfits.not_gt, if_neg (tableEntries_windowWidth_le _).not_gt] at hanswer
  obtain ⟨hended, hholds, hregs, hctx, hiob, hport⟩ := (s.loadCtx (s.view rs3)).complete_writeReg_wroteOnly rd
    ((powArray_length_le (s.view rs1) (s.view rs2) (s.view rs3)).trans (s.view_length_le rs3))
  refine ⟨_, _, congrArg Host.Outcome.next hanswer, hended, hholds, isNormalized_norm _,
    val_powArray _ _ (val_pos_of_isNormalized hform (List.length_pos_iff.mp hpos)), ?_, hregs, rfl, hiob, hport⟩
  rw [hctx]
  exact MontCtx.ofModulus_holdsModulus _ hmodulus

/-- Settles O47: the exponent-1 exit stands before the context write. -/
theorem modpowExponentOne : Obligations.ModpowExponentOne := by
  intro rd rs1 rs2 rs3 s hvalid hkey hone
  exact ⟨_, congrArg Host.Outcome.next (State.modpowWith_of_one hvalid hkey Config.tblSlots rd hone),
    s.complete_writeReg_wroteOnly rd (s.view_length_le rs1), rfl⟩

end Sys2Proof.Machine

/-! SUPPORT. The exception family's statements (spec/60_exceptions.md). The classes of the causes (R211, R212); the fault of an invalid source,
which every command with a source tests first (R213, R218); that no turn of R70 stops the machine (R210, R251). -/

namespace Sys2Proof.Machine

open Sys2Proof

/-! ### Classes -/

/-- `ERRCODE` 4 names the class reserved for host software, and no other (R211). -/
theorem ErrClass.number_eq_four {e : ErrClass} : e.number = 4 ↔ e = .inputTooLarge := by
  cases e <;> decide

/-- No row of R212's table has the class reserved for host software (R211). -/
theorem Cause.errClass_ne_inputTooLarge (c : Cause) : c.errClass ≠ .inputTooLarge := by
  cases c <;> decide

/-- Settles O21: the table of R212 row by row; the class numbered 4 is no cause's. -/
theorem causeNumbersAndClasses : Obligations.CauseNumbersAndClasses :=
  ⟨rfl, fun c hfour => c.errClass_ne_inputTooLarge (ErrClass.number_eq_four.mp hfour)⟩

/-! ### An invalid source -/

/-- The source check applies exactly when some source is invalid (R213). -/
theorem State.someInvalid_eq_true {s : State} {rs : List WReg} :
    s.someInvalid rs = true ↔ ∃ r ∈ rs, (s.reg r).valid = false := by
  simp [State.someInvalid]

section
variable {s : State} {rs : List WReg} (h : s.someInvalid rs = true) (rest : List (Bool × Cause))
include h

/-- An invalid source decides, whatever the other checks say (R218). -/
theorem firstFault_sourceCheck_of_invalid : firstFault (s.sourceCheck rs :: rest) = some .srcInvalid := by
  rw [State.sourceCheck, firstFault_cons, if_pos h]

/-- A command that tests its sources first faults on an invalid one (R213). -/
theorem State.command_of_source_invalid (rd : Option WReg) (effect : State) :
    s.command rd (s.sourceCheck rs :: rest) effect = s.raiseFault .srcInvalid rd := by
  rw [State.command, firstFault_sourceCheck_of_invalid h]

end

/-- Every command with an invalid source only faults: each tests its sources before anything else, NORM its `rd` (R213, R218). -/
theorem exec_of_source_invalid {i : Instr} {s : State} (h : s.someInvalid i.sources = true) :
    exec i s = .next (s.raiseFault .srcInvalid i.destination) := by
  cases i with
  | nop | ldb => exact absurd h Bool.false_ne_true
  | stb rs1 rs2 => exact if_pos h
  | modpow rd rs1 rs2 rs3 =>
    exact congrArg Host.Outcome.next (State.modpowWith_of_guard (firstFault_sourceCheck_of_invalid h _) _ _)
  | mov | cmp | add | sub | shl | shr | norm | mul | sqr | rem | msetup | mto | mmul | msqr | mred =>
    exact congrArg Host.Outcome.next (State.command_of_source_invalid h _ _ _)

/-- Settles O22: the command only faults, and the fault leaves all but its destination. -/
theorem invalidSourceFaults : Obligations.InvalidSourceFaults := fun _ _ hinvalid =>
  exists_plainFault (exec_of_source_invalid (State.someInvalid_eq_true.mpr hinvalid))

/-! ### Every turn answers -/

/-- The engine's turn answers where every view lies inside its register: it rests, or it ends the command (R22, R29). -/
theorem State.engineTurn_answers {s : State} (hviews : ∀ r, (s.reg r).Inside) : ∃ t, s.engineTurn = .next t := by
  by_cases hbusy : s.engine = .busy
  · obtain ⟨t, ht, -⟩ := State.engineTurn_ends hviews hbusy
    exact ⟨t, ht⟩
  · exact ⟨s, State.engineTurn_of_ne_busy hbusy⟩

/-- The engine's step answers where every view lies inside its register (R29, R70). -/
theorem step_answers_of_engineNext {s : State} {rest : List Event} (hviews : ∀ r, (s.reg r).Inside) (hnext : s.EngineNext rest) :
    ∃ t, step s = .next t := by
  rw [step_of_engineNext hnext]
  exact State.engineTurn_answers hviews

theorem step_of_reset {s : State} {rest : List Event} (h : s.events = .reset :: rest) :
    step s = .next (State.applyReset { s with events := rest }) := by
  simp only [step, State.turn, h]

/-- Settles O13, by the turns of R70: the engine's needs the views inside their registers, the host's and the reset always answer. -/
theorem stepNeverStops : Obligations.StepNeverStops := by
  intro s hinv
  match hevents : s.events with
  | [] => exact step_answers_of_engineNext hinv.views (.inl ⟨hevents, rfl⟩)
  | .engine :: rest => exact step_answers_of_engineNext hinv.views (.inr hevents)
  | .read width addr :: rest => exact ⟨_, step_of_read hevents⟩
  | .write width addr v :: rest => exact ⟨_, step_of_write hevents⟩
  | .reset :: rest => exact ⟨_, step_of_reset hevents⟩

end Sys2Proof.Machine

/-! SUPPORT. The reset family's statement (spec/70_reset_and_hazards.md R240, R241): what `Reset` leaves of the table of R39, whatever state it
meets, and `STATUS` as the table's values give it (R30). -/

namespace Sys2Proof.Machine

open Sys2Proof

/-- The table of R39 speaks of no piece that `Reset` leaves apart from the reset state: hidden storage (R241) and the model's own fields. -/
theorem State.applyReset_atReset (s : State) : s.applyReset.AtReset := by
  have hreset : State.reset.AtReset := resetValues
  exact hreset

/-- `STATUS` shows `STATE`, `DONE` and `BUSERR` only (R30), so the table of R39 fixes it. -/
theorem State.AtReset.status_eq_zero {t : State} (h : t.AtReset) : t.status = 0 := by
  obtain ⟨-, -, -, -, -, -, -, -, -, hengine, hdone, hbuserr, -⟩ := h
  rw [State.status, hengine, hdone, hbuserr]
  rfl

/-- Settles O10: the reset's turn answers in any state, and what it answers is at the values of R39. -/
theorem resetEventFromAnyState : Obligations.ResetEventFromAnyState := by
  intro s rest hevents
  have hreset := State.applyReset_atReset { s with events := rest }
  exact ⟨_, step_of_reset hevents, hreset, hreset.status_eq_zero, rfl, rfl, rfl⟩

end Sys2Proof.Machine
